-- ==== Sys2Proof/Word.lean ====
section
/-! DEFINITION. The two value widths of the hardware: the byte (u8) and the word (u16) of spec rule R10.
All arithmetic on them is unsigned and wraps (R10, R116). -/

namespace Sys2Proof

/-- A `u8`: V registers, timers, SP, a byte of RAM (R10). -/
abbrev Byte := BitVec 8

/-- A `u16`: an instruction word, I, the PC register, a stack entry (R10). -/
abbrev Word := BitVec 16

end Sys2Proof
end

