-- ==== Sys2Proof/Syntax.lean ====
section
/-! DEFINITION. The instruction set: one constructor per row of spec/opcode_table.json (R64), with the
operands of the formats of R62 already taken apart (R63). -/

namespace Sys2Proof

/-- A register index, the x or y field of R61: Vx is register x. -/
abbrev Reg := Fin 16

/-- A 12-bit address immediate, the nnn field of R61. -/
abbrev Addr := BitVec 12

/-- The 34 instructions of R64, in the table's order. -/
inductive Instr where
  /-- 00E0, CLS (R81) -/
  | cls
  /-- 00EE, RET (R86) -/
  | ret
  /-- 1nnn, JP nnn (R87) -/
  | jp (nnn : Addr)
  /-- 2nnn, CALL nnn (R88) -/
  | call (nnn : Addr)
  /-- 3xkk, SE Vx, kk (R96) -/
  | seKk (x : Reg) (kk : Byte)
  /-- 4xkk, SNE Vx, kk (R97) -/
  | sneKk (x : Reg) (kk : Byte)
  /-- 5xy0, SE Vx, Vy (R98) -/
  | seVy (x y : Reg)
  /-- 6xkk, LD Vx, kk (R104) -/
  | ldKk (x : Reg) (kk : Byte)
  /-- 7xkk, ADD Vx, kk (R105) -/
  | addKk (x : Reg) (kk : Byte)
  /-- 8xy0, LD Vx, Vy (R106) -/
  | ldVy (x y : Reg)
  /-- 8xy1, OR Vx, Vy (R107) -/
  | orVy (x y : Reg)
  /-- 8xy2, AND Vx, Vy (R108) -/
  | andVy (x y : Reg)
  /-- 8xy3, XOR Vx, Vy (R109) -/
  | xorVy (x y : Reg)
  /-- 8xy4, ADD Vx, Vy (R110) -/
  | addVy (x y : Reg)
  /-- 8xy5, SUB Vx, Vy (R111) -/
  | subVy (x y : Reg)
  /-- 8xy6, SHR Vx, Vy (R112) -/
  | shrVy (x y : Reg)
  /-- 8xy7, SUBN Vx, Vy (R113) -/
  | subnVy (x y : Reg)
  /-- 8xyE, SHL Vx, Vy (R114) -/
  | shlVy (x y : Reg)
  /-- 9xy0, SNE Vx, Vy (R99) -/
  | sneVy (x y : Reg)
  /-- Annn, LD I, nnn (R118) -/
  | ldI (nnn : Addr)
  /-- Bnnn, JP V0, nnn (R89) -/
  | jpV0 (nnn : Addr)
  /-- Cxkk, RND Vx, kk (R115) -/
  | rnd (x : Reg) (kk : Byte)
  /-- Dxyn, DRW Vx, Vy, n (R82); `n` is a count of rows, 0 to 15 in a well-formed instruction -/
  | drw (x y : Reg) (n : Nat)
  /-- Ex9E, SKP Vx (R100) -/
  | skp (x : Reg)
  /-- ExA1, SKNP Vx (R101) -/
  | sknp (x : Reg)
  /-- Fx07, LD Vx, DT (R124) -/
  | ldVxDt (x : Reg)
  /-- Fx0A, LD Vx, K (R125) -/
  | ldVxK (x : Reg)
  /-- Fx15, LD DT, Vx (R126) -/
  | ldDtVx (x : Reg)
  /-- Fx18, LD ST, Vx (R127) -/
  | ldStVx (x : Reg)
  /-- Fx1E, ADD I, Vx (R119) -/
  | addIVx (x : Reg)
  /-- Fx29, LD F, Vx (R120) -/
  | ldFVx (x : Reg)
  /-- Fx33, LD B, Vx (R121) -/
  | ldBVx (x : Reg)
  /-- Fx55, LD [I], Vx (R122) -/
  | ldMemVx (x : Reg)
  /-- Fx65, LD Vx, [I] (R123) -/
  | ldVxMem (x : Reg)
  deriving DecidableEq, Repr

end Sys2Proof
end

