-- ==== Sys2Proof/WellFormed.lean ====
section
/-! DEFINITION. Which terms of `Instr` are instructions. The types of the operands already bound x, y, kk
and nnn (R61); the one check left is that a sprite's height fits its 4-bit field (R61, R82). -/

namespace Sys2Proof

/-- The height of Dxyn is the 4-bit field n, 0 to 15 (R61, R82); every other operand is bounded by its type. -/
def Instr.wellFormed : Instr → Bool
  | .cls => true
  | .ret => true
  | .jp _ => true
  | .call _ => true
  | .seKk _ _ => true
  | .sneKk _ _ => true
  | .seVy _ _ => true
  | .ldKk _ _ => true
  | .addKk _ _ => true
  | .ldVy _ _ => true
  | .orVy _ _ => true
  | .andVy _ _ => true
  | .xorVy _ _ => true
  | .addVy _ _ => true
  | .subVy _ _ => true
  | .shrVy _ _ => true
  | .subnVy _ _ => true
  | .shlVy _ _ => true
  | .sneVy _ _ => true
  | .ldI _ => true
  | .jpV0 _ => true
  | .rnd _ _ => true
  | .drw _ _ n => decide (n < 16)
  | .skp _ => true
  | .sknp _ => true
  | .ldVxDt _ => true
  | .ldVxK _ => true
  | .ldDtVx _ => true
  | .ldStVx _ => true
  | .addIVx _ => true
  | .ldFVx _ => true
  | .ldBVx _ => true
  | .ldMemVx _ => true
  | .ldVxMem _ => true

end Sys2Proof
end

