-- ==== Sys2Proof/Decode.lean ====
section
/-! DEFINITION. From words to instructions and back: the fields of R61, the decision tree of R65, the
rejections of R66, the opcode map of R64 as a table, and the encoder of R69. Decoding is total and reads
nothing but the word (R60, R68). -/

namespace Sys2Proof

/-- Why the decoder gives no instruction. -/
inductive Reject where
  /-- The word matches no row of R64 (R66). -/
  | invalidOpcode (opcode : Word)
  /-- Fewer than the two bytes of an instruction are left (R68). -/
  | truncated
  deriving DecidableEq, Repr

/-- op = w[15:12] (R61). -/
def fieldOp (w : Word) : BitVec 4 := w.extractLsb' 12 4

/-- x = w[11:8] (R61). -/
def fieldX (w : Word) : Reg := (w.extractLsb' 8 4).toFin

/-- y = w[7:4] (R61). -/
def fieldY (w : Word) : Reg := (w.extractLsb' 4 4).toFin

/-- n = w[3:0] (R61), a count or a sub-opcode. -/
def fieldN (w : Word) : Nat := (w.extractLsb' 0 4).toNat

/-- kk = w[7:0] (R61). -/
def fieldKk (w : Word) : Byte := w.extractLsb' 0 8

/-- nnn = w[11:0] (R61). -/
def fieldNnn (w : Word) : Addr := w.extractLsb' 0 12

/-- The 8xyN group of R65. -/
def decodeAlu (w : Word) : Except Reject Instr :=
  match fieldN w with
  | 0x0 => .ok (.ldVy (fieldX w) (fieldY w))
  | 0x1 => .ok (.orVy (fieldX w) (fieldY w))
  | 0x2 => .ok (.andVy (fieldX w) (fieldY w))
  | 0x3 => .ok (.xorVy (fieldX w) (fieldY w))
  | 0x4 => .ok (.addVy (fieldX w) (fieldY w))
  | 0x5 => .ok (.subVy (fieldX w) (fieldY w))
  | 0x6 => .ok (.shrVy (fieldX w) (fieldY w))
  | 0x7 => .ok (.subnVy (fieldX w) (fieldY w))
  | 0xE => .ok (.shlVy (fieldX w) (fieldY w))
  | _ => .error (.invalidOpcode w)

/-- The ExKK group of R65. -/
def decodeKey (w : Word) : Except Reject Instr :=
  if fieldKk w = 0x9E then .ok (.skp (fieldX w))
  else if fieldKk w = 0xA1 then .ok (.sknp (fieldX w))
  else .error (.invalidOpcode w)

/-- The FxKK group of R65. -/
def decodeMisc (w : Word) : Except Reject Instr :=
  if fieldKk w = 0x07 then .ok (.ldVxDt (fieldX w))
  else if fieldKk w = 0x0A then .ok (.ldVxK (fieldX w))
  else if fieldKk w = 0x15 then .ok (.ldDtVx (fieldX w))
  else if fieldKk w = 0x18 then .ok (.ldStVx (fieldX w))
  else if fieldKk w = 0x1E then .ok (.addIVx (fieldX w))
  else if fieldKk w = 0x29 then .ok (.ldFVx (fieldX w))
  else if fieldKk w = 0x33 then .ok (.ldBVx (fieldX w))
  else if fieldKk w = 0x55 then .ok (.ldMemVx (fieldX w))
  else if fieldKk w = 0x65 then .ok (.ldVxMem (fieldX w))
  else .error (.invalidOpcode w)

/-- The decision tree of R65; what falls through is invalid (R66). -/
def decode (w : Word) : Except Reject Instr :=
  match (fieldOp w).toNat with
  | 0x0 =>
    if w = 0x00E0 then .ok .cls
    else if w = 0x00EE then .ok .ret
    else .error (.invalidOpcode w)
  | 0x1 => .ok (.jp (fieldNnn w))
  | 0x2 => .ok (.call (fieldNnn w))
  | 0x3 => .ok (.seKk (fieldX w) (fieldKk w))
  | 0x4 => .ok (.sneKk (fieldX w) (fieldKk w))
  | 0x5 => if fieldN w = 0 then .ok (.seVy (fieldX w) (fieldY w)) else .error (.invalidOpcode w)
  | 0x6 => .ok (.ldKk (fieldX w) (fieldKk w))
  | 0x7 => .ok (.addKk (fieldX w) (fieldKk w))
  | 0x8 => decodeAlu w
  | 0x9 => if fieldN w = 0 then .ok (.sneVy (fieldX w) (fieldY w)) else .error (.invalidOpcode w)
  | 0xA => .ok (.ldI (fieldNnn w))
  | 0xB => .ok (.jpV0 (fieldNnn w))
  | 0xC => .ok (.rnd (fieldX w) (fieldKk w))
  | 0xD => .ok (.drw (fieldX w) (fieldY w) (fieldN w))
  | 0xE => decodeKey w
  | _ => decodeMisc w

/-- A word from its bytes, big-endian: the byte at the lower address is the high half (R55). -/
def wordOfBytes (hi lo : Byte) : Word := hi ++ lo

/-- The byte of a word at the lower address (R55). -/
def hiByte (w : Word) : Byte := w.extractLsb' 8 8

/-- The byte of a word at the higher address (R55). -/
def loByte (w : Word) : Byte := w.extractLsb' 0 8

/-- The instruction at the head of a list of bytes, with the rest of the list (R55, R68). -/
def decodeBytes : List Byte → Except Reject (Instr × List Byte)
  | hi :: lo :: rest =>
    match decode (wordOfBytes hi lo) with
    | .ok i => .ok (i, rest)
    | .error e => .error e
  | [] => .error .truncated
  | [_] => .error .truncated

/-! ### The encoder (R61, R62, R64, R69) -/

/-- Format A of R62: op, nnn. -/
def packA (op : BitVec 4) (nnn : Addr) : Word := op ++ nnn

/-- Format XK of R62: op, x, kk. -/
def packXK (op : BitVec 4) (x : Reg) (kk : Byte) : Word := op ++ (BitVec.ofFin (w := 4) x ++ kk)

/-- Formats XY and XYN of R62: op, x, y, sub or n. -/
def packXYN (op : BitVec 4) (x y : Reg) (n : BitVec 4) : Word :=
  op ++ (BitVec.ofFin (w := 4) x ++ (BitVec.ofFin (w := 4) y ++ n))

/-- The word of a well-formed instruction: each field at its bits of R61, the fixed bits of R64 elsewhere (R69). -/
def encode : Instr → Word
  | .cls => 0x00E0
  | .ret => 0x00EE
  | .jp nnn => packA 0x1 nnn
  | .call nnn => packA 0x2 nnn
  | .seKk x kk => packXK 0x3 x kk
  | .sneKk x kk => packXK 0x4 x kk
  | .seVy x y => packXYN 0x5 x y 0x0
  | .ldKk x kk => packXK 0x6 x kk
  | .addKk x kk => packXK 0x7 x kk
  | .ldVy x y => packXYN 0x8 x y 0x0
  | .orVy x y => packXYN 0x8 x y 0x1
  | .andVy x y => packXYN 0x8 x y 0x2
  | .xorVy x y => packXYN 0x8 x y 0x3
  | .addVy x y => packXYN 0x8 x y 0x4
  | .subVy x y => packXYN 0x8 x y 0x5
  | .shrVy x y => packXYN 0x8 x y 0x6
  | .subnVy x y => packXYN 0x8 x y 0x7
  | .shlVy x y => packXYN 0x8 x y 0xE
  | .sneVy x y => packXYN 0x9 x y 0x0
  | .ldI nnn => packA 0xA nnn
  | .jpV0 nnn => packA 0xB nnn
  | .rnd x kk => packXK 0xC x kk
  | .drw x y n => packXYN 0xD x y (BitVec.ofNat 4 n)
  | .skp x => packXK 0xE x 0x9E
  | .sknp x => packXK 0xE x 0xA1
  | .ldVxDt x => packXK 0xF x 0x07
  | .ldVxK x => packXK 0xF x 0x0A
  | .ldDtVx x => packXK 0xF x 0x15
  | .ldStVx x => packXK 0xF x 0x18
  | .addIVx x => packXK 0xF x 0x1E
  | .ldFVx x => packXK 0xF x 0x29
  | .ldBVx x => packXK 0xF x 0x33
  | .ldMemVx x => packXK 0xF x 0x55
  | .ldVxMem x => packXK 0xF x 0x65

/-- The two bytes of an instruction in memory order (R55). -/
def encodeBytes (i : Instr) : List Byte := [hiByte (encode i), loByte (encode i)]

/-! ### The opcode map as a table (R64) -/

/-- One row of R64: a word `w` is the instruction when `w & mask == fixed`; `make` reads its fields. -/
structure OpcodeRow where
  mask : Word
  fixed : Word
  make : Word → Instr

/-- The word matches the row (R64). -/
def OpcodeRow.hits (r : OpcodeRow) (w : Word) : Bool := w &&& r.mask == r.fixed

/-- Rows 1 to 9 of R64. -/
def opcodeRowsLow : List OpcodeRow :=
  [ ⟨0xFFFF, 0x00E0, fun _ => .cls⟩,
    ⟨0xFFFF, 0x00EE, fun _ => .ret⟩,
    ⟨0xF000, 0x1000, fun w => .jp (fieldNnn w)⟩,
    ⟨0xF000, 0x2000, fun w => .call (fieldNnn w)⟩,
    ⟨0xF000, 0x3000, fun w => .seKk (fieldX w) (fieldKk w)⟩,
    ⟨0xF000, 0x4000, fun w => .sneKk (fieldX w) (fieldKk w)⟩,
    ⟨0xF00F, 0x5000, fun w => .seVy (fieldX w) (fieldY w)⟩,
    ⟨0xF000, 0x6000, fun w => .ldKk (fieldX w) (fieldKk w)⟩,
    ⟨0xF000, 0x7000, fun w => .addKk (fieldX w) (fieldKk w)⟩ ]

/-- Rows 10 to 18 of R64. -/
def opcodeRowsAlu : List OpcodeRow :=
  [ ⟨0xF00F, 0x8000, fun w => .ldVy (fieldX w) (fieldY w)⟩,
    ⟨0xF00F, 0x8001, fun w => .orVy (fieldX w) (fieldY w)⟩,
    ⟨0xF00F, 0x8002, fun w => .andVy (fieldX w) (fieldY w)⟩,
    ⟨0xF00F, 0x8003, fun w => .xorVy (fieldX w) (fieldY w)⟩,
    ⟨0xF00F, 0x8004, fun w => .addVy (fieldX w) (fieldY w)⟩,
    ⟨0xF00F, 0x8005, fun w => .subVy (fieldX w) (fieldY w)⟩,
    ⟨0xF00F, 0x8006, fun w => .shrVy (fieldX w) (fieldY w)⟩,
    ⟨0xF00F, 0x8007, fun w => .subnVy (fieldX w) (fieldY w)⟩,
    ⟨0xF00F, 0x800E, fun w => .shlVy (fieldX w) (fieldY w)⟩ ]

/-- Rows 19 to 25 of R64. -/
def opcodeRowsMid : List OpcodeRow :=
  [ ⟨0xF00F, 0x9000, fun w => .sneVy (fieldX w) (fieldY w)⟩,
    ⟨0xF000, 0xA000, fun w => .ldI (fieldNnn w)⟩,
    ⟨0xF000, 0xB000, fun w => .jpV0 (fieldNnn w)⟩,
    ⟨0xF000, 0xC000, fun w => .rnd (fieldX w) (fieldKk w)⟩,
    ⟨0xF000, 0xD000, fun w => .drw (fieldX w) (fieldY w) (fieldN w)⟩,
    ⟨0xF0FF, 0xE09E, fun w => .skp (fieldX w)⟩,
    ⟨0xF0FF, 0xE0A1, fun w => .sknp (fieldX w)⟩ ]

/-- Rows 26 to 34 of R64. -/
def opcodeRowsMisc : List OpcodeRow :=
  [ ⟨0xF0FF, 0xF007, fun w => .ldVxDt (fieldX w)⟩,
    ⟨0xF0FF, 0xF00A, fun w => .ldVxK (fieldX w)⟩,
    ⟨0xF0FF, 0xF015, fun w => .ldDtVx (fieldX w)⟩,
    ⟨0xF0FF, 0xF018, fun w => .ldStVx (fieldX w)⟩,
    ⟨0xF0FF, 0xF01E, fun w => .addIVx (fieldX w)⟩,
    ⟨0xF0FF, 0xF029, fun w => .ldFVx (fieldX w)⟩,
    ⟨0xF0FF, 0xF033, fun w => .ldBVx (fieldX w)⟩,
    ⟨0xF0FF, 0xF055, fun w => .ldMemVx (fieldX w)⟩,
    ⟨0xF0FF, 0xF065, fun w => .ldVxMem (fieldX w)⟩ ]

/-- The 34 rows of R64, in its order. -/
def opcodeTable : List OpcodeRow := opcodeRowsLow ++ opcodeRowsAlu ++ opcodeRowsMid ++ opcodeRowsMisc

/-! ### The host's probe -/

/-- The instruction the decoder reads from the low `nbits` bits of `w`, laid out in memory as the hardware
stores a word, every bit above them zero. -/
def decodeTableWord (nbits w : Nat) : Option Instr :=
  let word := BitVec.ofNat 16 (w % 2 ^ nbits)
  match decodeBytes [hiByte word, loByte word] with
  | .ok (i, _) => some i
  | .error _ => none

end Sys2Proof
end

