-- ==== Sys2Proof/Config.lean ====
section
/-! DEFINITION. What is fixed for one machine: the implementation parameters of spec rule R8, the font's
type and default (R51), and the three parameters the spec leaves OPEN (RNG, DEADLINE, CYCLES_PER_FRAME: decisions D16,
D17, D18), which are constants with no body, so that nothing can be proved about their values. -/

namespace Sys2Proof

/-- RAM_SIZE: 4096 bytes (R8, R48). -/
def Config.ramSize : Nat := 4096

/-- ROM_BASE and the reset entry point (R8, R52). -/
def Config.romBase : Nat := 0x200

/-- ROM_MAX: 4096 − 0x200 bytes (R8, R52). -/
def Config.romMax : Nat := 3584

/-- FONT_BASE (R8, R51, decision D4). -/
def Config.fontBase : Nat := 0x050

/-- The parameter FONT_DATA: the 80 bytes of the font, five for each of sixteen glyphs, top row first (R8, R51). The
machine's own are in `State.font`. -/
abbrev Font := Vector Byte 80

/-- The default of FONT_DATA (R51, decision D5; log entry 5), as a list. -/
def Config.defaultFontBytes : List Byte :=
  [0xF0, 0x90, 0x90, 0x90, 0xF0] ++ [0x20, 0x60, 0x20, 0x20, 0x70] ++
  [0xF0, 0x10, 0xF0, 0x80, 0xF0] ++ [0xF0, 0x10, 0xF0, 0x10, 0xF0] ++
  [0x90, 0x90, 0xF0, 0x10, 0x10] ++ [0xF0, 0x80, 0xF0, 0x10, 0xF0] ++
  [0xF0, 0x80, 0xF0, 0x90, 0xF0] ++ [0xF0, 0x10, 0x20, 0x40, 0x40] ++
  [0xF0, 0x90, 0xF0, 0x90, 0xF0] ++ [0xF0, 0x90, 0xF0, 0x10, 0xF0] ++
  [0xF0, 0x90, 0xF0, 0x90, 0x90] ++ [0xE0, 0x90, 0xE0, 0x90, 0xE0] ++
  [0xF0, 0x80, 0x80, 0x80, 0xF0] ++ [0xE0, 0x90, 0x90, 0x90, 0xE0] ++
  [0xF0, 0x80, 0xF0, 0x80, 0xF0] ++ [0xF0, 0x80, 0xF0, 0x80, 0x80]

/-- The default of FONT_DATA (R51, decision D5; log entry 5). -/
def Config.defaultFont : Font := ⟨Config.defaultFontBytes.toArray, rfl⟩

/-- RNG: the n-th draw of `rand8()`, a FREE VALUE (R30, R115, decision D16; log entry 7). -/
opaque Config.randByte : Nat → Byte

/-- DEADLINE: the n-th deadline draw of the host, a FREE VALUE (R150, decision D18; log entry 8). -/
opaque Config.deadline : Nat → Bool

/-- CYCLES_PER_FRAME less one, OPEN (R8, decision D17; log entry 9). -/
opaque Config.cyclesLessOne : Nat

/-- CYCLES_PER_FRAME: some positive number, never known to a proof (R8, decision D17). -/
def Config.cyclesPerFrame : Nat := Config.cyclesLessOne + 1

end Sys2Proof
end

