-- ==== Sys2Proof/Machine/State.lean ====
section
/-! DEFINITION. Everything the spec gives the machine (R15), the host's moves and what it is handed (R146),
the reasons a step can stop, and the state after reset (R37, R161). Plain data throughout. -/

namespace Sys2Proof.Machine

/-- RAM as its differences from the reset contents: addresses strictly rising, no entry equal to what an
unlisted address reads as (`Memory.wf` in Machine/Ops.lean; R48). -/
abbrev Memory := List Host.Cell

/-- The 64 × 32 bitmap in row-major order: bit c of row r is pixel fb[c, r], bit number r·64 + c (R26, R27). -/
abbrev FrameBuffer := Vector (BitVec 64) 32

/-- The kinds of fatal error, in the order of R132. -/
inductive FaultKind where
  /-- code 1, raised by the instruction cycle (R133) -/
  | invalidOpcode
  /-- code 2, raised by 2nnn (R134) -/
  | stackOverflow
  /-- code 3, raised by 00EE (R135) -/
  | stackUnderflow
  /-- code 4, raised by Ex9E and ExA1 (R136) -/
  | undefinedKeyIndex
  /-- code 5, which no rule raises (R137) -/
  | addressOutOfRange
  deriving DecidableEq, Repr

/-- The fault record (kind, opcode, pc) of R33 and R131. -/
structure FaultRecord where
  kind : FaultKind
  opcode : Word
  pc : Word
  deriving DecidableEq, Repr

/-- The host's moves on the core (R146, R148). -/
inductive HostOp where
  /-- `load_rom(bytes)`, the reset (R160 to R162) -/
  | loadRom (bytes : List Byte)
  /-- `key_event(idx, pressed)` (R147) -/
  | keyEvent (idx : Nat) (pressed : Bool)
  /-- the whole matrix as `poll_keys()` gave it (R154) -/
  | pollKeys (keys : Vector Bool 16)
  /-- `run_frame()` (R150) -/
  | runFrame
  /-- `step()` (R149) -/
  | singleStep
  /-- `pause()` (R151) -/
  | pause
  /-- `select_backend(kind)`, without architectural effect (R146, R167) -/
  | selectBackend
  deriving DecidableEq, Repr

/-- What the core hands to the host (R146). -/
inductive HostOut where
  /-- `draw(framebuffer_view)` (R153) -/
  | draw (fb : FrameBuffer)
  /-- `beep(on)` (R152) -/
  | beep (on : Bool)
  /-- the report of a load that failed (R162), with the image's length -/
  | romTooLarge (len : Nat)
  deriving DecidableEq, Repr

/-- Where the current `run_frame` stands (R150): none under way, k instructions done, or its quantum over
and its end (tick, draw) still to come. -/
inductive FramePhase where
  | idle
  | running (k : Nat)
  | ending
  deriving DecidableEq, Repr

/-- The machine. The fields up to `fault` are the architectural state of R15; `fbChanged` is the output
of R153; `font` is the parameter FONT_DATA (R8, R51); the last five are the model's own (log entries 7, 8, 10, 11
and 12). -/
structure State where
  /-- V0..VF (R16) -/
  v : Vector Byte 16
  /-- the index register I, 16 bits stored (R19) -/
  i : Word
  /-- the program counter, 16 bits holding a 12-bit value (R20) -/
  pc : Word
  /-- SP, the number of live stack entries, 0..16 (R22) -/
  sp : Byte
  /-- the call stack (R23) -/
  stack : Vector Word 16
  /-- delay_timer (R24) -/
  dt : Byte
  /-- sound_timer (R25) -/
  st : Byte
  /-- RAM (R48) -/
  mem : Memory
  /-- the framebuffer (R26) -/
  fb : FrameBuffer
  /-- the key matrix, true = pressed (R28) -/
  keys : Vector Bool 16
  /-- an Fx0A is waiting for a release (R31) -/
  waitingForKey : Bool
  /-- the matrix at the waiting Fx0A's previous evaluation (R32) -/
  keyPrev : Vector Bool 16
  /-- a fatal error has stopped the core (R33) -/
  halted : Bool
  /-- the fault record, if any (R33) -/
  fault : Option FaultRecord
  /-- a 00E0 or Dxyn has run since the last `draw` (R34, R153) -/
  fbChanged : Bool
  /-- FONT_DATA, fixed for the machine: no step writes it, and every reset puts it at FONT_BASE (R51; log entry 5) -/
  font : Font
  /-- how many `rand8()` draws have been taken -/
  rngDraws : Nat
  /-- how many DEADLINE draws have been taken -/
  deadlineDraws : Nat
  /-- the frame under way -/
  frame : FramePhase
  /-- the host's moves still to come, the next one first -/
  agenda : List HostOp
  /-- what the host has been handed, the latest first -/
  outputs : List HostOut
  deriving DecidableEq, Repr

/-- Reasons a step stops with a fault. The spec's own fatal errors are not here: R131 describes their
entry, so they are next states with `halted` set. -/
inductive Fault where
  /-- Raised by CALL with SP above 16 and by RET with SP above 16: the stack entry they name does not exist (R23).
  No reachable state has such an SP (R22, R38). Safe. -/
  | stackEntryAbsent
  deriving DecidableEq, Repr

/-- Reasons a step is refused. -/
inductive Refusal where
  /-- Raised by an arm of `exec` that has no meaning yet. Safe. -/
  | notModelled (mnemonic : String)
  /-- Raised by `key_event(idx, _)` with idx outside 0..15, which is no valid call and which the model refuses
  (R147, decision D34). Safe. -/
  | keyIndexInvalid
  deriving DecidableEq, Repr

/-- The state right after reset with an empty ROM and the default font (R37, R161; log entries 1 to 6): memory lists
nothing, so it reads as the font and zeros. -/
def State.reset : State where
  v := Vector.replicate 16 0
  i := 0
  pc := 0x200
  sp := 0
  stack := Vector.replicate 16 0
  dt := 0
  st := 0
  mem := []
  fb := Vector.replicate 32 0
  keys := Vector.replicate 16 false
  waitingForKey := false
  keyPrev := Vector.replicate 16 false
  halted := false
  fault := none
  fbChanged := false
  font := Config.defaultFont
  rngDraws := 0
  deadlineDraws := 0
  frame := .idle
  agenda := []
  outputs := []

end Sys2Proof.Machine
end

