-- ==== Sys2Proof/Machine/Ops.lean ====
section
/-! DEFINITION. The named operations over memory, registers, the program counter, the call stack, the
timers and the outputs; taking a fatal error; the tick, the end of a frame and the reset. Every meaning is
written over these. There is no return from an error to model: R140 says no instruction can run after one. -/

namespace Sys2Proof.Machine

/-! ### Memory (R46 to R51) -/

/-- `mask12(v)`: every computed address is reduced to 12 bits (R12, R50). -/
def mask12 (a : Word) : Word := a &&& 0xFFF

/-- What an unlisted address reads as: the machine's font at FONT_BASE, zero elsewhere (R37, R51, R161; log entries 3 and 5). -/
def Memory.resetByte (font : Font) (a : Nat) : Byte :=
  if h : Config.fontBase ≤ a ∧ a - Config.fontBase < 80 then font[a - Config.fontBase] else 0

/-- The entry listed for an address, if there is one. -/
def Memory.lookup : Memory → Nat → Option Byte
  | [], _ => none
  | (k, c) :: m, a => if k = a then some c else Memory.lookup m a

/-- The byte at an address below 4096. -/
def Memory.read (font : Font) (m : Memory) (a : Nat) : Byte := (m.lookup a).getD (Memory.resetByte font a)

/-- Put an entry in front, unless it says what an unlisted address reads as anyway. -/
def Memory.consUnlessReset (font : Font) (a : Nat) (b : Byte) (m : Memory) : Memory :=
  if b = Memory.resetByte font a then m else (a, b) :: m

/-- Write a byte, keeping the canonical form. -/
def Memory.write (font : Font) : Memory → Nat → Byte → Memory
  | [], a, b => Memory.consUnlessReset font a b []
  | (k, c) :: m, a, b =>
    if a < k then Memory.consUnlessReset font a b ((k, c) :: m)
    else if a = k then Memory.consUnlessReset font a b m
    else (k, c) :: Memory.write font m a b

/-- The memory that holds a list of bytes from an address on, and the reset contents elsewhere. -/
def Memory.ofImage (font : Font) : Nat → List Byte → Memory
  | _, [] => []
  | a, b :: bs => Memory.consUnlessReset font a b (Memory.ofImage font (a + 1) bs)

/-- The canonical form, from a least address on. -/
def Memory.wfFrom (font : Font) : Nat → Memory → Bool
  | _, [] => true
  | lo, (k, c) :: m =>
    decide (lo ≤ k) && decide (k < Config.ramSize) && decide (c ≠ Memory.resetByte font k) &&
      Memory.wfFrom font (k + 1) m

/-- The canonical form: addresses strictly rising, all below 4096, no entry equal to what an unlisted address reads as. -/
def Memory.wf (font : Font) (m : Memory) : Bool := Memory.wfFrom font 0 m

/-- The machine's RAM is in the canonical form for the machine's font. -/
abbrev State.memWf (s : State) : Bool := s.mem.wf s.font

/-- `MemRead(addr, 1)` (R46). -/
def State.readByte (s : State) (a : Word) : Byte := s.mem.read s.font (mask12 a).toNat

/-- `MemWrite(addr, 1, v)` (R47). -/
def State.writeByte (s : State) (a : Word) (b : Byte) : State :=
  { s with mem := s.mem.write s.font (mask12 a).toNat b }

/-- The instruction word at an address, big-endian (R55). -/
def State.wordAt (s : State) (a : Word) : Word := wordOfBytes (s.readByte a) (s.readByte (a + 1))

/-- The word the instruction cycle fetches (R60). -/
def State.fetchWord (s : State) : Word := s.wordAt s.pc

/-- Store a word where `wordAt` reads it: its high byte first (R55). -/
def State.storeWordAt (s : State) (a w : Word) : State :=
  (s.writeByte a (hiByte w)).writeByte (a + 1) (loByte w)

/-! ### Registers (R16 to R22) -/

/-- VF, the flags register (R17). -/
def regVF : Reg := 15

/-- `V[x]` (R12, R16). -/
def State.getV (s : State) (x : Reg) : Byte := s.v[x]

/-- `V[x] <- b` (R12, R16). -/
def State.setV (s : State) (x : Reg) (b : Byte) : State := { s with v := s.v.set x b }

/-- `I <- a`, kept modulo 2^16 (R12, R19). -/
def State.setI (s : State) (a : Word) : State := { s with i := a }

/-- `pc <- t`, stored masked (R12, R20). -/
def State.setPc (s : State) (t : Word) : State := { s with pc := mask12 t }

/-- `next`, the address of the following instruction, in a state whose pc is the instruction's own address (R12, R21). -/
def State.nextPc (s : State) : Word := mask12 (s.pc + 2)

/-- The advance of the instruction cycle, from a state whose pc is the instruction's own address (R21, R60). -/
def State.advance (s : State) : State := s.setPc (s.pc + 2)

/-- The advance with the next word skipped when a condition holds (R95). -/
def State.skipIf (s : State) (c : Bool) : State := if c then s.setPc (s.pc + 4) else s.advance

/-! ### The call stack (R22, R23) -/

/-- `stack[SP] <- t; SP <- SP + 1`; nothing where there is no entry SP (R23, R88). -/
def State.push (s : State) (t : Word) : Option State :=
  if h : s.sp.toNat < 16 then some { s with stack := s.stack.set s.sp.toNat t, sp := s.sp + 1 } else none

/-- `SP <- SP - 1`, with the entry then at SP, which is kept (R23, R86); nothing where there is no such entry. -/
def State.pop (s : State) : Option (Word × State) :=
  if h : s.sp.toNat - 1 < 16 then some (s.stack[s.sp.toNat - 1], { s with sp := s.sp - 1 }) else none

/-! ### Fatal errors (R131 to R140) -/

/-- The code of a fault kind (R132, decision D29). -/
def FaultKind.code : FaultKind → Nat
  | .invalidOpcode => 1
  | .stackOverflow => 2
  | .stackUnderflow => 3
  | .undefinedKeyIndex => 4
  | .addressOutOfRange => 5

/-- `raise E(opcode, pc = a)` from a state whose pc is the instruction's own address: pc becomes next, the core
halts, the record is kept, and nothing else changes (R131, R139). -/
def State.raise (s : State) (kind : FaultKind) (opcode : Word) : State :=
  { s.advance with halted := true, fault := some ⟨kind, opcode, s.pc⟩ }

/-! ### Whose move it is -/

/-- The frame under way, or none (R150). -/
def State.setFrame (s : State) (f : FramePhase) : State := { s with frame := f }

/-- The host's moves still to come (R146). -/
def State.setAgenda (s : State) (ops : List HostOp) : State := { s with agenda := ops }

/-- One DEADLINE draw taken (R150). -/
def State.countDeadline (s : State) : State := { s with deadlineDraws := s.deadlineDraws + 1 }

/-- The key matrix as the host writes it (R147, R154). -/
def State.setKeys (s : State) (keys : Vector Bool 16) : State := { s with keys := keys }

/-! ### Outputs, timers, keys -/

/-- The level of the sound output: ST ≠ 0 (R25, R152). -/
def State.soundOn (s : State) : Bool := s.st != 0

/-- Hand one thing to the host (R146). -/
def State.emit (s : State) (o : HostOut) : State := { s with outputs := o :: s.outputs }

/-- `ST <- b`, with `beep` when the level of the sound output changes (R25, R152). -/
def State.setSt (s : State) (b : Byte) : State :=
  if s.soundOn = (b != 0) then { s with st := b } else { s.emit (.beep (b != 0)) with st := b }

/-- A timer one tick later: down by one, never below zero (R141). -/
def tickTimer (t : Byte) : Byte := if t = 0 then 0 else t - 1

/-- `tick()` (R141). -/
def State.tick (s : State) : State := { s with dt := tickTimer s.dt }.setSt (tickTimer s.st)

/-- The last two lines of `run_frame` for the display: hand over a changed framebuffer (R150, R153). -/
def State.drawIfChanged (s : State) : State :=
  if s.fbChanged then { s.emit (.draw s.fb) with fbChanged := false } else s

/-- The end of `run_frame`: the tick unless the core has halted, then the display (R142, R150). -/
def State.endFrame (s : State) : State := (if s.halted then s else s.tick).drawIfChanged.setFrame .idle

/-- The keys that were pressed at the last evaluation and are not now, lowest first: `rel` of R125. -/
def State.lowestReleased (s : State) : Option Reg :=
  (List.finRange 16).find? (fun k => s.keyPrev[k] && !s.keys[k])

/-! ### Reset (R160 to R162) -/

/-- The reset of `load_rom` with an image that fits: every piece of state of R37 at its reset value, the machine's font at
FONT_BASE and the image at 0x200. The host's further moves, its outputs and the count of draws are no part of the machine and stay; a sound
that was on is reported off (log entries 11, 12). -/
def State.loadImage (s : State) (bytes : List Byte) : State :=
  { State.reset with
    mem := Memory.ofImage s.font Config.romBase bytes
    font := s.font
    rngDraws := s.rngDraws
    deadlineDraws := s.deadlineDraws
    agenda := s.agenda
    outputs := if s.soundOn then .beep false :: s.outputs else s.outputs }

end Sys2Proof.Machine
end

