-- ==== Sys2Proof/Machine/Operands.lean ====
section
/-! DEFINITION. The operand forms of R63 and R117: immediates, the address of byte k of an access through I,
the registers V0..Vx of Fx55 and Fx65, and the digits of Fx33. -/

namespace Sys2Proof.Machine

/-- `zext_16(nnn)` (R63). -/
def immAddr (nnn : Addr) : Word := nnn.setWidth 16

/-- `zext_16(V[x])`, as Fx1E and Bnnn add it (R89, R119). -/
def State.wideV (s : State) (x : Reg) : Word := (s.getV x).setWidth 16

/-- The address of byte k of an access through I, before the mask that every access applies (R50, R117). -/
def State.indexed (s : State) (k : Nat) : Word := s.i + BitVec.ofNat 16 k

/-- I after Fx55 and Fx65: I + x + 1 modulo 2^16 (R122, R123). -/
def State.indexAfter (s : State) (x : Reg) : Word := s.i + BitVec.ofNat 16 (x.val + 1)

/-- The address of a glyph: 0x050 + 5 · (Vx & 0x0F) (R120). -/
def State.glyphAddr (s : State) (x : Reg) : Word :=
  BitVec.ofNat 16 (Config.fontBase + 5 * (s.getV x &&& 0x0F).toNat)

/-- RAM after `V[0]`, .., `V[k-1]` have been stored at I, I + 1, .. in that order (R122). -/
def State.storeRegs (s : State) : Nat → State
  | 0 => s
  | k + 1 => (s.storeRegs k).writeByte (s.indexed k) (s.getV (Fin.ofNat 16 k))

/-- The registers after `V[0]`, .., `V[k-1]` have been loaded from I, I + 1, .. in that order (R123). -/
def State.loadRegs (s : State) : Nat → State
  | 0 => s
  | k + 1 => (s.loadRegs k).setV (Fin.ofNat 16 k) (s.readByte (s.indexed k))

/-- The hundreds digit of a byte (R121). -/
def hundredsDigit (b : Byte) : Byte := BitVec.ofNat 8 (b.toNat / 100)

/-- The tens digit of a byte (R121). -/
def tensDigit (b : Byte) : Byte := BitVec.ofNat 8 (b.toNat / 10 % 10)

/-- The ones digit of a byte (R121). -/
def onesDigit (b : Byte) : Byte := BitVec.ofNat 8 (b.toNat % 10)

end Sys2Proof.Machine
end

