-- ==== Sys2Proof/Machine/Flags.lean ====
section
/-! DEFINITION. Every value an instruction writes into VF as a flag (R18), and the one order in which a result
and a flag are written: the result first, VF last (R17, R103). -/

namespace Sys2Proof.Machine

/-- A flag as the byte VF holds. -/
def flagByte (c : Bool) : Byte := if c then 1 else 0

/-- The carry of 8xy4: 1 if the exact sum is above 255 (R110). -/
def carryFlag (a b : Byte) : Byte := flagByte (decide (a.toNat + b.toNat > 255))

/-- NOT borrow of a − b: 1 if a ≥ b, for 8xy5 and, with the operands exchanged, 8xy7 (R111, R113). -/
def notBorrowFlag (a b : Byte) : Byte := flagByte (decide (a.toNat ≥ b.toNat))

/-- The bit a right shift drops: bit 0 (R112). -/
def shiftedOutRight (b : Byte) : Byte := flagByte (b.getLsbD 0)

/-- The bit a left shift drops: bit 7 (R114). -/
def shiftedOutLeft (b : Byte) : Byte := flagByte (b.getLsbD 7)

/-- Write the result to Vx and then the flag to VF, so that for x = F the flag is what VF holds (R17, R103). -/
def State.setResultAndFlag (s : State) (x : Reg) (result flag : Byte) : State :=
  (s.setV x result).setV regVF flag

end Sys2Proof.Machine
end

