-- ==== Sys2Proof/Machine/Alu.lean ====
section
/-! DEFINITION. Register and arithmetic instructions: 6xkk, 7xkk, 8xy0 to 8xyE, Cxkk (R103 to R116). Both
operands are read from the state before the result or the flag is written (R103). -/

namespace Sys2Proof.Machine

/-- 6xkk, LD Vx, kk (R104). -/
def execLdKk (x : Reg) (kk : Byte) (s : State) : Host.Outcome State Fault Refusal :=
  .next (s.setV x kk).advance

/-- 7xkk, ADD Vx, kk (R105): no flag. -/
def execAddKk (x : Reg) (kk : Byte) (s : State) : Host.Outcome State Fault Refusal :=
  .next (s.setV x (s.getV x + kk)).advance

/-- 8xy0, LD Vx, Vy (R106): no flag. -/
def execLdVy (x y : Reg) (s : State) : Host.Outcome State Fault Refusal :=
  .next (s.setV x (s.getV y)).advance

/-- 8xy1, OR Vx, Vy (R107). -/
def execOrVy (x y : Reg) (s : State) : Host.Outcome State Fault Refusal :=
  .next (s.setResultAndFlag x (s.getV x ||| s.getV y) 0).advance

/-- 8xy2, AND Vx, Vy (R108). -/
def execAndVy (x y : Reg) (s : State) : Host.Outcome State Fault Refusal :=
  .next (s.setResultAndFlag x (s.getV x &&& s.getV y) 0).advance

/-- 8xy3, XOR Vx, Vy (R109). -/
def execXorVy (x y : Reg) (s : State) : Host.Outcome State Fault Refusal :=
  .next (s.setResultAndFlag x (s.getV x ^^^ s.getV y) 0).advance

/-- 8xy4, ADD Vx, Vy (R110). -/
def execAddVy (x y : Reg) (s : State) : Host.Outcome State Fault Refusal :=
  .next (s.setResultAndFlag x (s.getV x + s.getV y) (carryFlag (s.getV x) (s.getV y))).advance

/-- 8xy5, SUB Vx, Vy (R111). -/
def execSubVy (x y : Reg) (s : State) : Host.Outcome State Fault Refusal :=
  .next (s.setResultAndFlag x (s.getV x - s.getV y) (notBorrowFlag (s.getV x) (s.getV y))).advance

/-- 8xy6, SHR Vx, Vy (R112): Vy is shifted. -/
def execShrVy (x y : Reg) (s : State) : Host.Outcome State Fault Refusal :=
  .next (s.setResultAndFlag x (s.getV y >>> 1) (shiftedOutRight (s.getV y))).advance

/-- 8xy7, SUBN Vx, Vy (R113). -/
def execSubnVy (x y : Reg) (s : State) : Host.Outcome State Fault Refusal :=
  .next (s.setResultAndFlag x (s.getV y - s.getV x) (notBorrowFlag (s.getV y) (s.getV x))).advance

/-- 8xyE, SHL Vx, Vy (R114): Vy is shifted. -/
def execShlVy (x y : Reg) (s : State) : Host.Outcome State Fault Refusal :=
  .next (s.setResultAndFlag x (s.getV y <<< 1) (shiftedOutLeft (s.getV y))).advance

/-- Cxkk, RND Vx, kk (R115): one fresh draw, whatever kk is (log entry 7). -/
def execRnd (x : Reg) (kk : Byte) (s : State) : Host.Outcome State Fault Refusal :=
  .next ({ s with rngDraws := s.rngDraws + 1 }.setV x (Config.randByte s.rngDraws &&& kk)).advance

end Sys2Proof.Machine
end

