-- ==== Sys2Proof/Machine/Display.lean ====
section
/-! DEFINITION. The display instructions 00E0 and Dxyn (R80 to R84). -/

namespace Sys2Proof.Machine

/-- Pixel fb[c, r] (R27); a pixel off the screen is clear. -/
def FrameBuffer.pixel (fb : FrameBuffer) (c r : Nat) : Bool :=
  if h : r < 32 then fb[r].getLsbD c else false

/-- `fb[c, r] <- fb[c, r] XOR 1` (R82). -/
def FrameBuffer.flip (fb : FrameBuffer) (c r : Nat) : FrameBuffer :=
  if h : r < 32 then fb.set r (fb[r] ^^^ BitVec.twoPow 64 c) else fb

/-- Column c of a sprite row, bit 7 leftmost (R83). -/
def spriteBit (b : Byte) (c : Nat) : Bool := b.getLsbD (7 - c)

/-- One pixel of a sprite row at (col, row): clipped at the right edge, flipped where the sprite has a 1, and a
collision noted where a set pixel is erased (R82). -/
def drawPixel (cx row : Nat) (b : Byte) (acc : FrameBuffer × Bool) (c : Nat) : FrameBuffer × Bool :=
  if cx + c ≥ 64 then acc
  else if spriteBit b c then (acc.1.flip (cx + c) row, acc.2 || acc.1.pixel (cx + c) row)
  else acc

/-- One row of a sprite, columns 0 to 7 (R82). -/
def drawRow (cx row : Nat) (b : Byte) (acc : FrameBuffer × Bool) : FrameBuffer × Bool :=
  (List.range 8).foldl (drawPixel cx row b) acc

/-- The framebuffer and the collision after n rows of the sprite at I with its corner at (cx, cy), rows below the
screen clipped (R82). -/
def State.drawSprite (s : State) (cx cy n : Nat) : FrameBuffer × Bool :=
  (List.range n).foldl
    (fun acc r => if cy + r ≥ 32 then acc else drawRow cx (cy + r) (s.readByte (s.indexed r)) acc)
    (s.fb, false)

/-- 00E0, CLS (R81). -/
def execCls (s : State) : Host.Outcome State Fault Refusal :=
  .next { s with fb := Vector.replicate 32 0, fbChanged := true }.advance

/-- Dxyn, DRW Vx, Vy, n (R82): the coordinates are read before VF is written (decision D8). -/
def execDrw (x y : Reg) (n : Nat) (s : State) : Host.Outcome State Fault Refusal :=
  let drawn := s.drawSprite ((s.getV x).toNat % 64) ((s.getV y).toNat % 32) n
  .next ({ s with fb := drawn.1, fbChanged := true }.setV regVF (flagByte drawn.2)).advance

end Sys2Proof.Machine
end

