-- ==== Sys2Proof/Machine/Flow.lean ====
section
/-! DEFINITION. Jumps, calls and returns: 00EE, 1nnn, 2nnn, Bnnn (R85 to R91). Each meaning starts from a state
whose pc is the instruction's own address. -/

namespace Sys2Proof.Machine

/-- 00EE, RET (R86, R90, R135). -/
def execRet (s : State) : Host.Outcome State Fault Refusal :=
  if s.sp = 0 then .next (s.raise .stackUnderflow (encode .ret))
  else match s.pop with
    | some (t, s') => .next (s'.setPc t)
    | none => .fault .stackEntryAbsent

/-- 1nnn, JP nnn (R87). -/
def execJp (nnn : Addr) (s : State) : Host.Outcome State Fault Refusal :=
  .next (s.setPc (immAddr nnn))

/-- 2nnn, CALL nnn (R88, R90, R134): next is pushed. -/
def execCall (nnn : Addr) (s : State) : Host.Outcome State Fault Refusal :=
  if s.sp = 16 then .next (s.raise .stackOverflow (encode (.call nnn)))
  else match s.push s.nextPc with
    | some s' => .next (s'.setPc (immAddr nnn))
    | none => .fault .stackEntryAbsent

/-- Bnnn, JP V0, nnn (R89). -/
def execJpV0 (nnn : Addr) (s : State) : Host.Outcome State Fault Refusal :=
  .next (s.setPc (immAddr nnn + s.wideV 0))

end Sys2Proof.Machine
end

