-- ==== Sys2Proof/Machine/IndexMemory.lean ====
section
/-! DEFINITION. Index register and memory instructions: Annn, Fx1E, Fx29, Fx33, Fx55, Fx65 (R117 to R123). -/

namespace Sys2Proof.Machine

/-- Annn, LD I, nnn (R118). -/
def execLdI (nnn : Addr) (s : State) : Host.Outcome State Fault Refusal :=
  .next (s.setI (immAddr nnn)).advance

/-- Fx1E, ADD I, Vx (R119): VF unchanged. -/
def execAddIVx (x : Reg) (s : State) : Host.Outcome State Fault Refusal :=
  .next (s.setI (s.i + s.wideV x)).advance

/-- Fx29, LD F, Vx (R120). -/
def execLdFVx (x : Reg) (s : State) : Host.Outcome State Fault Refusal :=
  .next (s.setI (s.glyphAddr x)).advance

/-- Fx33, LD B, Vx (R121): hundreds first; I unchanged. -/
def execLdBVx (x : Reg) (s : State) : Host.Outcome State Fault Refusal :=
  .next (((s.writeByte (s.indexed 0) (hundredsDigit (s.getV x))).writeByte
    (s.indexed 1) (tensDigit (s.getV x))).writeByte (s.indexed 2) (onesDigit (s.getV x))).advance

/-- Fx55, LD [I], Vx (R122). -/
def execLdMemVx (x : Reg) (s : State) : Host.Outcome State Fault Refusal :=
  .next ((s.storeRegs (x.val + 1)).setI (s.indexAfter x)).advance

/-- Fx65, LD Vx, [I] (R123). -/
def execLdVxMem (x : Reg) (s : State) : Host.Outcome State Fault Refusal :=
  .next ((s.loadRegs (x.val + 1)).setI (s.indexAfter x)).advance

end Sys2Proof.Machine
end

