-- ==== Sys2Proof/Machine/Skip.lean ====
section
/-! DEFINITION. The conditional skips: 3xkk, 4xkk, 5xy0, 9xy0, Ex9E, ExA1 (R95 to R102). -/

namespace Sys2Proof.Machine

/-- 3xkk, SE Vx, kk (R96). -/
def execSeKk (x : Reg) (kk : Byte) (s : State) : Host.Outcome State Fault Refusal :=
  .next (s.skipIf (s.getV x == kk))

/-- 4xkk, SNE Vx, kk (R97). -/
def execSneKk (x : Reg) (kk : Byte) (s : State) : Host.Outcome State Fault Refusal :=
  .next (s.skipIf (s.getV x != kk))

/-- 5xy0, SE Vx, Vy (R98). -/
def execSeVy (x y : Reg) (s : State) : Host.Outcome State Fault Refusal :=
  .next (s.skipIf (s.getV x == s.getV y))

/-- 9xy0, SNE Vx, Vy (R99). -/
def execSneVy (x y : Reg) (s : State) : Host.Outcome State Fault Refusal :=
  .next (s.skipIf (s.getV x != s.getV y))

/-- A skip on a key: UndefinedKeyIndex when Vx names no key, else the skip when the key's state is the one asked for
(R100 to R102, R136). -/
def State.skipOnKey (s : State) (opcode : Word) (x : Reg) (pressed : Bool) : State :=
  if h : (s.getV x).toNat < 16 then s.skipIf (s.keys[(s.getV x).toNat] == pressed)
  else s.raise .undefinedKeyIndex opcode

/-- Ex9E, SKP Vx (R100). -/
def execSkp (x : Reg) (s : State) : Host.Outcome State Fault Refusal :=
  .next (s.skipOnKey (encode (.skp x)) x true)

/-- ExA1, SKNP Vx (R101). -/
def execSknp (x : Reg) (s : State) : Host.Outcome State Fault Refusal :=
  .next (s.skipOnKey (encode (.sknp x)) x false)

end Sys2Proof.Machine
end

