-- ==== Sys2Proof/Machine/TimerKey.lean ====
section
/-! DEFINITION. Timer and key-wait instructions: Fx07, Fx0A, Fx15, Fx18 (R124 to R129). -/

namespace Sys2Proof.Machine

/-- Fx07, LD Vx, DT (R124). -/
def execLdVxDt (x : Reg) (s : State) : Host.Outcome State Fault Refusal :=
  .next (s.setV x s.dt).advance

/-- A waiting Fx0A: the matrix is kept for the next evaluation and pc stays at the instruction (R125). -/
def State.awaitKey (s : State) : State :=
  { s with waitingForKey := true, keyPrev := s.keys }.setPc s.pc

/-- Fx0A, LD Vx, K (R125): the first evaluation only starts the wait; a later one ends it when some key was
released since the one before, the lowest such key going to Vx. -/
def execLdVxK (x : Reg) (s : State) : Host.Outcome State Fault Refusal :=
  if s.waitingForKey then
    match s.lowestReleased with
    | some k => .next ({ s with waitingForKey := false }.setV x (BitVec.ofNat 8 k.val)).advance
    | none => .next s.awaitKey
  else .next s.awaitKey

/-- Fx15, LD DT, Vx (R126). -/
def execLdDtVx (x : Reg) (s : State) : Host.Outcome State Fault Refusal :=
  .next { s with dt := s.getV x }.advance

/-- Fx18, LD ST, Vx (R127), with the sound output of R152. -/
def execLdStVx (x : Reg) (s : State) : Host.Outcome State Fault Refusal :=
  .next (s.setSt (s.getV x)).advance

end Sys2Proof.Machine
end

