-- ==== Sys2Proof/Machine/Dispatch.lean ====
section
/-! DEFINITION. What each instruction does, one arm per constructor. `exec i s` runs i from a state whose pc is
the address of i (the a of R12); the meaning itself leaves pc at next, or where the instruction sends it (R21). -/

namespace Sys2Proof.Machine

def exec (i : Instr) (s : State) : Host.Outcome State Fault Refusal :=
  match i with
  | .cls => Sys2Proof.Machine.execCls s
  | .ret => Sys2Proof.Machine.execRet s
  | .jp nnn => Sys2Proof.Machine.execJp nnn s
  | .call nnn => Sys2Proof.Machine.execCall nnn s
  | .seKk x kk => Sys2Proof.Machine.execSeKk x kk s
  | .sneKk x kk => Sys2Proof.Machine.execSneKk x kk s
  | .seVy x y => Sys2Proof.Machine.execSeVy x y s
  | .ldKk x kk => Sys2Proof.Machine.execLdKk x kk s
  | .addKk x kk => Sys2Proof.Machine.execAddKk x kk s
  | .ldVy x y => Sys2Proof.Machine.execLdVy x y s
  | .orVy x y => Sys2Proof.Machine.execOrVy x y s
  | .andVy x y => Sys2Proof.Machine.execAndVy x y s
  | .xorVy x y => Sys2Proof.Machine.execXorVy x y s
  | .addVy x y => Sys2Proof.Machine.execAddVy x y s
  | .subVy x y => Sys2Proof.Machine.execSubVy x y s
  | .shrVy x y => Sys2Proof.Machine.execShrVy x y s
  | .subnVy x y => Sys2Proof.Machine.execSubnVy x y s
  | .shlVy x y => Sys2Proof.Machine.execShlVy x y s
  | .sneVy x y => Sys2Proof.Machine.execSneVy x y s
  | .ldI nnn => Sys2Proof.Machine.execLdI nnn s
  | .jpV0 nnn => Sys2Proof.Machine.execJpV0 nnn s
  | .rnd x kk => Sys2Proof.Machine.execRnd x kk s
  | .drw x y n => Sys2Proof.Machine.execDrw x y n s
  | .skp x => Sys2Proof.Machine.execSkp x s
  | .sknp x => Sys2Proof.Machine.execSknp x s
  | .ldVxDt x => Sys2Proof.Machine.execLdVxDt x s
  | .ldVxK x => Sys2Proof.Machine.execLdVxK x s
  | .ldDtVx x => Sys2Proof.Machine.execLdDtVx x s
  | .ldStVx x => Sys2Proof.Machine.execLdStVx x s
  | .addIVx x => Sys2Proof.Machine.execAddIVx x s
  | .ldFVx x => Sys2Proof.Machine.execLdFVx x s
  | .ldBVx x => Sys2Proof.Machine.execLdBVx x s
  | .ldMemVx x => Sys2Proof.Machine.execLdMemVx x s
  | .ldVxMem x => Sys2Proof.Machine.execLdVxMem x s

end Sys2Proof.Machine
end

