-- ==== Sys2Proof/Machine/Cycle.lean ====
section
/-! DEFINITION. The three agents of R7: the core's instruction cycle (R60), the frame with its tick (R141, R150),
and the host's moves (R146); and which of them moves next. -/

namespace Sys2Proof.Machine

/-- One step of the core: fetch, decode, execute; an invalid word is a fatal error; a halted core does nothing (R60,
R66, R131, R149). -/
def cpuStep (s : State) : Host.Outcome State Fault Refusal :=
  if s.halted then .next s
  else match decode s.fetchWord with
    | .ok i => exec i s
    | .error _ => .next (s.raise .invalidOpcode s.fetchWord)

/-- `signal key_wait`: the instruction that took s to t was an Fx0A that is still waiting (R125, R128). -/
def keyWaitSignalled (s t : State) : Bool :=
  match decode s.fetchWord with
  | .ok (.ldVxK _) => t.waitingForKey
  | _ => false

/-- The frame after an instruction that took s to t, k instructions having run before it (R150). -/
def frameAfter (k : Nat) (s t : State) : FramePhase :=
  if t.halted || keyWaitSignalled s t then .ending else .running (k + 1)

/-- One round of the loop of `run_frame` after k instructions: the frame ends when its quantum is over or the host's
deadline draw says so, and otherwise runs one instruction (R150). -/
def frameMove (k : Nat) (s : State) : Host.Outcome State Fault Refusal :=
  if k < Config.cyclesPerFrame then
    if Config.deadline s.deadlineDraws then .next s.countDeadline.endFrame
    else match cpuStep s.countDeadline with
      | .next t => .next (t.setFrame (frameAfter k s.countDeadline t))
      | .fault r => .fault r
      | .refused r => .refused r
  else .next s.endFrame

/-- A move of the host, already taken off the agenda (R146 to R154, R161, R162). -/
def hostMove (op : HostOp) (s : State) : Host.Outcome State Fault Refusal :=
  match op with
  | .loadRom bytes =>
    if bytes.length ≤ Config.romMax then .next (s.loadImage bytes)
    else .next (s.emit (.romTooLarge bytes.length))
  | .keyEvent idx pressed =>
    if h : idx < 16 then .next (s.setKeys (s.keys.set idx pressed)) else .refused .keyIndexInvalid
  | .pollKeys keys => .next (s.setKeys keys)
  | .runFrame => if s.halted then .next s else .next (s.setFrame (.running 0))
  | .singleStep => cpuStep s
  | .pause => .next s
  | .selectBackend => .next s

/-- The next move of the machine: a frame under way goes on; otherwise the host's next listed move; with none listed,
the host's `step()` (R149; log entry 10). -/
def nextMove (s : State) : Host.Outcome State Fault Refusal :=
  match s.frame with
  | .running k => frameMove k s
  | .ending => .next s.endFrame
  | .idle =>
    match s.agenda with
    | op :: rest => hostMove op (s.setAgenda rest)
    | [] => cpuStep s

end Sys2Proof.Machine
end

