-- ==== Sys2Proof/Machine/Step.lean ====
section
/-! DEFINITION. One step of the machine, and the host's probe that places an instruction where it is fetched. -/

namespace Sys2Proof.Machine

/-- One step: one move of the agent whose turn it is (R7; `nextMove` in Machine/Cycle.lean). -/
def step (s : State) : Host.Outcome State Fault Refusal := nextMove s

/-- The state with the low `nbits` bits of `w`, as a word, stored at the program counter. -/
def State.withFetchWord (s : State) (nbits w : Nat) : State :=
  s.storeWordAt s.pc (BitVec.ofNat 16 (w % 2 ^ nbits))

end Sys2Proof.Machine
end

