-- ==== Sys2Proof/Safety.lean ====
section
/-! DEFINITION. The terms claims are stated in: what is left unchanged, what a fatal error leaves, which part of
the state an instruction may write, the invariant of every reachable state (R38), the frame of R150 as one
loop, and the pixels of a sprite. -/

namespace Sys2Proof.Machine

/-! ### Frames: what is left unchanged -/

/-- The parts of State, one for each field. -/
inductive Part where
  | v | i | pc | sp | stack | dt | st | mem | fb | keys | waitingForKey | keyPrev | halted | fault | fbChanged
  | font | rngDraws | deadlineDraws | frame | agenda | outputs
  deriving DecidableEq, Repr

/-- The part is the same in both states; memory is compared byte by byte through `readByte`. -/
def Part.same (p : Part) (s t : State) : Prop :=
  match p with
  | .v => t.v = s.v
  | .i => t.i = s.i
  | .pc => t.pc = s.pc
  | .sp => t.sp = s.sp
  | .stack => t.stack = s.stack
  | .dt => t.dt = s.dt
  | .st => t.st = s.st
  | .mem => ∀ a : Word, t.readByte a = s.readByte a
  | .fb => t.fb = s.fb
  | .keys => t.keys = s.keys
  | .waitingForKey => t.waitingForKey = s.waitingForKey
  | .keyPrev => t.keyPrev = s.keyPrev
  | .halted => t.halted = s.halted
  | .fault => t.fault = s.fault
  | .fbChanged => t.fbChanged = s.fbChanged
  | .font => t.font = s.font
  | .rngDraws => t.rngDraws = s.rngDraws
  | .deadlineDraws => t.deadlineDraws = s.deadlineDraws
  | .frame => t.frame = s.frame
  | .agenda => t.agenda = s.agenda
  | .outputs => t.outputs = s.outputs

/-- Every part but those listed is the same in both states. -/
def KeepsAllBut (ps : List Part) (s t : State) : Prop := ∀ p : Part, p ∉ ps → p.same s t

/-- Every V register but those listed is the same in both states. -/
def KeepsRegsBut (xs : List Reg) (s t : State) : Prop := ∀ j : Reg, j ∉ xs → t.v[j] = s.v[j]

/-- pc moved on by n bytes, modulo 4096 (R20, R21). -/
def AdvancesBy (n : Nat) (s t : State) : Prop := t.pc.toNat = (s.pc.toNat + n) % 4096

/-- What a fatal error leaves (R131): pc at next, the core halted with the record, and all else as it was. -/
def FaultedWith (kind : FaultKind) (opcode : Word) (s t : State) : Prop :=
  AdvancesBy 2 s t ∧ t.halted = true ∧ t.fault = some ⟨kind, opcode, s.pc⟩ ∧
    KeepsAllBut [.pc, .halted, .fault] s t

/-- What the end of a frame leaves: unless the core has halted each timer one lower, not below zero (R141, R142); a sound
that stops reported (R152), a changed framebuffer handed over after it (R153); no frame under way; and all else as it
was, but for the count of deadline draws (R150). -/
def FrameEnded (s t : State) : Prop :=
  t.dt.toNat = (if s.halted = true then s.dt.toNat else s.dt.toNat - 1) ∧
  t.st.toNat = (if s.halted = true then s.st.toNat else s.st.toNat - 1) ∧
  t.outputs = (if s.fbChanged = true then [.draw s.fb] else []) ++
    (if s.halted = false ∧ s.st.toNat = 1 then [.beep false] else []) ++ s.outputs ∧
  t.fbChanged = false ∧ t.frame = .idle ∧
  KeepsAllBut [.dt, .st, .outputs, .fbChanged, .frame, .deadlineDraws] s t

/-- Every word a row of R64 matches decodes to that row's instruction, with the fields of R61. -/
def RowIs (mask fixed : Word) (make : Word → Instr) : Prop :=
  ∀ w : Word, w &&& mask = fixed → decode w = .ok (make w)

/-- What may be written by each instruction, from the writers that R16 to R33 name for each part; a fatal error
writes halted and fault (R131). -/
def mayWrite : Instr → List Part
  | .cls => [.pc, .fb, .fbChanged]
  | .ret => [.pc, .sp, .halted, .fault]
  | .jp _ => [.pc]
  | .call _ => [.pc, .sp, .stack, .halted, .fault]
  | .seKk _ _ => [.pc]
  | .sneKk _ _ => [.pc]
  | .seVy _ _ => [.pc]
  | .ldKk _ _ => [.pc, .v]
  | .addKk _ _ => [.pc, .v]
  | .ldVy _ _ => [.pc, .v]
  | .orVy _ _ => [.pc, .v]
  | .andVy _ _ => [.pc, .v]
  | .xorVy _ _ => [.pc, .v]
  | .addVy _ _ => [.pc, .v]
  | .subVy _ _ => [.pc, .v]
  | .shrVy _ _ => [.pc, .v]
  | .subnVy _ _ => [.pc, .v]
  | .shlVy _ _ => [.pc, .v]
  | .sneVy _ _ => [.pc]
  | .ldI _ => [.pc, .i]
  | .jpV0 _ => [.pc]
  | .rnd _ _ => [.pc, .v, .rngDraws]
  | .drw _ _ _ => [.pc, .v, .fb, .fbChanged]
  | .skp _ => [.pc, .halted, .fault]
  | .sknp _ => [.pc, .halted, .fault]
  | .ldVxDt _ => [.pc, .v]
  | .ldVxK _ => [.pc, .v, .waitingForKey, .keyPrev]
  | .ldDtVx _ => [.pc, .dt]
  | .ldStVx _ => [.pc, .st, .outputs]
  | .addIVx _ => [.pc, .i]
  | .ldFVx _ => [.pc, .i]
  | .ldBVx _ => [.pc, .mem]
  | .ldMemVx _ => [.pc, .i, .mem]
  | .ldVxMem _ => [.pc, .v, .i]

/-! ### The invariant -/

/-- The level of the sound output the host was last told of; off when it was told nothing (R152). -/
def lastBeep : List HostOut → Bool
  | [] => false
  | .beep on :: _ => on
  | .draw _ :: rest => lastBeep rest
  | .romTooLarge _ :: rest => lastBeep rest

/-- What holds in every reachable state (R38, and R33, R137, R142, R150, R152). -/
structure StateInv (s : State) : Prop where
  /-- RAM is in its canonical form, every address below 4096 (R48). -/
  memory : s.memWf = true
  /-- pc < 4096 (R20, R38). -/
  pcBelow : s.pc.toNat < 4096
  /-- 0 ≤ SP ≤ 16 (R22, R38). -/
  spBound : s.sp.toNat ≤ 16
  /-- Every stack entry is below 4096 (R23, R38). -/
  stackBelow : ∀ j : Fin 16, s.stack[j].toNat < 4096
  /-- While waiting, the word at pc is an Fx0A (R31, R38). -/
  waitingAtFx0A : s.waitingForKey = true → ∃ x, decode s.fetchWord = .ok (.ldVxK x)
  /-- halted and the record are set together (R33). -/
  haltedWithRecord : s.halted = s.fault.isSome
  /-- A record names an address below 4096 and a kind that some rule raises (R131, R137). -/
  recordLegal : ∀ r, s.fault = some r → r.pc.toNat < 4096 ∧ r.kind ≠ .addressOutOfRange
  /-- A frame under way has run at most CYCLES_PER_FRAME instructions on a core that has not halted (R150). -/
  frameLegal : ∀ k, s.frame = .running k → k ≤ Config.cyclesPerFrame ∧ s.halted = false
  /-- The host was last told the sound level that holds (R152). -/
  soundTold : lastBeep s.outputs = s.soundOn

/-! ### The frame of R150 as one loop -/

/-- The loop of `run_frame` with n instructions of the quantum left, written as R150 writes it. -/
def frameLoop : Nat → State → Host.Outcome State Fault Refusal
  | 0, s => .next s
  | n + 1, s =>
    if Config.deadline s.deadlineDraws then .next s.countDeadline
    else match cpuStep s.countDeadline with
      | .next t => if t.halted || keyWaitSignalled s.countDeadline t then .next t else frameLoop n t
      | .fault r => .fault r
      | .refused r => .refused r

/-- `run_frame()` whole (R150): nothing on a halted core; else the loop, the tick unless halted, the display. -/
def runFrameWhole (s : State) : Host.Outcome State Fault Refusal :=
  if s.halted then .next s
  else match frameLoop Config.cyclesPerFrame s with
    | .next t => .next t.endFrame
    | .fault r => .fault r
    | .refused r => .refused r

/-! ### Comparing two runs -/

/-- An outcome with its next state, if there is one, changed. -/
def mapNext (f : State → State) : Host.Outcome State Fault Refusal → Host.Outcome State Fault Refusal
  | .next s => .next (f s)
  | .fault r => .fault r
  | .refused r => .refused r

/-- Two states that differ at most in the upper four bits of I (R19). -/
def EqualButIndexHigh (s t : State) : Prop :=
  ∃ j : Word, t = s.setI j ∧ j.toNat % 4096 = s.i.toNat % 4096

/-- Two outcomes of one kind, with related next states or the same reason to stop. -/
def OutcomesRelated (rel : State → State → Prop) (o p : Host.Outcome State Fault Refusal) : Prop :=
  match o, p with
  | .next s, .next t => rel s t
  | .fault r, .fault q => r = q
  | .refused r, .refused q => r = q
  | _, _ => False

/-! ### Sprites -/

/-- The sprite of n rows at I whose corner is (cx, cy) has a 1 on the pixel (c, r) of the screen: the byte at
I + (r − cy), bit 7 for its leftmost column; nothing wraps (R82 to R84). -/
def State.spriteCovers (s : State) (cx cy n c r : Nat) : Bool :=
  decide (cx ≤ c ∧ c < cx + 8 ∧ cy ≤ r ∧ r < cy + n) &&
    (s.readByte (s.i + BitVec.ofNat 16 (r - cy))).getLsbD (7 - (c - cx))

end Sys2Proof.Machine
end

