-- ==== Sys2Proof/Certificates/Slice0/Obligations.lean ====
section
/-! DEFINITION. What is claimed of the model, one Prop each. The terms are those of Sys2Proof/Safety.lean. -/

open Sys2Proof Sys2Proof.Machine

/-! ### Encoding -/

/-- R69. Decoding an encoded well-formed instruction gives it back; a word that decodes is the encoding of what it
decodes to, so no two words decode alike; an encoding has its row's fixed bits and its fields where R61 puts them. -/
def Obligations.DecodeEncodeRoundTrip : Prop :=
  (∀ i : Instr, i.wellFormed = true → decode (encode i) = .ok i) ∧
  (∀ (w : Word) (i : Instr), decode w = .ok i → i.wellFormed = true ∧ encode i = w) ∧
  (∀ (w w' : Word) (i : Instr), decode w = .ok i → decode w' = .ok i → w = w') ∧
  (∀ i : Instr, i.wellFormed = true → ∃ r ∈ opcodeTable, encode i &&& r.mask = r.fixed ∧ r.make (encode i) = i)

/-- The decision tree of R65 and the 34 rows of R64 agree on every word, and no word matches two rows. -/
def Obligations.DecodeIsTheOpcodeTable : Prop :=
  opcodeTable.length = 34 ∧
  (∀ w : Word, decode w = match opcodeTable.find? (fun r => r.hits w) with
    | some r => .ok (r.make w)
    | none => .error (.invalidOpcode w)) ∧
  (∀ w : Word, opcodeTable.Pairwise (fun r r' => ¬(r.hits w = true ∧ r'.hits w = true)))

/-- R66. The invalid words are exactly those listed, and executing one raises InvalidOpcode with the word and its
address. -/
def Obligations.InvalidWordsAreThoseListed : Prop :=
  (∀ w : Word, (∃ e, decode w = .error e) ↔
    (w.toNat ≤ 0x0FFF ∧ w.toNat ≠ 0x00E0 ∧ w.toNat ≠ 0x00EE) ∨
    ((w.toNat / 4096 = 5 ∨ w.toNat / 4096 = 9) ∧ w.toNat % 16 ≠ 0) ∨
    (w.toNat / 4096 = 8 ∧ w.toNat % 16 ∈ [0x8, 0x9, 0xA, 0xB, 0xC, 0xD, 0xF]) ∨
    (w.toNat / 4096 = 0xE ∧ w.toNat % 256 ∉ [0x9E, 0xA1]) ∨
    (w.toNat / 4096 = 0xF ∧ w.toNat % 256 ∉ [0x07, 0x0A, 0x15, 0x18, 0x1E, 0x29, 0x33, 0x55, 0x65])) ∧
  (∀ (w : Word) (e : Reject), decode w = .error e → e = .invalidOpcode w) ∧
  (∀ s : State, s.frame = .idle → s.agenda = [] → s.halted = false → (∃ e, decode s.fetchWord = .error e) →
    ∃ t, step s = .next t ∧ t.halted = true ∧ t.fault = some ⟨.invalidOpcode, s.fetchWord, s.pc⟩)

/-- Words written out from R64, one or more of each family, decode to the instructions they stand for. -/
def Obligations.SampleWordsDecode : Prop :=
  decode 0x00E0 = .ok .cls ∧ decode 0x00EE = .ok .ret ∧ decode 0x2204 = .ok (.call 0x204) ∧
  decode 0x4105 = .ok (.sneKk 1 0x05) ∧ decode 0x737F = .ok (.addKk 3 0x7F) ∧ decode 0x8AB5 = .ok (.subVy 10 11) ∧
  decode 0x830E = .ok (.shlVy 3 0) ∧ decode 0xA202 = .ok (.ldI 0x202) ∧ decode 0xD12F = .ok (.drw 1 2 15) ∧
  decode 0xE59E = .ok (.skp 5) ∧ decode 0xF30A = .ok (.ldVxK 3) ∧ decode 0xF265 = .ok (.ldVxMem 2) ∧
  decode 0x0000 = .error (.invalidOpcode 0x0000) ∧ decode 0x800F = .error (.invalidOpcode 0x800F)

/-! ### The instruction cycle -/

/-- R60 with R149: with no frame under way and no host move listed, a step of a core that has not halted reads the two
bytes at pc, big-endian, and runs what they decode to; a halted core does nothing. -/
def Obligations.StepRunsTheDecodedInstruction : Prop :=
  ∀ s : State, s.frame = .idle → s.agenda = [] →
    (s.halted = true → step s = .next s) ∧
    (s.halted = false → ∀ (w : Word) (i : Instr),
      w.toNat = 256 * (s.readByte s.pc).toNat + (s.readByte (s.pc + 1)).toNat → decode w = .ok i → step s = exec i s)

/-- R149 and R150: the host's `step()` and a round of a frame run the decoded instruction too; the frame then goes on
with one instruction more done, or is to end if the core halted or an Fx0A is waiting. Where the host's deadline draw,
which is free (log entry 8), says so, the frame ends instead, before the instruction. -/
def Obligations.HostStepAndFrameRunTheInstruction : Prop :=
  (∀ (s : State) (rest : List HostOp) (i : Instr), s.frame = .idle → s.agenda = .singleStep :: rest →
    s.halted = false → decode s.fetchWord = .ok i → step s = exec i (s.setAgenda rest)) ∧
  (∀ (s : State) (k : Nat) (i : Instr), s.frame = .running k → k < Config.cyclesPerFrame → s.halted = false →
    decode s.fetchWord = .ok i →
    step s = if Config.deadline s.deadlineDraws = true then .next s.countDeadline.endFrame
      else mapNext
        (fun t => t.setFrame
          (if t.halted = true ∨ ((∃ x, i = .ldVxK x) ∧ t.waitingForKey = true) then .ending else .running (k + 1)))
        (exec i s.countDeadline))

/-- R131, R133, R149, R150. An invalid word at pc, met by a step with no host move listed, by a listed `step()` and by a
round of a frame: pc at next, halted, the record (InvalidOpcode, w, a), and all else as it was, but for the move used up
or, in a frame, the deadline draw counted and the frame's end to come. Where that draw, which is free (log entry 8), says
so, the frame ends instead, before the instruction. That pc is next and that the record holds a are the spec's own
decisions D14 and D33 (log entry 13). -/
def Obligations.InvalidWordHaltsTheCore : Prop :=
  (∀ s : State, s.frame = .idle → s.agenda = [] → s.halted = false → (∃ e, decode s.fetchWord = .error e) →
    ∃ t, step s = .next t ∧ FaultedWith .invalidOpcode s.fetchWord s t) ∧
  (∀ (s : State) (rest : List HostOp), s.frame = .idle → s.agenda = .singleStep :: rest → s.halted = false →
    (∃ e, decode s.fetchWord = .error e) →
    ∃ t, step s = .next t ∧ FaultedWith .invalidOpcode s.fetchWord (s.setAgenda rest) t) ∧
  (∀ (s : State) (k : Nat), s.frame = .running k → k < Config.cyclesPerFrame → s.halted = false →
    (∃ e, decode s.fetchWord = .error e) →
    ∃ t, FaultedWith .invalidOpcode s.fetchWord s.countDeadline t ∧
      step s = if Config.deadline s.deadlineDraws = true then .next s.countDeadline.endFrame
        else .next (t.setFrame .ending))

/-! ### Display -/

/-- R81. 00E0 clears every pixel, sets fb_changed, and changes nothing else but pc. -/
def Obligations.ClearScreen : Prop :=
  RowIs 0xFFFF 0x00E0 (fun _ => .cls) ∧
  ∀ s : State, ∃ t, exec .cls s = .next t ∧
    (∀ c r, c < 64 → r < 32 → t.fb.pixel c r = false) ∧ t.fbChanged = true ∧ AdvancesBy 2 s t ∧
    KeepsAllBut [.pc, .fb, .fbChanged] s t

/-- R82 to R84. Dxyn flips exactly the pixels the sprite covers, from (Vx mod 64, Vy mod 32), clipped at the edges, and VF
says whether one that was set was erased. That the coordinates are read before VF is written, what n = 0 does and the
bit order are the spec's own decisions D8, D12 and D13 (log entries 14 and 15). -/
def Obligations.DrawFlipsTheSpritesPixels : Prop :=
  RowIs 0xF000 0xD000 (fun w => .drw (fieldX w) (fieldY w) (fieldN w)) ∧
  ∀ (x y : Reg) (n : Nat) (s : State), ∃ t, exec (.drw x y n) s = .next t ∧
    (∀ c r, c < 64 → r < 32 → t.fb.pixel c r =
      (s.fb.pixel c r ^^ s.spriteCovers (s.v[x].toNat % 64) (s.v[y].toNat % 32) n c r)) ∧
    ((∃ c r, c < 64 ∧ r < 32 ∧ s.spriteCovers (s.v[x].toNat % 64) (s.v[y].toNat % 32) n c r = true ∧
      s.fb.pixel c r = true) → t.v[15] = 1) ∧
    ((∀ c r, c < 64 → r < 32 → s.spriteCovers (s.v[x].toNat % 64) (s.v[y].toNat % 32) n c r = true →
      s.fb.pixel c r = false) → t.v[15] = 0) ∧
    KeepsRegsBut [15] s t ∧ t.fbChanged = true ∧ AdvancesBy 2 s t ∧ KeepsAllBut [.pc, .v, .fb, .fbChanged] s t

/-! ### Flow -/

/-- R87, R89. 1nnn sends pc to nnn and Bnnn to nnn + V0 modulo 4096, odd or even, and nothing else changes. -/
def Obligations.JumpsGoToTheirTargets : Prop :=
  RowIs 0xF000 0x1000 (fun w => .jp (fieldNnn w)) ∧ RowIs 0xF000 0xB000 (fun w => .jpV0 (fieldNnn w)) ∧
  (∀ (nnn : Addr) (s : State), ∃ t, exec (.jp nnn) s = .next t ∧ t.pc.toNat = nnn.toNat ∧ KeepsAllBut [.pc] s t) ∧
  (∀ (nnn : Addr) (s : State), ∃ t, exec (.jpV0 nnn) s = .next t ∧
    t.pc.toNat = (nnn.toNat + s.v[0].toNat) % 4096 ∧ KeepsAllBut [.pc] s t)

/-- R88, R134. 2nnn pushes next and jumps while SP is below 16; at SP = 16 it raises StackOverflow, the stack and SP
unchanged and pc at next. -/
def Obligations.CallPushesNextAndJumps : Prop :=
  RowIs 0xF000 0x2000 (fun w => .call (fieldNnn w)) ∧
  (∀ (nnn : Addr) (s : State), s.sp.toNat < 16 → ∃ t, exec (.call nnn) s = .next t ∧
    t.sp.toNat = s.sp.toNat + 1 ∧
    (∀ j : Fin 16, j.val = s.sp.toNat → t.stack[j].toNat = (s.pc.toNat + 2) % 4096) ∧
    (∀ j : Fin 16, j.val ≠ s.sp.toNat → t.stack[j] = s.stack[j]) ∧
    t.pc.toNat = nnn.toNat ∧ KeepsAllBut [.pc, .sp, .stack] s t) ∧
  (∀ (nnn : Addr) (s : State), s.sp = 16 → ∃ t, exec (.call nnn) s = .next t ∧
    FaultedWith .stackOverflow (encode (.call nnn)) s t)

/-- R86. 00EE pops: SP down by one, pc at the entry (modulo 4096), which is kept; at SP = 0 it raises StackUnderflow.
The condition of the error and the kept entry are the spec's own decisions D28 and D27 (log entry 16). -/
def Obligations.ReturnPopsOrUnderflows : Prop :=
  RowIs 0xFFFF 0x00EE (fun _ => .ret) ∧
  (∀ s : State, 0 < s.sp.toNat → s.sp.toNat ≤ 16 → ∃ t, exec .ret s = .next t ∧
    t.sp.toNat = s.sp.toNat - 1 ∧
    (∀ j : Fin 16, j.val + 1 = s.sp.toNat → t.pc.toNat = s.stack[j].toNat % 4096) ∧ KeepsAllBut [.pc, .sp] s t) ∧
  (∀ s : State, s.sp = 0 → ∃ t, exec .ret s = .next t ∧ FaultedWith .stackUnderflow 0x00EE s t)

/-- R86, R88. A call and then a return come back to the instruction after the call with SP as it was; every register is
as before, and the stack differs at most in the entry the call wrote. -/
def Obligations.ReturnUndoesCall : Prop :=
  ∀ (nnn : Addr) (s : State), s.sp.toNat < 16 → ∃ t u, exec (.call nnn) s = .next t ∧ exec .ret t = .next u ∧
    AdvancesBy 2 s u ∧ (∀ j : Fin 16, j.val ≠ s.sp.toNat → u.stack[j] = s.stack[j]) ∧
    KeepsAllBut [.pc, .stack] s u

/-- R91. A 1nnn whose nnn is its own address steps to itself. That this is the end of a run is the spec's own inference
from R87. -/
def Obligations.JumpToSelfStays : Prop :=
  ∀ (s : State) (nnn : Addr), s.frame = .idle → s.agenda = [] → s.halted = false →
    decode s.fetchWord = .ok (.jp nnn) → nnn.toNat = s.pc.toNat → step s = .next s

/-! ### Skips -/

/-- R96, R97. 3xkk skips the next word exactly when Vx = kk and 4xkk exactly when Vx ≠ kk; only pc changes. -/
def Obligations.SkipsComparingAByte : Prop :=
  RowIs 0xF000 0x3000 (fun w => .seKk (fieldX w) (fieldKk w)) ∧
  RowIs 0xF000 0x4000 (fun w => .sneKk (fieldX w) (fieldKk w)) ∧
  (∀ (x : Reg) (kk : Byte) (s : State), ∃ t, exec (.seKk x kk) s = .next t ∧
    AdvancesBy (if s.v[x].toNat = kk.toNat then 4 else 2) s t ∧ KeepsAllBut [.pc] s t) ∧
  (∀ (x : Reg) (kk : Byte) (s : State), ∃ t, exec (.sneKk x kk) s = .next t ∧
    AdvancesBy (if s.v[x].toNat = kk.toNat then 2 else 4) s t ∧ KeepsAllBut [.pc] s t)

/-- R98, R99. 5xy0 skips exactly when Vx = Vy and 9xy0 exactly when Vx ≠ Vy; only pc changes. -/
def Obligations.SkipsComparingRegisters : Prop :=
  RowIs 0xF00F 0x5000 (fun w => .seVy (fieldX w) (fieldY w)) ∧
  RowIs 0xF00F 0x9000 (fun w => .sneVy (fieldX w) (fieldY w)) ∧
  (∀ w : Word, (w.toNat / 4096 = 5 ∨ w.toNat / 4096 = 9) → w.toNat % 16 ≠ 0 → decode w = .error (.invalidOpcode w)) ∧
  (∀ (x y : Reg) (s : State), ∃ t, exec (.seVy x y) s = .next t ∧
    AdvancesBy (if s.v[x].toNat = s.v[y].toNat then 4 else 2) s t ∧ KeepsAllBut [.pc] s t) ∧
  (∀ (x y : Reg) (s : State), ∃ t, exec (.sneVy x y) s = .next t ∧
    AdvancesBy (if s.v[x].toNat = s.v[y].toNat then 2 else 4) s t ∧ KeepsAllBut [.pc] s t)

/-- R100, R101. Ex9E skips exactly when key Vx is pressed and ExA1 exactly when it is not, for Vx below 16; only pc
changes. -/
def Obligations.SkipsOnAKey : Prop :=
  RowIs 0xF0FF 0xE09E (fun w => .skp (fieldX w)) ∧ RowIs 0xF0FF 0xE0A1 (fun w => .sknp (fieldX w)) ∧
  (∀ (x : Reg) (s : State) (k : Fin 16), s.v[x].toNat = k.val → ∃ t, exec (.skp x) s = .next t ∧
    AdvancesBy (if s.keys[k] = true then 4 else 2) s t ∧ KeepsAllBut [.pc] s t) ∧
  (∀ (x : Reg) (s : State) (k : Fin 16), s.v[x].toNat = k.val → ∃ t, exec (.sknp x) s = .next t ∧
    AdvancesBy (if s.keys[k] = true then 2 else 4) s t ∧ KeepsAllBut [.pc] s t)

/-- R102, R136. Ex9E and ExA1 with Vx at 16 or above raise UndefinedKeyIndex: the spec's own decision D11 (log entry 17). -/
def Obligations.KeyIndexAboveFifteenFaults : Prop :=
  ∀ (x : Reg) (s : State), 16 ≤ s.v[x].toNat →
    (∃ t, exec (.skp x) s = .next t ∧ FaultedWith .undefinedKeyIndex (encode (.skp x)) s t) ∧
    (∃ t, exec (.sknp x) s = .next t ∧ FaultedWith .undefinedKeyIndex (encode (.sknp x)) s t)

/-! ### Registers and arithmetic -/

/-- R104, R105. 6xkk loads kk; 7xkk adds it modulo 256 with no flag: VF changes only where it is Vx. -/
def Obligations.LoadAndAddAByte : Prop :=
  RowIs 0xF000 0x6000 (fun w => .ldKk (fieldX w) (fieldKk w)) ∧
  RowIs 0xF000 0x7000 (fun w => .addKk (fieldX w) (fieldKk w)) ∧
  (∀ (x : Reg) (kk : Byte) (s : State), ∃ t, exec (.ldKk x kk) s = .next t ∧ t.v[x] = kk ∧
    KeepsRegsBut [x] s t ∧ AdvancesBy 2 s t ∧ KeepsAllBut [.pc, .v] s t) ∧
  (∀ (x : Reg) (kk : Byte) (s : State), ∃ t, exec (.addKk x kk) s = .next t ∧
    t.v[x].toNat = (s.v[x].toNat + kk.toNat) % 256 ∧
    KeepsRegsBut [x] s t ∧ AdvancesBy 2 s t ∧ KeepsAllBut [.pc, .v] s t)

/-- R106. 8xy0 copies Vy to Vx and touches no flag. The meaning is the spec's own decision D9, from general knowledge
(log entry 18). -/
def Obligations.LoadRegister : Prop :=
  RowIs 0xF00F 0x8000 (fun w => .ldVy (fieldX w) (fieldY w)) ∧
  ∀ (x y : Reg) (s : State), ∃ t, exec (.ldVy x y) s = .next t ∧ t.v[x] = s.v[y] ∧
    KeepsRegsBut [x] s t ∧ AdvancesBy 2 s t ∧ KeepsAllBut [.pc, .v] s t

/-- R107 to R109. OR, AND and XOR of Vx and Vy, bit by bit, into Vx, and then VF is 0, also where x = F. -/
def Obligations.LogicClearsVF : Prop :=
  RowIs 0xF00F 0x8001 (fun w => .orVy (fieldX w) (fieldY w)) ∧
  RowIs 0xF00F 0x8002 (fun w => .andVy (fieldX w) (fieldY w)) ∧
  RowIs 0xF00F 0x8003 (fun w => .xorVy (fieldX w) (fieldY w)) ∧
  (∀ (x y : Reg) (s : State), ∃ t, exec (.orVy x y) s = .next t ∧
    (x ≠ 15 → ∀ b, b < 8 → t.v[x].getLsbD b = (s.v[x].getLsbD b || s.v[y].getLsbD b)) ∧ t.v[15] = 0 ∧
    KeepsRegsBut [x, 15] s t ∧ AdvancesBy 2 s t ∧ KeepsAllBut [.pc, .v] s t) ∧
  (∀ (x y : Reg) (s : State), ∃ t, exec (.andVy x y) s = .next t ∧
    (x ≠ 15 → ∀ b, b < 8 → t.v[x].getLsbD b = (s.v[x].getLsbD b && s.v[y].getLsbD b)) ∧ t.v[15] = 0 ∧
    KeepsRegsBut [x, 15] s t ∧ AdvancesBy 2 s t ∧ KeepsAllBut [.pc, .v] s t) ∧
  (∀ (x y : Reg) (s : State), ∃ t, exec (.xorVy x y) s = .next t ∧
    (x ≠ 15 → ∀ b, b < 8 → t.v[x].getLsbD b = (s.v[x].getLsbD b ^^ s.v[y].getLsbD b)) ∧ t.v[15] = 0 ∧
    KeepsRegsBut [x, 15] s t ∧ AdvancesBy 2 s t ∧ KeepsAllBut [.pc, .v] s t)

/-- R110. 8xy4: the sum modulo 256 in Vx and the carry in VF, the carry alone where x = F. -/
def Obligations.AddSetsCarry : Prop :=
  RowIs 0xF00F 0x8004 (fun w => .addVy (fieldX w) (fieldY w)) ∧
  ∀ (x y : Reg) (s : State), ∃ t, exec (.addVy x y) s = .next t ∧
    (x ≠ 15 → t.v[x].toNat = (s.v[x].toNat + s.v[y].toNat) % 256) ∧
    t.v[15].toNat = (if s.v[x].toNat + s.v[y].toNat > 255 then 1 else 0) ∧
    KeepsRegsBut [x, 15] s t ∧ AdvancesBy 2 s t ∧ KeepsAllBut [.pc, .v] s t

/-- R111, R113. 8xy5 is Vx − Vy and 8xy7 is Vy − Vx, modulo 256, with NOT borrow in VF, the flag alone where x = F. -/
def Obligations.SubtractSetsNotBorrow : Prop :=
  RowIs 0xF00F 0x8005 (fun w => .subVy (fieldX w) (fieldY w)) ∧
  RowIs 0xF00F 0x8007 (fun w => .subnVy (fieldX w) (fieldY w)) ∧
  (∀ (x y : Reg) (s : State), ∃ t, exec (.subVy x y) s = .next t ∧
    (x ≠ 15 → (t.v[x].toNat : Int) = ((s.v[x].toNat : Int) - s.v[y].toNat) % 256) ∧
    t.v[15].toNat = (if s.v[x].toNat ≥ s.v[y].toNat then 1 else 0) ∧
    KeepsRegsBut [x, 15] s t ∧ AdvancesBy 2 s t ∧ KeepsAllBut [.pc, .v] s t) ∧
  (∀ (x y : Reg) (s : State), ∃ t, exec (.subnVy x y) s = .next t ∧
    (x ≠ 15 → (t.v[x].toNat : Int) = ((s.v[y].toNat : Int) - s.v[x].toNat) % 256) ∧
    t.v[15].toNat = (if s.v[y].toNat ≥ s.v[x].toNat then 1 else 0) ∧
    KeepsRegsBut [x, 15] s t ∧ AdvancesBy 2 s t ∧ KeepsAllBut [.pc, .v] s t)

/-- R112, R114. The shifts take Vy: half of it, or twice it modulo 256, in Vx, and the bit shifted out in VF, that bit
alone where x = F. -/
def Obligations.ShiftsTakeVy : Prop :=
  RowIs 0xF00F 0x8006 (fun w => .shrVy (fieldX w) (fieldY w)) ∧
  RowIs 0xF00F 0x800E (fun w => .shlVy (fieldX w) (fieldY w)) ∧
  (∀ (x y : Reg) (s : State), ∃ t, exec (.shrVy x y) s = .next t ∧
    (x ≠ 15 → t.v[x].toNat = s.v[y].toNat / 2) ∧ t.v[15].toNat = s.v[y].toNat % 2 ∧
    KeepsRegsBut [x, 15] s t ∧ AdvancesBy 2 s t ∧ KeepsAllBut [.pc, .v] s t) ∧
  (∀ (x y : Reg) (s : State), ∃ t, exec (.shlVy x y) s = .next t ∧
    (x ≠ 15 → t.v[x].toNat = 2 * s.v[y].toNat % 256) ∧ t.v[15].toNat = s.v[y].toNat / 128 ∧
    KeepsRegsBut [x, 15] s t ∧ AdvancesBy 2 s t ∧ KeepsAllBut [.pc, .v] s t)

/-- R115. Cxkk takes one fresh draw, whatever kk is, and leaves draw AND kk in Vx, so the bits outside kk are 0. The draw
is a free value (decision D16, log entry 7): this holds at every count of draws. -/
def Obligations.RandomIsOneMaskedDraw : Prop :=
  RowIs 0xF000 0xC000 (fun w => .rnd (fieldX w) (fieldKk w)) ∧
  ∀ (x : Reg) (kk : Byte) (s : State), ∃ t, exec (.rnd x kk) s = .next t ∧
    (∀ b, b < 8 → t.v[x].getLsbD b = (kk.getLsbD b && (Config.randByte s.rngDraws).getLsbD b)) ∧
    t.rngDraws = s.rngDraws + 1 ∧ KeepsRegsBut [x] s t ∧ AdvancesBy 2 s t ∧ KeepsAllBut [.pc, .v, .rngDraws] s t

/-! ### The index register and memory -/

/-- R118. Annn loads nnn into I. -/
def Obligations.LoadIndex : Prop :=
  RowIs 0xF000 0xA000 (fun w => .ldI (fieldNnn w)) ∧
  ∀ (nnn : Addr) (s : State), ∃ t, exec (.ldI nnn) s = .next t ∧ t.i.toNat = nnn.toNat ∧
    AdvancesBy 2 s t ∧ KeepsAllBut [.pc, .i] s t

/-- R119, R120. Fx1E adds Vx to I modulo 2^16; Fx29 loads the address of the glyph of Vx's low nibble; VF and all else are
unchanged. That I keeps 16 bits and that the font is at 0x050 are the spec's own decisions D6 and D4 (log entries 4 and 19). -/
def Obligations.IndexArithmetic : Prop :=
  RowIs 0xF0FF 0xF01E (fun w => .addIVx (fieldX w)) ∧ RowIs 0xF0FF 0xF029 (fun w => .ldFVx (fieldX w)) ∧
  (∀ (x : Reg) (s : State), ∃ t, exec (.addIVx x) s = .next t ∧
    t.i.toNat = (s.i.toNat + s.v[x].toNat) % 65536 ∧ AdvancesBy 2 s t ∧ KeepsAllBut [.pc, .i] s t) ∧
  (∀ (x : Reg) (s : State), ∃ t, exec (.ldFVx x) s = .next t ∧
    t.i.toNat = 0x050 + 5 * (s.v[x].toNat % 16) ∧ AdvancesBy 2 s t ∧ KeepsAllBut [.pc, .i] s t)

/-- R121. Fx33 writes the three decimal digits of Vx at I, I + 1 and I + 2, modulo 4096, hundreds first, and no other
byte; I is unchanged. Three bytes, not four, is the spec's resolution C2; the digit order is an inference it marks as
its own, from the source's scenario 3 (log entry 20). -/
def Obligations.StoreDecimalDigits : Prop :=
  RowIs 0xF0FF 0xF033 (fun w => .ldBVx (fieldX w)) ∧
  ∀ (x : Reg) (s : State), s.memWf = true → ∃ t, exec (.ldBVx x) s = .next t ∧
    (∀ a : Word, a.toNat % 4096 = s.i.toNat % 4096 → (t.readByte a).toNat = s.v[x].toNat / 100) ∧
    (∀ a : Word, a.toNat % 4096 = (s.i.toNat + 1) % 4096 → (t.readByte a).toNat = s.v[x].toNat / 10 % 10) ∧
    (∀ a : Word, a.toNat % 4096 = (s.i.toNat + 2) % 4096 → (t.readByte a).toNat = s.v[x].toNat % 10) ∧
    (∀ a : Word, (∀ k, k < 3 → a.toNat % 4096 ≠ (s.i.toNat + k) % 4096) → t.readByte a = s.readByte a) ∧
    AdvancesBy 2 s t ∧ KeepsAllBut [.pc, .mem] s t

/-- R122. Fx55 stores V0 to Vx at I, I + 1, .., I + x, modulo 4096, and no other byte, and adds x + 1 to I; the next fetch
reads the bytes so left. -/
def Obligations.StoreRegistersAtIndex : Prop :=
  RowIs 0xF0FF 0xF055 (fun w => .ldMemVx (fieldX w)) ∧
  ∀ (x : Reg) (s : State), s.memWf = true → ∃ t, exec (.ldMemVx x) s = .next t ∧
    (∀ (k : Reg) (a : Word), k.val ≤ x.val → a.toNat % 4096 = (s.i.toNat + k.val) % 4096 → t.readByte a = s.v[k]) ∧
    (∀ a : Word, (∀ k : Reg, k.val ≤ x.val → a.toNat % 4096 ≠ (s.i.toNat + k.val) % 4096) → t.readByte a = s.readByte a) ∧
    t.fetchWord = wordOfBytes (t.readByte t.pc) (t.readByte (t.pc + 1)) ∧
    t.i.toNat = (s.i.toNat + x.val + 1) % 65536 ∧ AdvancesBy 2 s t ∧ KeepsAllBut [.pc, .i, .mem] s t

/-- R123. Fx65 loads V0 to Vx from I, I + 1, .., I + x, modulo 4096, and adds x + 1 to I; and an Fx55 followed by an Fx65
with I put back in between restores V0 to Vx. -/
def Obligations.LoadRegistersFromIndex : Prop :=
  RowIs 0xF0FF 0xF065 (fun w => .ldVxMem (fieldX w)) ∧
  (∀ (x : Reg) (s : State), ∃ t, exec (.ldVxMem x) s = .next t ∧
    (∀ (k : Reg) (a : Word), k.val ≤ x.val → a.toNat % 4096 = (s.i.toNat + k.val) % 4096 → t.v[k] = s.readByte a) ∧
    (∀ k : Reg, x.val < k.val → t.v[k] = s.v[k]) ∧
    t.i.toNat = (s.i.toNat + x.val + 1) % 65536 ∧ AdvancesBy 2 s t ∧ KeepsAllBut [.pc, .v, .i] s t) ∧
  (∀ (x : Reg) (nnn : Addr) (s : State), s.memWf = true → s.i.toNat % 4096 = nnn.toNat →
    ∃ t u r, exec (.ldMemVx x) s = .next t ∧ exec (.ldI nnn) t = .next u ∧ exec (.ldVxMem x) u = .next r ∧ r.v = s.v)

/-- R165, R121. A store by Fx55 or Fx33 is seen by every later fetch of its bytes, the very next one among them (u = t): in any
state u whose memory reads as the store left it, a stored byte under pc is the high half of the word fetched, and one
under pc + 1 the low half. That Fx33 stores three bytes is the spec's resolution C2, and which digit stands at which of
them its own inference from scenario 3 (log entry 20). -/
def Obligations.StoreIsSeenByTheNextFetch : Prop :=
  ∀ (x : Reg) (s t u : State), s.memWf = true → (∀ a, u.readByte a = t.readByte a) →
    (exec (.ldMemVx x) s = .next t → ∀ k : Reg, k.val ≤ x.val →
      (u.pc.toNat % 4096 = (s.i.toNat + k.val) % 4096 → hiByte u.fetchWord = s.v[k]) ∧
      ((u.pc.toNat + 1) % 4096 = (s.i.toNat + k.val) % 4096 → loByte u.fetchWord = s.v[k])) ∧
    (exec (.ldBVx x) s = .next t →
      ∀ k d, (k, d) ∈ [(0, s.v[x].toNat / 100), (1, s.v[x].toNat / 10 % 10), (2, s.v[x].toNat % 10)] →
      (u.pc.toNat % 4096 = (s.i.toNat + k) % 4096 → (hiByte u.fetchWord).toNat = d) ∧
      ((u.pc.toNat + 1) % 4096 = (s.i.toNat + k) % 4096 → (loByte u.fetchWord).toNat = d))

/-! ### Timers and keys -/

/-- R124. Fx07 copies DT to Vx; and a step of the machine that changes DT runs an Fx15, or ends a frame, or is a
`load_rom`: so within one quantum every Fx07 gives the same value unless an Fx15 came between. -/
def Obligations.ReadDelayTimer : Prop :=
  RowIs 0xF0FF 0xF007 (fun w => .ldVxDt (fieldX w)) ∧
  (∀ (x : Reg) (s : State), ∃ t, exec (.ldVxDt x) s = .next t ∧ t.v[x] = s.dt ∧ KeepsRegsBut [x] s t ∧
    AdvancesBy 2 s t ∧ KeepsAllBut [.pc, .v] s t) ∧
  (∀ s t : State, step s = .next t → t.dt ≠ s.dt →
    (s.halted = false ∧ ∃ x, decode s.fetchWord = .ok (.ldDtVx x)) ∨ (s.frame ≠ .idle ∧ t.frame = .idle) ∨
    (s.frame = .idle ∧ ∃ bytes rest, s.agenda = .loadRom bytes :: rest))

/-- R126, R127, R152. Fx15 and Fx18 copy Vx to DT and to ST; the host is told of the sound exactly when its level
changes. That `beep` reports changes of the level ST ≠ 0 is the spec's own decision D26 (log entry 12). -/
def Obligations.WriteTimers : Prop :=
  RowIs 0xF0FF 0xF015 (fun w => .ldDtVx (fieldX w)) ∧ RowIs 0xF0FF 0xF018 (fun w => .ldStVx (fieldX w)) ∧
  (∀ (x : Reg) (s : State), ∃ t, exec (.ldDtVx x) s = .next t ∧ t.dt = s.v[x] ∧
    AdvancesBy 2 s t ∧ KeepsAllBut [.pc, .dt] s t) ∧
  (∀ (x : Reg) (s : State), ∃ t, exec (.ldStVx x) s = .next t ∧ t.st = s.v[x] ∧
    (s.st = 0 → s.v[x] = 0 → t.outputs = s.outputs) ∧ (s.st ≠ 0 → s.v[x] ≠ 0 → t.outputs = s.outputs) ∧
    (s.st = 0 → s.v[x] ≠ 0 → t.outputs = .beep true :: s.outputs) ∧
    (s.st ≠ 0 → s.v[x] = 0 → t.outputs = .beep false :: s.outputs) ∧
    AdvancesBy 2 s t ∧ KeepsAllBut [.pc, .st, .outputs] s t)

/-- R125. Fx0A: the first evaluation starts the wait and stays; a later one that sees no release stays; one that sees a
release writes the lowest key released and ends the wait. Every detail but "a key edge (release)" is the spec's own
decision D10 (log entry 21). -/
def Obligations.KeyWaitEndsOnTheLowestRelease : Prop :=
  RowIs 0xF0FF 0xF00A (fun w => .ldVxK (fieldX w)) ∧
  (∀ (x : Reg) (s : State), (s.waitingForKey = false ∨ ∀ k : Reg, ¬(s.keyPrev[k] = true ∧ s.keys[k] = false)) →
    ∃ t, exec (.ldVxK x) s = .next t ∧ t.waitingForKey = true ∧ t.keyPrev = s.keys ∧ AdvancesBy 0 s t ∧
      KeepsAllBut [.pc, .waitingForKey, .keyPrev] s t) ∧
  (∀ (x k : Reg) (s : State), s.waitingForKey = true → s.keyPrev[k] = true → s.keys[k] = false →
    (∀ j : Reg, j.val < k.val → ¬(s.keyPrev[j] = true ∧ s.keys[j] = false)) →
    ∃ t, exec (.ldVxK x) s = .next t ∧ t.v[x].toNat = k.val ∧ KeepsRegsBut [x] s t ∧ t.waitingForKey = false ∧
      AdvancesBy 2 s t ∧ KeepsAllBut [.pc, .v, .waitingForKey] s t)

/-! ### Frames and the host -/

/-- R141, R142, R150, R152, R153. Every end of a frame (after a halt or a waiting Fx0A, with the quantum used up, and by the
deadline draw) is that of `FrameEnded`: unless the core has halted each timer goes down by one, not below zero; a sound
that stops is reported, and a changed framebuffer is handed over after it. The deadline draw is free (log entry 8), so
what it would end the frame in is said for every state it is asked in. The order and coupling of the two decrements are
the spec's own decision D35 (log entry 27), the tick's absence on a halted core D15 (log entry 13), and that `beep`
reports changes of the level ST ≠ 0 D26 (log entry 12). -/
def Obligations.FrameEndTicksAndDraws : Prop :=
  (∀ s : State, s.frame = .ending →
    ∃ t, step s = .next t ∧ FrameEnded s t ∧ t.deadlineDraws = s.deadlineDraws) ∧
  (∀ (s : State) (k : Nat), s.frame = .running k → Config.cyclesPerFrame ≤ k →
    ∃ t, step s = .next t ∧ FrameEnded s t ∧ t.deadlineDraws = s.deadlineDraws) ∧
  (∀ (s : State) (k : Nat), s.frame = .running k → k < Config.cyclesPerFrame →
    ∃ t, FrameEnded s t ∧ t.deadlineDraws = s.deadlineDraws + 1 ∧
      (Config.deadline s.deadlineDraws = true → step s = .next t))

/-- R150. `run_frame()` by single steps is `run_frame()` as the pseudocode's one loop: after at most
CYCLES_PER_FRAME + 2 steps the machine is in the state, or at the stop, that the loop gives. One instruction a step is
the model's choice of form (log entry 10); the quantum and the deadline draws are free (decisions D17 and D18, log
entries 8 and 9). -/
def Obligations.FrameStepsAreTheFrameLoop : Prop :=
  ∀ (s : State) (rest : List HostOp), s.frame = .idle → s.agenda = .runFrame :: rest →
    ∃ n, n ≤ Config.cyclesPerFrame + 2 ∧
      Host.Core.run Sys2Proof.core n s = runFrameWhole (s.setAgenda rest)

/-- R150, R166. A frame under way ends: from a state with the invariant, within the instructions left of its quantum and
one step more, whatever the instructions do and wherever the deadline falls. -/
def Obligations.FrameEndsInTime : Prop :=
  ∀ (s : State) (k : Nat), StateInv s → s.frame = .running k →
    ∃ n t, n ≤ Config.cyclesPerFrame - k + 1 ∧ Host.Core.run Sys2Proof.core n s = .next t ∧ t.frame = .idle

/-- R147, R154. `key_event` sets one key and `poll_keys` the whole matrix, and nothing else; an index outside 0..15 is
refused. When the matrix changes and the refusal are the spec's own decisions D20 and D34 (log entry 22). -/
def Obligations.HostSetsKeys : Prop :=
  (∀ (s : State) (rest : List HostOp) (k : Fin 16) (p : Bool), s.frame = .idle → s.agenda = .keyEvent k.val p :: rest →
    ∃ t, step s = .next t ∧ t.keys[k] = p ∧ (∀ j : Fin 16, j ≠ k → t.keys[j] = s.keys[j]) ∧ t.agenda = rest ∧
      KeepsAllBut [.keys, .agenda] s t) ∧
  (∀ (s : State) (rest : List HostOp) (idx : Nat) (p : Bool), s.frame = .idle → s.agenda = .keyEvent idx p :: rest →
    16 ≤ idx → step s = .refused .keyIndexInvalid) ∧
  (∀ (s : State) (rest : List HostOp) (m : Vector Bool 16), s.frame = .idle → s.agenda = .pollKeys m :: rest →
    ∃ t, step s = .next t ∧ t.keys = m ∧ t.agenda = rest ∧ KeepsAllBut [.keys, .agenda] s t)

/-- R149, R150, R151, R167. On a halted core `run_frame()` and `step()` do nothing, and on any core `pause()` and
`select_backend()` do nothing, but that the move is used up. What `pause()` does and that a halted core ignores the host
are the spec's own decisions D30 and D15 (log entries 11 and 13). -/
def Obligations.IdleHostMovesChangeNothing : Prop :=
  ∀ (s : State) (op : HostOp) (rest : List HostOp), s.frame = .idle → s.agenda = op :: rest →
    (op = .pause ∨ op = .selectBackend ∨ (s.halted = true ∧ (op = .runFrame ∨ op = .singleStep))) →
    step s = .next (s.setAgenda rest)

/-- R161, R162. `load_rom` of at most 3584 bytes puts the image at 0x200, the machine's font, whichever 80 bytes it
holds, at 0x050 and zero elsewhere, and every piece of state at its reset value; a longer image is reported and changes
nothing. The values and the kept machine are the spec's own decisions D1 to D5 and D24 (log entries 1 to 5 and 25); that
the agenda, the outputs and the counts of draws stay is the model's (log entries 11 and 12). -/
def Obligations.LoadRomIsTheReset : Prop :=
  (∀ (s : State) (bytes : List Byte) (rest : List HostOp), s.frame = .idle → s.agenda = .loadRom bytes :: rest →
    bytes.length ≤ 3584 → ∃ t, step s = .next t ∧
      (∀ a : Word, a.toNat < 4096 → t.readByte a =
        (if 0x200 ≤ a.toNat then bytes.getD (a.toNat - 0x200) 0
         else if 0x050 ≤ a.toNat ∧ a.toNat < 0x0A0 then (s.font[a.toNat - 0x050]?).getD 0 else 0)) ∧
      t.pc = 0x200 ∧ t.i = 0 ∧ t.sp = 0 ∧ t.dt = 0 ∧ t.st = 0 ∧ t.halted = false ∧ t.fault = none ∧
      t.waitingForKey = false ∧ t.fbChanged = false ∧
      (∀ j : Fin 16, t.v[j] = 0 ∧ t.stack[j] = 0 ∧ t.keys[j] = false ∧ t.keyPrev[j] = false) ∧
      (∀ c r, t.fb.pixel c r = false) ∧ t.agenda = rest ∧ t.font = s.font) ∧
  (∀ (s : State) (bytes : List Byte) (rest : List HostOp), s.frame = .idle → s.agenda = .loadRom bytes :: rest →
    3584 < bytes.length → step s = .next ((s.setAgenda rest).emit (.romTooLarge bytes.length)))

/-! ### The whole machine -/

/-- R37. The state after reset. The spec states each value as its own decision D1 to D5 (log entries 1 to 6). -/
def Obligations.ResetValues : Prop :=
  State.reset.pc = 0x200 ∧ State.reset.i = 0 ∧ State.reset.sp = 0 ∧ State.reset.dt = 0 ∧ State.reset.st = 0 ∧
  State.reset.halted = false ∧ State.reset.fault = none ∧ State.reset.waitingForKey = false ∧
  (∀ j : Fin 16, State.reset.v[j] = 0 ∧ State.reset.stack[j] = 0 ∧ State.reset.keys[j] = false ∧
    State.reset.keyPrev[j] = false) ∧
  (∀ c r, State.reset.fb.pixel c r = false) ∧
  (∀ a : Word, (a.toNat % 4096 < 0x050 ∨ 0x0A0 ≤ a.toNat % 4096) → State.reset.readByte a = 0) ∧
  (∀ (g r : Fin 16) (a : Word), r.val < 5 → a.toNat % 4096 = 0x050 + 5 * g.val + r.val →
    some (State.reset.readByte a) = Config.defaultFontBytes[5 * g.val + r.val]?)

/-- The state after reset has the invariant. -/
def Obligations.ResetHasTheInvariant : Prop := StateInv State.reset

/-- R38 and the rest of `StateInv`: every step, of the core, of a frame or of the host, keeps the invariant. -/
def Obligations.StepKeepsTheInvariant : Prop :=
  ∀ s t : State, StateInv s → step s = .next t → StateInv t

/-- R131, R147. From a state with the invariant no step ends in a fault of the model, and the one refusal is a key event
whose index is no key's. -/
def Obligations.InvariantRulesOutStops : Prop :=
  ∀ s : State, StateInv s → (∀ r, step s ≠ .fault r) ∧
    (∀ r, step s = .refused r → r = .keyIndexInvalid ∧ s.frame = .idle ∧
      ∃ idx p rest, s.agenda = .keyEvent idx p :: rest ∧ 16 ≤ idx)

/-- R144. Every instruction may run at any time: with SP at most 16 each of the 34 answers a next state, with any
operands. -/
def Obligations.EveryInstructionRuns : Prop :=
  ∀ (i : Instr) (s : State), s.sp.toNat ≤ 16 → ∃ t, exec i s = .next t

/-- R15 to R33, R49. Each instruction writes only the parts of the state whose writers name it. -/
def Obligations.InstructionsWriteOnlyTheirParts : Prop :=
  ∀ (i : Instr) (s t : State), exec i s = .next t → KeepsAllBut (mayWrite i) s t

/-- R18. VF is written by 8xy1 to 8xyE and Dxyn, and otherwise only as an ordinary destination: x = F in 6xkk, 7xkk, 8xy0,
Cxkk, Fx07 and Fx0A, and in Fx65 with x = F. -/
def Obligations.OnlyNamedInstructionsWriteVF : Prop :=
  ∀ (i : Instr) (s t : State), exec i s = .next t → t.v[15] ≠ s.v[15] →
    (∃ x y, i = .orVy x y ∨ i = .andVy x y ∨ i = .xorVy x y ∨ i = .addVy x y ∨ i = .subVy x y ∨ i = .shrVy x y ∨
      i = .subnVy x y ∨ i = .shlVy x y) ∨
    (∃ x y n, i = .drw x y n) ∨
    (∃ kk, i = .ldKk 15 kk ∨ i = .addKk 15 kk ∨ i = .rnd 15 kk) ∨ (∃ y, i = .ldVy 15 y) ∨
    i = .ldVxDt 15 ∨ i = .ldVxK 15 ∨ i = .ldVxMem 15

/-- R49. In every step of the machine the only writers of RAM are Fx33, Fx55 and `load_rom`. -/
def Obligations.OnlyStoresAndLoadRomWriteRam : Prop :=
  ∀ (s t : State) (a : Word), step s = .next t → t.readByte a ≠ s.readByte a →
    (s.halted = false ∧ ∃ x, decode s.fetchWord = .ok (.ldBVx x) ∨ decode s.fetchWord = .ok (.ldMemVx x)) ∨
    (s.frame = .idle ∧ ∃ bytes rest, s.agenda = .loadRom bytes :: rest)

/-- R132, R138. An instruction that changes the fault record is 2nnn at SP = 16, 00EE at SP = 0, or Ex9E or ExA1 with Vx
at 16 or above, and the record is that kind with the instruction's word and address. The codes and "at most one" are
the spec's own decision D29. -/
def Obligations.FaultsNameTheirInstruction : Prop :=
  ([FaultKind.invalidOpcode, .stackOverflow, .stackUnderflow, .undefinedKeyIndex, .addressOutOfRange].map
    FaultKind.code = [1, 2, 3, 4, 5]) ∧
  ∀ (i : Instr) (s t : State), exec i s = .next t → t.fault ≠ s.fault →
    (∃ nnn, i = .call nnn ∧ s.sp = 16 ∧ t.fault = some ⟨.stackOverflow, encode i, s.pc⟩) ∨
    (i = .ret ∧ s.sp = 0 ∧ t.fault = some ⟨.stackUnderflow, encode i, s.pc⟩) ∨
    (∃ x, (i = .skp x ∨ i = .sknp x) ∧ 16 ≤ s.v[x].toNat ∧ t.fault = some ⟨.undefinedKeyIndex, encode i, s.pc⟩)

/-- R131, R33. A halted machine stays halted with its record and its whole final state, whatever is done to it but a
`load_rom`: no instruction and no tick changes it. That halting is terminal is the spec's own decision D15 (log entry 13). -/
def Obligations.HaltedStateIsPreserved : Prop :=
  ∀ s t : State, s.halted = true → step s = .next t →
    (s.frame = .idle → ∀ bytes rest, s.agenda ≠ .loadRom bytes :: rest) →
    KeepsAllBut [.keys, .fbChanged, .deadlineDraws, .frame, .agenda, .outputs] s t

/-- R19. The upper four bits of I are never observable by a program: two machines that differ only there take every step
alike, and go on differing only there. -/
def Obligations.UpperIndexBitsAreUnobservable : Prop :=
  ∀ s s' : State, EqualButIndexHigh s s' → OutcomesRelated EqualButIndexHigh (step s) (step s')

/-- R143. A program observes the keys only through Ex9E, ExA1 and Fx0A: any other instruction does the same whatever is
pressed. -/
def Obligations.KeysReachOnlyKeyInstructions : Prop :=
  ∀ (i : Instr) (s : State) (m : Vector Bool 16),
    (∀ x, i ≠ .skp x ∧ i ≠ .sknp x ∧ i ≠ .ldVxK x) →
    exec i (s.setKeys m) = mapNext (fun t => t.setKeys m) (exec i s)

/-- R51. The font is a parameter of the machine: no step, of the core, of a frame or of the host, changes the 80 bytes that
every `load_rom` puts at FONT_BASE, not even a program's store over the font in RAM. That they are a parameter is the
spec's own decision D5 (log entry 5). -/
def Obligations.FontIsAParameter : Prop :=
  ∀ s t : State, step s = .next t → t.font = s.font
end

