-- ==== Sys2Proof/Laws/Decode.lean ====
section
/-! SUPPORT. The fields of a packed word, the fields fixed by a mask, and the bytes of a word. -/

namespace Sys2Proof

/-! ### The bits of a packed word (R61, R62) -/

theorem getLsbD_packA (op : BitVec 4) (nnn : Addr) (i : Nat) :
    (packA op nnn).getLsbD i = if i < 12 then nnn.getLsbD i else op.getLsbD (i - 12) :=
  BitVec.getLsbD_append

theorem getLsbD_packXK (op : BitVec 4) (x : Reg) (kk : Byte) (i : Nat) :
    (packXK op x kk).getLsbD i =
      if i < 8 then kk.getLsbD i else if i < 12 then (BitVec.ofFin (w := 4) x).getLsbD (i - 8) else op.getLsbD (i - 12) := by
  have h : (packXK op x kk).getLsbD i =
      if i < 12 then (BitVec.ofFin (w := 4) x ++ kk).getLsbD i else op.getLsbD (i - 12) := BitVec.getLsbD_append
  rw [h, BitVec.getLsbD_append]
  by_cases h8 : i < 8
  · simp [h8, show i < 12 by omega]
  · simp [h8]

theorem getLsbD_packXYN (op : BitVec 4) (x y : Reg) (n : BitVec 4) (i : Nat) :
    (packXYN op x y n).getLsbD i =
      if i < 4 then n.getLsbD i else if i < 8 then (BitVec.ofFin (w := 4) y).getLsbD (i - 4)
      else if i < 12 then (BitVec.ofFin (w := 4) x).getLsbD (i - 8) else op.getLsbD (i - 12) := by
  have h : (packXYN op x y n).getLsbD i =
      if i < 12 then (BitVec.ofFin (w := 4) x ++ (BitVec.ofFin (w := 4) y ++ n)).getLsbD i else op.getLsbD (i - 12) :=
    BitVec.getLsbD_append
  have h' : (BitVec.ofFin (w := 4) x ++ (BitVec.ofFin (w := 4) y ++ n)).getLsbD i =
      if i < 8 then (BitVec.ofFin (w := 4) y ++ n).getLsbD i else (BitVec.ofFin (w := 4) x).getLsbD (i - 8) :=
    BitVec.getLsbD_append
  rw [h, h', BitVec.getLsbD_append]
  by_cases h4 : i < 4
  · simp [h4, show i < 8 by omega, show i < 12 by omega]
  · by_cases h8 : i < 8
    · simp [h4, h8, show i < 12 by omega]
    · simp [h4, h8]

/-! ### The fields of a packed word (R61, R62) -/

@[simp] theorem fieldOp_packA (op : BitVec 4) (nnn : Addr) : fieldOp (packA op nnn) = op := by
  apply BitVec.eq_of_getLsbD_eq; intro i hi
  simp [fieldOp, getLsbD_packA, hi]

@[simp] theorem fieldNnn_packA (op : BitVec 4) (nnn : Addr) : fieldNnn (packA op nnn) = nnn := by
  apply BitVec.eq_of_getLsbD_eq; intro i hi
  simp [fieldNnn, getLsbD_packA, hi]

@[simp] theorem fieldOp_packXK (op : BitVec 4) (x : Reg) (kk : Byte) : fieldOp (packXK op x kk) = op := by
  apply BitVec.eq_of_getLsbD_eq; intro i hi
  simp [fieldOp, getLsbD_packXK, hi, show ¬ 12 + i < 8 by omega]

@[simp] theorem fieldX_packXK (op : BitVec 4) (x : Reg) (kk : Byte) : fieldX (packXK op x kk) = x := by
  have : (packXK op x kk).extractLsb' 8 4 = BitVec.ofFin (w := 4) x := by
    apply BitVec.eq_of_getLsbD_eq; intro i hi
    simp [getLsbD_packXK, hi, show 8 + i < 12 by omega]
  simp [fieldX, this]

@[simp] theorem fieldKk_packXK (op : BitVec 4) (x : Reg) (kk : Byte) : fieldKk (packXK op x kk) = kk := by
  apply BitVec.eq_of_getLsbD_eq; intro i hi
  simp [fieldKk, getLsbD_packXK, hi]

@[simp] theorem fieldOp_packXYN (op : BitVec 4) (x y : Reg) (n : BitVec 4) : fieldOp (packXYN op x y n) = op := by
  apply BitVec.eq_of_getLsbD_eq; intro i hi
  simp [fieldOp, getLsbD_packXYN, hi, show ¬ 12 + i < 4 by omega, show ¬ 12 + i < 8 by omega]

@[simp] theorem fieldX_packXYN (op : BitVec 4) (x y : Reg) (n : BitVec 4) : fieldX (packXYN op x y n) = x := by
  have : (packXYN op x y n).extractLsb' 8 4 = BitVec.ofFin (w := 4) x := by
    apply BitVec.eq_of_getLsbD_eq; intro i hi
    simp [getLsbD_packXYN, hi, show ¬ 8 + i < 4 by omega, show 8 + i < 12 by omega]
  simp [fieldX, this]

@[simp] theorem fieldY_packXYN (op : BitVec 4) (x y : Reg) (n : BitVec 4) : fieldY (packXYN op x y n) = y := by
  have : (packXYN op x y n).extractLsb' 4 4 = BitVec.ofFin (w := 4) y := by
    apply BitVec.eq_of_getLsbD_eq; intro i hi
    simp [getLsbD_packXYN, hi, show 4 + i < 8 by omega]
  simp [fieldY, this]

@[simp] theorem fieldN_packXYN (op : BitVec 4) (x y : Reg) (n : BitVec 4) :
    fieldN (packXYN op x y n) = n.toNat := by
  have : (packXYN op x y n).extractLsb' 0 4 = n := by
    apply BitVec.eq_of_getLsbD_eq; intro i hi
    simp [getLsbD_packXYN, hi]
  simp [fieldN, this]

/-! ### Masking a packed word (R64) -/

theorem packA_and (op op' : BitVec 4) (n n' : Addr) : packA op n &&& packA op' n' = packA (op &&& op') (n &&& n') := by
  apply BitVec.eq_of_getLsbD_eq; intro i _
  simp only [BitVec.getLsbD_and, getLsbD_packA]
  split <;> rfl

theorem packXK_and (op op' : BitVec 4) (x : Reg) (kk kk' : Byte) :
    packXK op x kk &&& packXK op' 0 kk' = packXK (op &&& op') 0 (kk &&& kk') := by
  apply BitVec.eq_of_getLsbD_eq; intro i _
  simp only [BitVec.getLsbD_and, getLsbD_packXK]
  split
  · rfl
  · split
    · simp
    · rfl

theorem packXYN_and (op op' : BitVec 4) (x y : Reg) (n n' : BitVec 4) :
    packXYN op x y n &&& packXYN op' 0 0 n' = packXYN (op &&& op') 0 0 (n &&& n') := by
  apply BitVec.eq_of_getLsbD_eq; intro i _
  simp only [BitVec.getLsbD_and, getLsbD_packXYN]
  split
  · rfl
  · split
    · simp
    · split
      · simp
      · rfl

/-- The op field of formats A, XK and XYN alone. -/
theorem packA_and_F000 (op : BitVec 4) (nnn : Addr) : packA op nnn &&& 0xF000 = packA op 0 := by
  have := packA_and op 0xF nnn 0
  rwa [show op &&& 0xF = op from BitVec.and_allOnes, show nnn &&& 0 = 0 from BitVec.and_zero] at this

theorem packXK_and_F000 (op : BitVec 4) (x : Reg) (kk : Byte) : packXK op x kk &&& 0xF000 = packXK op 0 0 := by
  have := packXK_and op 0xF x kk 0
  rwa [show op &&& 0xF = op from BitVec.and_allOnes, show kk &&& 0 = 0 from BitVec.and_zero] at this

theorem packXK_and_F0FF (op : BitVec 4) (x : Reg) (kk : Byte) : packXK op x kk &&& 0xF0FF = packXK op 0 kk := by
  have := packXK_and op 0xF x kk 0xFF
  rwa [show op &&& 0xF = op from BitVec.and_allOnes, show kk &&& 0xFF = kk from BitVec.and_allOnes] at this

theorem packXYN_and_F00F (op : BitVec 4) (x y : Reg) (n : BitVec 4) :
    packXYN op x y n &&& 0xF00F = packXYN op 0 0 n := by
  have := packXYN_and op 0xF x y n 0xF
  rwa [show op &&& 0xF = op from BitVec.and_allOnes, show n &&& 0xF = n from BitVec.and_allOnes] at this

theorem packXYN_and_F000 (op : BitVec 4) (x y : Reg) (n : BitVec 4) :
    packXYN op x y n &&& 0xF000 = packXYN op 0 0 0 := by
  have := packXYN_and op 0xF x y n 0
  rwa [show op &&& 0xF = op from BitVec.and_allOnes, show n &&& 0 = 0 from BitVec.and_zero] at this

/-! ### The fields a mask fixes (R64) -/

theorem fieldOp_of_masked {w mask fixed : Word} (h : w &&& mask = fixed) (hm : fieldOp mask = BitVec.allOnes 4) :
    fieldOp w = fieldOp fixed := by
  unfold fieldOp at *
  rw [← h, BitVec.extractLsb'_and, hm, BitVec.and_allOnes]

theorem fieldKk_of_masked {w mask fixed : Word} (h : w &&& mask = fixed) (hm : fieldKk mask = BitVec.allOnes 8) :
    fieldKk w = fieldKk fixed := by
  unfold fieldKk at *
  rw [← h, BitVec.extractLsb'_and, hm, BitVec.and_allOnes]

theorem fieldN_of_masked {w mask fixed : Word} (h : w &&& mask = fixed)
    (hm : mask.extractLsb' 0 4 = BitVec.allOnes 4) : fieldN w = fieldN fixed := by
  unfold fieldN
  rw [← h, BitVec.extractLsb'_and, hm, BitVec.and_allOnes]

/-- A word is its op and nnn fields (R61). -/
theorem packA_fields (w : Word) : packA (fieldOp w) (fieldNnn w) = w := by
  apply BitVec.eq_of_getLsbD_eq; intro i hi
  simp only [getLsbD_packA, fieldOp, fieldNnn, BitVec.getLsbD_extractLsb']
  split
  · simp [*]
  · simp [show i - 12 < 4 by omega, show 12 + (i - 12) = i by omega]

/-- A word is its op, x and kk fields (R61). -/
theorem packXK_fields (w : Word) : packXK (fieldOp w) (fieldX w) (fieldKk w) = w := by
  apply BitVec.eq_of_getLsbD_eq; intro i hi
  have hx : BitVec.ofFin (w := 4) (fieldX w) = w.extractLsb' 8 4 := rfl
  simp only [getLsbD_packXK, hx, fieldOp, fieldKk, BitVec.getLsbD_extractLsb']
  split
  · simp [*]
  · split
    · simp [show i - 8 < 4 by omega, show 8 + (i - 8) = i by omega]
    · simp [show i - 12 < 4 by omega, show 12 + (i - 12) = i by omega]

/-- A word is its op, x, y and n fields (R61). -/
theorem packXYN_fields (w : Word) : packXYN (fieldOp w) (fieldX w) (fieldY w) (BitVec.ofNat 4 (fieldN w)) = w := by
  apply BitVec.eq_of_getLsbD_eq; intro i hi
  have hx : BitVec.ofFin (w := 4) (fieldX w) = w.extractLsb' 8 4 := rfl
  have hy : BitVec.ofFin (w := 4) (fieldY w) = w.extractLsb' 4 4 := rfl
  have hn : BitVec.ofNat 4 (fieldN w) = w.extractLsb' 0 4 := BitVec.ofNat_toNat _ _
  simp only [getLsbD_packXYN, hx, hy, hn, fieldOp, BitVec.getLsbD_extractLsb']
  split
  · simp [*]
  · split
    · simp [show i - 4 < 4 by omega, show 4 + (i - 4) = i by omega]
    · split
      · simp [show i - 8 < 4 by omega, show 8 + (i - 8) = i by omega]
      · simp [show i - 12 < 4 by omega, show 12 + (i - 12) = i by omega]

theorem fieldN_lt (w : Word) : fieldN w < 16 := (w.extractLsb' 0 4).isLt

/-! ### Bytes (R55) -/

theorem getLsbD_wordOfBytes (hi lo : Byte) (i : Nat) :
    (wordOfBytes hi lo).getLsbD i = if i < 8 then lo.getLsbD i else hi.getLsbD (i - 8) :=
  BitVec.getLsbD_append

@[simp] theorem wordOfBytes_hiByte_loByte (w : Word) : wordOfBytes (hiByte w) (loByte w) = w := by
  apply BitVec.eq_of_getLsbD_eq; intro i hi
  simp only [getLsbD_wordOfBytes, hiByte, loByte, BitVec.getLsbD_extractLsb']
  split
  · simp [*]
  · simp [show i - 8 < 8 by omega, show 8 + (i - 8) = i by omega]

@[simp] theorem hiByte_wordOfBytes (hi lo : Byte) : hiByte (wordOfBytes hi lo) = hi := by
  apply BitVec.eq_of_getLsbD_eq; intro i hi
  simp [hiByte, getLsbD_wordOfBytes, hi]

@[simp] theorem loByte_wordOfBytes (hi lo : Byte) : loByte (wordOfBytes hi lo) = lo := by
  apply BitVec.eq_of_getLsbD_eq; intro i hi
  simp [loByte, getLsbD_wordOfBytes, hi]

end Sys2Proof
end

