-- ==== Sys2Proof/Laws/State.lean ====
section
/-! SUPPORT. One lemma per field per update, so that no later proof unfolds a record update. -/

namespace Sys2Proof.Machine

variable (s : State)

/-! ### setV -/

@[simp] theorem State.setV_v (x : Reg) (b : Byte) : (s.setV x b).v = s.v.set x b := rfl
@[simp] theorem State.setV_i (x : Reg) (b : Byte) : (s.setV x b).i = s.i := rfl
@[simp] theorem State.setV_pc (x : Reg) (b : Byte) : (s.setV x b).pc = s.pc := rfl
@[simp] theorem State.setV_sp (x : Reg) (b : Byte) : (s.setV x b).sp = s.sp := rfl
@[simp] theorem State.setV_stack (x : Reg) (b : Byte) : (s.setV x b).stack = s.stack := rfl
@[simp] theorem State.setV_dt (x : Reg) (b : Byte) : (s.setV x b).dt = s.dt := rfl
@[simp] theorem State.setV_st (x : Reg) (b : Byte) : (s.setV x b).st = s.st := rfl
@[simp] theorem State.setV_mem (x : Reg) (b : Byte) : (s.setV x b).mem = s.mem := rfl
@[simp] theorem State.setV_fb (x : Reg) (b : Byte) : (s.setV x b).fb = s.fb := rfl
@[simp] theorem State.setV_keys (x : Reg) (b : Byte) : (s.setV x b).keys = s.keys := rfl
@[simp] theorem State.setV_waitingForKey (x : Reg) (b : Byte) : (s.setV x b).waitingForKey = s.waitingForKey := rfl
@[simp] theorem State.setV_keyPrev (x : Reg) (b : Byte) : (s.setV x b).keyPrev = s.keyPrev := rfl
@[simp] theorem State.setV_halted (x : Reg) (b : Byte) : (s.setV x b).halted = s.halted := rfl
@[simp] theorem State.setV_fault (x : Reg) (b : Byte) : (s.setV x b).fault = s.fault := rfl
@[simp] theorem State.setV_fbChanged (x : Reg) (b : Byte) : (s.setV x b).fbChanged = s.fbChanged := rfl
@[simp] theorem State.setV_rngDraws (x : Reg) (b : Byte) : (s.setV x b).rngDraws = s.rngDraws := rfl
@[simp] theorem State.setV_font (x : Reg) (b : Byte) : (s.setV x b).font = s.font := rfl
@[simp] theorem State.setV_deadlineDraws (x : Reg) (b : Byte) : (s.setV x b).deadlineDraws = s.deadlineDraws := rfl
@[simp] theorem State.setV_frame (x : Reg) (b : Byte) : (s.setV x b).frame = s.frame := rfl
@[simp] theorem State.setV_agenda (x : Reg) (b : Byte) : (s.setV x b).agenda = s.agenda := rfl
@[simp] theorem State.setV_outputs (x : Reg) (b : Byte) : (s.setV x b).outputs = s.outputs := rfl

/-! ### setI -/

@[simp] theorem State.setI_v (a : Word) : (s.setI a).v = s.v := rfl
@[simp] theorem State.setI_i (a : Word) : (s.setI a).i = a := rfl
@[simp] theorem State.setI_pc (a : Word) : (s.setI a).pc = s.pc := rfl
@[simp] theorem State.setI_sp (a : Word) : (s.setI a).sp = s.sp := rfl
@[simp] theorem State.setI_stack (a : Word) : (s.setI a).stack = s.stack := rfl
@[simp] theorem State.setI_dt (a : Word) : (s.setI a).dt = s.dt := rfl
@[simp] theorem State.setI_st (a : Word) : (s.setI a).st = s.st := rfl
@[simp] theorem State.setI_mem (a : Word) : (s.setI a).mem = s.mem := rfl
@[simp] theorem State.setI_fb (a : Word) : (s.setI a).fb = s.fb := rfl
@[simp] theorem State.setI_keys (a : Word) : (s.setI a).keys = s.keys := rfl
@[simp] theorem State.setI_waitingForKey (a : Word) : (s.setI a).waitingForKey = s.waitingForKey := rfl
@[simp] theorem State.setI_keyPrev (a : Word) : (s.setI a).keyPrev = s.keyPrev := rfl
@[simp] theorem State.setI_halted (a : Word) : (s.setI a).halted = s.halted := rfl
@[simp] theorem State.setI_fault (a : Word) : (s.setI a).fault = s.fault := rfl
@[simp] theorem State.setI_fbChanged (a : Word) : (s.setI a).fbChanged = s.fbChanged := rfl
@[simp] theorem State.setI_rngDraws (a : Word) : (s.setI a).rngDraws = s.rngDraws := rfl
@[simp] theorem State.setI_font (a : Word) : (s.setI a).font = s.font := rfl
@[simp] theorem State.setI_deadlineDraws (a : Word) : (s.setI a).deadlineDraws = s.deadlineDraws := rfl
@[simp] theorem State.setI_frame (a : Word) : (s.setI a).frame = s.frame := rfl
@[simp] theorem State.setI_agenda (a : Word) : (s.setI a).agenda = s.agenda := rfl
@[simp] theorem State.setI_outputs (a : Word) : (s.setI a).outputs = s.outputs := rfl

/-! ### setPc -/

@[simp] theorem State.setPc_v (t : Word) : (s.setPc t).v = s.v := rfl
@[simp] theorem State.setPc_i (t : Word) : (s.setPc t).i = s.i := rfl
@[simp] theorem State.setPc_pc (t : Word) : (s.setPc t).pc = mask12 t := rfl
@[simp] theorem State.setPc_sp (t : Word) : (s.setPc t).sp = s.sp := rfl
@[simp] theorem State.setPc_stack (t : Word) : (s.setPc t).stack = s.stack := rfl
@[simp] theorem State.setPc_dt (t : Word) : (s.setPc t).dt = s.dt := rfl
@[simp] theorem State.setPc_st (t : Word) : (s.setPc t).st = s.st := rfl
@[simp] theorem State.setPc_mem (t : Word) : (s.setPc t).mem = s.mem := rfl
@[simp] theorem State.setPc_fb (t : Word) : (s.setPc t).fb = s.fb := rfl
@[simp] theorem State.setPc_keys (t : Word) : (s.setPc t).keys = s.keys := rfl
@[simp] theorem State.setPc_waitingForKey (t : Word) : (s.setPc t).waitingForKey = s.waitingForKey := rfl
@[simp] theorem State.setPc_keyPrev (t : Word) : (s.setPc t).keyPrev = s.keyPrev := rfl
@[simp] theorem State.setPc_halted (t : Word) : (s.setPc t).halted = s.halted := rfl
@[simp] theorem State.setPc_fault (t : Word) : (s.setPc t).fault = s.fault := rfl
@[simp] theorem State.setPc_fbChanged (t : Word) : (s.setPc t).fbChanged = s.fbChanged := rfl
@[simp] theorem State.setPc_rngDraws (t : Word) : (s.setPc t).rngDraws = s.rngDraws := rfl
@[simp] theorem State.setPc_font (t : Word) : (s.setPc t).font = s.font := rfl
@[simp] theorem State.setPc_deadlineDraws (t : Word) : (s.setPc t).deadlineDraws = s.deadlineDraws := rfl
@[simp] theorem State.setPc_frame (t : Word) : (s.setPc t).frame = s.frame := rfl
@[simp] theorem State.setPc_agenda (t : Word) : (s.setPc t).agenda = s.agenda := rfl
@[simp] theorem State.setPc_outputs (t : Word) : (s.setPc t).outputs = s.outputs := rfl

/-! ### advance -/

@[simp] theorem State.advance_v : s.advance.v = s.v := rfl
@[simp] theorem State.advance_i : s.advance.i = s.i := rfl
@[simp] theorem State.advance_pc : s.advance.pc = mask12 (s.pc + 2) := rfl
@[simp] theorem State.advance_sp : s.advance.sp = s.sp := rfl
@[simp] theorem State.advance_stack : s.advance.stack = s.stack := rfl
@[simp] theorem State.advance_dt : s.advance.dt = s.dt := rfl
@[simp] theorem State.advance_st : s.advance.st = s.st := rfl
@[simp] theorem State.advance_mem : s.advance.mem = s.mem := rfl
@[simp] theorem State.advance_fb : s.advance.fb = s.fb := rfl
@[simp] theorem State.advance_keys : s.advance.keys = s.keys := rfl
@[simp] theorem State.advance_waitingForKey : s.advance.waitingForKey = s.waitingForKey := rfl
@[simp] theorem State.advance_keyPrev : s.advance.keyPrev = s.keyPrev := rfl
@[simp] theorem State.advance_halted : s.advance.halted = s.halted := rfl
@[simp] theorem State.advance_fault : s.advance.fault = s.fault := rfl
@[simp] theorem State.advance_fbChanged : s.advance.fbChanged = s.fbChanged := rfl
@[simp] theorem State.advance_rngDraws : s.advance.rngDraws = s.rngDraws := rfl
@[simp] theorem State.advance_font : s.advance.font = s.font := rfl
@[simp] theorem State.advance_deadlineDraws : s.advance.deadlineDraws = s.deadlineDraws := rfl
@[simp] theorem State.advance_frame : s.advance.frame = s.frame := rfl
@[simp] theorem State.advance_agenda : s.advance.agenda = s.agenda := rfl
@[simp] theorem State.advance_outputs : s.advance.outputs = s.outputs := rfl

/-! ### writeByte -/

@[simp] theorem State.writeByte_v (a : Word) (b : Byte) : (s.writeByte a b).v = s.v := rfl
@[simp] theorem State.writeByte_i (a : Word) (b : Byte) : (s.writeByte a b).i = s.i := rfl
@[simp] theorem State.writeByte_pc (a : Word) (b : Byte) : (s.writeByte a b).pc = s.pc := rfl
@[simp] theorem State.writeByte_sp (a : Word) (b : Byte) : (s.writeByte a b).sp = s.sp := rfl
@[simp] theorem State.writeByte_stack (a : Word) (b : Byte) : (s.writeByte a b).stack = s.stack := rfl
@[simp] theorem State.writeByte_dt (a : Word) (b : Byte) : (s.writeByte a b).dt = s.dt := rfl
@[simp] theorem State.writeByte_st (a : Word) (b : Byte) : (s.writeByte a b).st = s.st := rfl
@[simp] theorem State.writeByte_mem (a : Word) (b : Byte) : (s.writeByte a b).mem = s.mem.write s.font (mask12 a).toNat b := rfl
@[simp] theorem State.writeByte_fb (a : Word) (b : Byte) : (s.writeByte a b).fb = s.fb := rfl
@[simp] theorem State.writeByte_keys (a : Word) (b : Byte) : (s.writeByte a b).keys = s.keys := rfl
@[simp] theorem State.writeByte_waitingForKey (a : Word) (b : Byte) : (s.writeByte a b).waitingForKey = s.waitingForKey := rfl
@[simp] theorem State.writeByte_keyPrev (a : Word) (b : Byte) : (s.writeByte a b).keyPrev = s.keyPrev := rfl
@[simp] theorem State.writeByte_halted (a : Word) (b : Byte) : (s.writeByte a b).halted = s.halted := rfl
@[simp] theorem State.writeByte_fault (a : Word) (b : Byte) : (s.writeByte a b).fault = s.fault := rfl
@[simp] theorem State.writeByte_fbChanged (a : Word) (b : Byte) : (s.writeByte a b).fbChanged = s.fbChanged := rfl
@[simp] theorem State.writeByte_rngDraws (a : Word) (b : Byte) : (s.writeByte a b).rngDraws = s.rngDraws := rfl
@[simp] theorem State.writeByte_font (a : Word) (b : Byte) : (s.writeByte a b).font = s.font := rfl
@[simp] theorem State.writeByte_deadlineDraws (a : Word) (b : Byte) : (s.writeByte a b).deadlineDraws = s.deadlineDraws := rfl
@[simp] theorem State.writeByte_frame (a : Word) (b : Byte) : (s.writeByte a b).frame = s.frame := rfl
@[simp] theorem State.writeByte_agenda (a : Word) (b : Byte) : (s.writeByte a b).agenda = s.agenda := rfl
@[simp] theorem State.writeByte_outputs (a : Word) (b : Byte) : (s.writeByte a b).outputs = s.outputs := rfl

/-! ### emit -/

@[simp] theorem State.emit_v (o : HostOut) : (s.emit o).v = s.v := rfl
@[simp] theorem State.emit_i (o : HostOut) : (s.emit o).i = s.i := rfl
@[simp] theorem State.emit_pc (o : HostOut) : (s.emit o).pc = s.pc := rfl
@[simp] theorem State.emit_sp (o : HostOut) : (s.emit o).sp = s.sp := rfl
@[simp] theorem State.emit_stack (o : HostOut) : (s.emit o).stack = s.stack := rfl
@[simp] theorem State.emit_dt (o : HostOut) : (s.emit o).dt = s.dt := rfl
@[simp] theorem State.emit_st (o : HostOut) : (s.emit o).st = s.st := rfl
@[simp] theorem State.emit_mem (o : HostOut) : (s.emit o).mem = s.mem := rfl
@[simp] theorem State.emit_fb (o : HostOut) : (s.emit o).fb = s.fb := rfl
@[simp] theorem State.emit_keys (o : HostOut) : (s.emit o).keys = s.keys := rfl
@[simp] theorem State.emit_waitingForKey (o : HostOut) : (s.emit o).waitingForKey = s.waitingForKey := rfl
@[simp] theorem State.emit_keyPrev (o : HostOut) : (s.emit o).keyPrev = s.keyPrev := rfl
@[simp] theorem State.emit_halted (o : HostOut) : (s.emit o).halted = s.halted := rfl
@[simp] theorem State.emit_fault (o : HostOut) : (s.emit o).fault = s.fault := rfl
@[simp] theorem State.emit_fbChanged (o : HostOut) : (s.emit o).fbChanged = s.fbChanged := rfl
@[simp] theorem State.emit_rngDraws (o : HostOut) : (s.emit o).rngDraws = s.rngDraws := rfl
@[simp] theorem State.emit_font (o : HostOut) : (s.emit o).font = s.font := rfl
@[simp] theorem State.emit_deadlineDraws (o : HostOut) : (s.emit o).deadlineDraws = s.deadlineDraws := rfl
@[simp] theorem State.emit_frame (o : HostOut) : (s.emit o).frame = s.frame := rfl
@[simp] theorem State.emit_agenda (o : HostOut) : (s.emit o).agenda = s.agenda := rfl
@[simp] theorem State.emit_outputs (o : HostOut) : (s.emit o).outputs = o :: s.outputs := rfl

/-! ### setResultAndFlag -/

@[simp] theorem State.setResultAndFlag_v (x : Reg) (r f : Byte) : (s.setResultAndFlag x r f).v = (s.v.set x r).set regVF f := rfl
@[simp] theorem State.setResultAndFlag_i (x : Reg) (r f : Byte) : (s.setResultAndFlag x r f).i = s.i := rfl
@[simp] theorem State.setResultAndFlag_pc (x : Reg) (r f : Byte) : (s.setResultAndFlag x r f).pc = s.pc := rfl
@[simp] theorem State.setResultAndFlag_sp (x : Reg) (r f : Byte) : (s.setResultAndFlag x r f).sp = s.sp := rfl
@[simp] theorem State.setResultAndFlag_stack (x : Reg) (r f : Byte) : (s.setResultAndFlag x r f).stack = s.stack := rfl
@[simp] theorem State.setResultAndFlag_dt (x : Reg) (r f : Byte) : (s.setResultAndFlag x r f).dt = s.dt := rfl
@[simp] theorem State.setResultAndFlag_st (x : Reg) (r f : Byte) : (s.setResultAndFlag x r f).st = s.st := rfl
@[simp] theorem State.setResultAndFlag_mem (x : Reg) (r f : Byte) : (s.setResultAndFlag x r f).mem = s.mem := rfl
@[simp] theorem State.setResultAndFlag_fb (x : Reg) (r f : Byte) : (s.setResultAndFlag x r f).fb = s.fb := rfl
@[simp] theorem State.setResultAndFlag_keys (x : Reg) (r f : Byte) : (s.setResultAndFlag x r f).keys = s.keys := rfl
@[simp] theorem State.setResultAndFlag_waitingForKey (x : Reg) (r f : Byte) : (s.setResultAndFlag x r f).waitingForKey = s.waitingForKey := rfl
@[simp] theorem State.setResultAndFlag_keyPrev (x : Reg) (r f : Byte) : (s.setResultAndFlag x r f).keyPrev = s.keyPrev := rfl
@[simp] theorem State.setResultAndFlag_halted (x : Reg) (r f : Byte) : (s.setResultAndFlag x r f).halted = s.halted := rfl
@[simp] theorem State.setResultAndFlag_fault (x : Reg) (r f : Byte) : (s.setResultAndFlag x r f).fault = s.fault := rfl
@[simp] theorem State.setResultAndFlag_fbChanged (x : Reg) (r f : Byte) : (s.setResultAndFlag x r f).fbChanged = s.fbChanged := rfl
@[simp] theorem State.setResultAndFlag_rngDraws (x : Reg) (r f : Byte) : (s.setResultAndFlag x r f).rngDraws = s.rngDraws := rfl
@[simp] theorem State.setResultAndFlag_font (x : Reg) (r f : Byte) : (s.setResultAndFlag x r f).font = s.font := rfl
@[simp] theorem State.setResultAndFlag_deadlineDraws (x : Reg) (r f : Byte) : (s.setResultAndFlag x r f).deadlineDraws = s.deadlineDraws := rfl
@[simp] theorem State.setResultAndFlag_frame (x : Reg) (r f : Byte) : (s.setResultAndFlag x r f).frame = s.frame := rfl
@[simp] theorem State.setResultAndFlag_agenda (x : Reg) (r f : Byte) : (s.setResultAndFlag x r f).agenda = s.agenda := rfl
@[simp] theorem State.setResultAndFlag_outputs (x : Reg) (r f : Byte) : (s.setResultAndFlag x r f).outputs = s.outputs := rfl

/-! ### raise -/

@[simp] theorem State.raise_v (k : FaultKind) (w : Word) : (s.raise k w).v = s.v := rfl
@[simp] theorem State.raise_i (k : FaultKind) (w : Word) : (s.raise k w).i = s.i := rfl
@[simp] theorem State.raise_pc (k : FaultKind) (w : Word) : (s.raise k w).pc = mask12 (s.pc + 2) := rfl
@[simp] theorem State.raise_sp (k : FaultKind) (w : Word) : (s.raise k w).sp = s.sp := rfl
@[simp] theorem State.raise_stack (k : FaultKind) (w : Word) : (s.raise k w).stack = s.stack := rfl
@[simp] theorem State.raise_dt (k : FaultKind) (w : Word) : (s.raise k w).dt = s.dt := rfl
@[simp] theorem State.raise_st (k : FaultKind) (w : Word) : (s.raise k w).st = s.st := rfl
@[simp] theorem State.raise_mem (k : FaultKind) (w : Word) : (s.raise k w).mem = s.mem := rfl
@[simp] theorem State.raise_fb (k : FaultKind) (w : Word) : (s.raise k w).fb = s.fb := rfl
@[simp] theorem State.raise_keys (k : FaultKind) (w : Word) : (s.raise k w).keys = s.keys := rfl
@[simp] theorem State.raise_waitingForKey (k : FaultKind) (w : Word) : (s.raise k w).waitingForKey = s.waitingForKey := rfl
@[simp] theorem State.raise_keyPrev (k : FaultKind) (w : Word) : (s.raise k w).keyPrev = s.keyPrev := rfl
@[simp] theorem State.raise_halted (k : FaultKind) (w : Word) : (s.raise k w).halted = true := rfl
@[simp] theorem State.raise_fault (k : FaultKind) (w : Word) : (s.raise k w).fault = some ⟨k, w, s.pc⟩ := rfl
@[simp] theorem State.raise_fbChanged (k : FaultKind) (w : Word) : (s.raise k w).fbChanged = s.fbChanged := rfl
@[simp] theorem State.raise_rngDraws (k : FaultKind) (w : Word) : (s.raise k w).rngDraws = s.rngDraws := rfl
@[simp] theorem State.raise_font (k : FaultKind) (w : Word) : (s.raise k w).font = s.font := rfl
@[simp] theorem State.raise_deadlineDraws (k : FaultKind) (w : Word) : (s.raise k w).deadlineDraws = s.deadlineDraws := rfl
@[simp] theorem State.raise_frame (k : FaultKind) (w : Word) : (s.raise k w).frame = s.frame := rfl
@[simp] theorem State.raise_agenda (k : FaultKind) (w : Word) : (s.raise k w).agenda = s.agenda := rfl
@[simp] theorem State.raise_outputs (k : FaultKind) (w : Word) : (s.raise k w).outputs = s.outputs := rfl

/-! ### awaitKey -/

@[simp] theorem State.awaitKey_v : s.awaitKey.v = s.v := rfl
@[simp] theorem State.awaitKey_i : s.awaitKey.i = s.i := rfl
@[simp] theorem State.awaitKey_pc : s.awaitKey.pc = mask12 s.pc := rfl
@[simp] theorem State.awaitKey_sp : s.awaitKey.sp = s.sp := rfl
@[simp] theorem State.awaitKey_stack : s.awaitKey.stack = s.stack := rfl
@[simp] theorem State.awaitKey_dt : s.awaitKey.dt = s.dt := rfl
@[simp] theorem State.awaitKey_st : s.awaitKey.st = s.st := rfl
@[simp] theorem State.awaitKey_mem : s.awaitKey.mem = s.mem := rfl
@[simp] theorem State.awaitKey_fb : s.awaitKey.fb = s.fb := rfl
@[simp] theorem State.awaitKey_keys : s.awaitKey.keys = s.keys := rfl
@[simp] theorem State.awaitKey_waitingForKey : s.awaitKey.waitingForKey = true := rfl
@[simp] theorem State.awaitKey_keyPrev : s.awaitKey.keyPrev = s.keys := rfl
@[simp] theorem State.awaitKey_halted : s.awaitKey.halted = s.halted := rfl
@[simp] theorem State.awaitKey_fault : s.awaitKey.fault = s.fault := rfl
@[simp] theorem State.awaitKey_fbChanged : s.awaitKey.fbChanged = s.fbChanged := rfl
@[simp] theorem State.awaitKey_rngDraws : s.awaitKey.rngDraws = s.rngDraws := rfl
@[simp] theorem State.awaitKey_font : s.awaitKey.font = s.font := rfl
@[simp] theorem State.awaitKey_deadlineDraws : s.awaitKey.deadlineDraws = s.deadlineDraws := rfl
@[simp] theorem State.awaitKey_frame : s.awaitKey.frame = s.frame := rfl
@[simp] theorem State.awaitKey_agenda : s.awaitKey.agenda = s.agenda := rfl
@[simp] theorem State.awaitKey_outputs : s.awaitKey.outputs = s.outputs := rfl

/-! ### loadImage -/

@[simp] theorem State.loadImage_v (bytes : List Byte) : (s.loadImage bytes).v = State.reset.v := rfl
@[simp] theorem State.loadImage_i (bytes : List Byte) : (s.loadImage bytes).i = 0 := rfl
@[simp] theorem State.loadImage_pc (bytes : List Byte) : (s.loadImage bytes).pc = 0x200 := rfl
@[simp] theorem State.loadImage_sp (bytes : List Byte) : (s.loadImage bytes).sp = 0 := rfl
@[simp] theorem State.loadImage_stack (bytes : List Byte) : (s.loadImage bytes).stack = State.reset.stack := rfl
@[simp] theorem State.loadImage_dt (bytes : List Byte) : (s.loadImage bytes).dt = 0 := rfl
@[simp] theorem State.loadImage_st (bytes : List Byte) : (s.loadImage bytes).st = 0 := rfl
@[simp] theorem State.loadImage_mem (bytes : List Byte) : (s.loadImage bytes).mem = Memory.ofImage s.font Config.romBase bytes := rfl
@[simp] theorem State.loadImage_fb (bytes : List Byte) : (s.loadImage bytes).fb = State.reset.fb := rfl
@[simp] theorem State.loadImage_keys (bytes : List Byte) : (s.loadImage bytes).keys = State.reset.keys := rfl
@[simp] theorem State.loadImage_waitingForKey (bytes : List Byte) : (s.loadImage bytes).waitingForKey = false := rfl
@[simp] theorem State.loadImage_keyPrev (bytes : List Byte) : (s.loadImage bytes).keyPrev = State.reset.keyPrev := rfl
@[simp] theorem State.loadImage_halted (bytes : List Byte) : (s.loadImage bytes).halted = false := rfl
@[simp] theorem State.loadImage_fault (bytes : List Byte) : (s.loadImage bytes).fault = none := rfl
@[simp] theorem State.loadImage_fbChanged (bytes : List Byte) : (s.loadImage bytes).fbChanged = false := rfl
@[simp] theorem State.loadImage_rngDraws (bytes : List Byte) : (s.loadImage bytes).rngDraws = s.rngDraws := rfl
@[simp] theorem State.loadImage_font (bytes : List Byte) : (s.loadImage bytes).font = s.font := rfl
@[simp] theorem State.loadImage_deadlineDraws (bytes : List Byte) : (s.loadImage bytes).deadlineDraws = s.deadlineDraws := rfl
@[simp] theorem State.loadImage_frame (bytes : List Byte) : (s.loadImage bytes).frame = .idle := rfl
@[simp] theorem State.loadImage_agenda (bytes : List Byte) : (s.loadImage bytes).agenda = s.agenda := rfl
@[simp] theorem State.loadImage_outputs (bytes : List Byte) : (s.loadImage bytes).outputs = if s.soundOn then .beep false :: s.outputs else s.outputs := rfl

/-! ### setFrame -/

@[simp] theorem State.setFrame_v (f : FramePhase) : (s.setFrame f).v = s.v := rfl
@[simp] theorem State.setFrame_i (f : FramePhase) : (s.setFrame f).i = s.i := rfl
@[simp] theorem State.setFrame_pc (f : FramePhase) : (s.setFrame f).pc = s.pc := rfl
@[simp] theorem State.setFrame_sp (f : FramePhase) : (s.setFrame f).sp = s.sp := rfl
@[simp] theorem State.setFrame_stack (f : FramePhase) : (s.setFrame f).stack = s.stack := rfl
@[simp] theorem State.setFrame_dt (f : FramePhase) : (s.setFrame f).dt = s.dt := rfl
@[simp] theorem State.setFrame_st (f : FramePhase) : (s.setFrame f).st = s.st := rfl
@[simp] theorem State.setFrame_mem (f : FramePhase) : (s.setFrame f).mem = s.mem := rfl
@[simp] theorem State.setFrame_fb (f : FramePhase) : (s.setFrame f).fb = s.fb := rfl
@[simp] theorem State.setFrame_keys (f : FramePhase) : (s.setFrame f).keys = s.keys := rfl
@[simp] theorem State.setFrame_waitingForKey (f : FramePhase) : (s.setFrame f).waitingForKey = s.waitingForKey := rfl
@[simp] theorem State.setFrame_keyPrev (f : FramePhase) : (s.setFrame f).keyPrev = s.keyPrev := rfl
@[simp] theorem State.setFrame_halted (f : FramePhase) : (s.setFrame f).halted = s.halted := rfl
@[simp] theorem State.setFrame_fault (f : FramePhase) : (s.setFrame f).fault = s.fault := rfl
@[simp] theorem State.setFrame_fbChanged (f : FramePhase) : (s.setFrame f).fbChanged = s.fbChanged := rfl
@[simp] theorem State.setFrame_rngDraws (f : FramePhase) : (s.setFrame f).rngDraws = s.rngDraws := rfl
@[simp] theorem State.setFrame_font (f : FramePhase) : (s.setFrame f).font = s.font := rfl
@[simp] theorem State.setFrame_deadlineDraws (f : FramePhase) : (s.setFrame f).deadlineDraws = s.deadlineDraws := rfl
@[simp] theorem State.setFrame_frame (f : FramePhase) : (s.setFrame f).frame = f := rfl
@[simp] theorem State.setFrame_agenda (f : FramePhase) : (s.setFrame f).agenda = s.agenda := rfl
@[simp] theorem State.setFrame_outputs (f : FramePhase) : (s.setFrame f).outputs = s.outputs := rfl

/-! ### setAgenda -/

@[simp] theorem State.setAgenda_v (ops : List HostOp) : (s.setAgenda ops).v = s.v := rfl
@[simp] theorem State.setAgenda_i (ops : List HostOp) : (s.setAgenda ops).i = s.i := rfl
@[simp] theorem State.setAgenda_pc (ops : List HostOp) : (s.setAgenda ops).pc = s.pc := rfl
@[simp] theorem State.setAgenda_sp (ops : List HostOp) : (s.setAgenda ops).sp = s.sp := rfl
@[simp] theorem State.setAgenda_stack (ops : List HostOp) : (s.setAgenda ops).stack = s.stack := rfl
@[simp] theorem State.setAgenda_dt (ops : List HostOp) : (s.setAgenda ops).dt = s.dt := rfl
@[simp] theorem State.setAgenda_st (ops : List HostOp) : (s.setAgenda ops).st = s.st := rfl
@[simp] theorem State.setAgenda_mem (ops : List HostOp) : (s.setAgenda ops).mem = s.mem := rfl
@[simp] theorem State.setAgenda_fb (ops : List HostOp) : (s.setAgenda ops).fb = s.fb := rfl
@[simp] theorem State.setAgenda_keys (ops : List HostOp) : (s.setAgenda ops).keys = s.keys := rfl
@[simp] theorem State.setAgenda_waitingForKey (ops : List HostOp) : (s.setAgenda ops).waitingForKey = s.waitingForKey := rfl
@[simp] theorem State.setAgenda_keyPrev (ops : List HostOp) : (s.setAgenda ops).keyPrev = s.keyPrev := rfl
@[simp] theorem State.setAgenda_halted (ops : List HostOp) : (s.setAgenda ops).halted = s.halted := rfl
@[simp] theorem State.setAgenda_fault (ops : List HostOp) : (s.setAgenda ops).fault = s.fault := rfl
@[simp] theorem State.setAgenda_fbChanged (ops : List HostOp) : (s.setAgenda ops).fbChanged = s.fbChanged := rfl
@[simp] theorem State.setAgenda_rngDraws (ops : List HostOp) : (s.setAgenda ops).rngDraws = s.rngDraws := rfl
@[simp] theorem State.setAgenda_font (ops : List HostOp) : (s.setAgenda ops).font = s.font := rfl
@[simp] theorem State.setAgenda_deadlineDraws (ops : List HostOp) : (s.setAgenda ops).deadlineDraws = s.deadlineDraws := rfl
@[simp] theorem State.setAgenda_frame (ops : List HostOp) : (s.setAgenda ops).frame = s.frame := rfl
@[simp] theorem State.setAgenda_agenda (ops : List HostOp) : (s.setAgenda ops).agenda = ops := rfl
@[simp] theorem State.setAgenda_outputs (ops : List HostOp) : (s.setAgenda ops).outputs = s.outputs := rfl

/-! ### countDeadline -/

@[simp] theorem State.countDeadline_v : s.countDeadline.v = s.v := rfl
@[simp] theorem State.countDeadline_i : s.countDeadline.i = s.i := rfl
@[simp] theorem State.countDeadline_pc : s.countDeadline.pc = s.pc := rfl
@[simp] theorem State.countDeadline_sp : s.countDeadline.sp = s.sp := rfl
@[simp] theorem State.countDeadline_stack : s.countDeadline.stack = s.stack := rfl
@[simp] theorem State.countDeadline_dt : s.countDeadline.dt = s.dt := rfl
@[simp] theorem State.countDeadline_st : s.countDeadline.st = s.st := rfl
@[simp] theorem State.countDeadline_mem : s.countDeadline.mem = s.mem := rfl
@[simp] theorem State.countDeadline_fb : s.countDeadline.fb = s.fb := rfl
@[simp] theorem State.countDeadline_keys : s.countDeadline.keys = s.keys := rfl
@[simp] theorem State.countDeadline_waitingForKey : s.countDeadline.waitingForKey = s.waitingForKey := rfl
@[simp] theorem State.countDeadline_keyPrev : s.countDeadline.keyPrev = s.keyPrev := rfl
@[simp] theorem State.countDeadline_halted : s.countDeadline.halted = s.halted := rfl
@[simp] theorem State.countDeadline_fault : s.countDeadline.fault = s.fault := rfl
@[simp] theorem State.countDeadline_fbChanged : s.countDeadline.fbChanged = s.fbChanged := rfl
@[simp] theorem State.countDeadline_rngDraws : s.countDeadline.rngDraws = s.rngDraws := rfl
@[simp] theorem State.countDeadline_font : s.countDeadline.font = s.font := rfl
@[simp] theorem State.countDeadline_deadlineDraws : s.countDeadline.deadlineDraws = s.deadlineDraws + 1 := rfl
@[simp] theorem State.countDeadline_frame : s.countDeadline.frame = s.frame := rfl
@[simp] theorem State.countDeadline_agenda : s.countDeadline.agenda = s.agenda := rfl
@[simp] theorem State.countDeadline_outputs : s.countDeadline.outputs = s.outputs := rfl

/-! ### setKeys -/

@[simp] theorem State.setKeys_v (ks : Vector Bool 16) : (s.setKeys ks).v = s.v := rfl
@[simp] theorem State.setKeys_i (ks : Vector Bool 16) : (s.setKeys ks).i = s.i := rfl
@[simp] theorem State.setKeys_pc (ks : Vector Bool 16) : (s.setKeys ks).pc = s.pc := rfl
@[simp] theorem State.setKeys_sp (ks : Vector Bool 16) : (s.setKeys ks).sp = s.sp := rfl
@[simp] theorem State.setKeys_stack (ks : Vector Bool 16) : (s.setKeys ks).stack = s.stack := rfl
@[simp] theorem State.setKeys_dt (ks : Vector Bool 16) : (s.setKeys ks).dt = s.dt := rfl
@[simp] theorem State.setKeys_st (ks : Vector Bool 16) : (s.setKeys ks).st = s.st := rfl
@[simp] theorem State.setKeys_mem (ks : Vector Bool 16) : (s.setKeys ks).mem = s.mem := rfl
@[simp] theorem State.setKeys_fb (ks : Vector Bool 16) : (s.setKeys ks).fb = s.fb := rfl
@[simp] theorem State.setKeys_keys (ks : Vector Bool 16) : (s.setKeys ks).keys = ks := rfl
@[simp] theorem State.setKeys_waitingForKey (ks : Vector Bool 16) : (s.setKeys ks).waitingForKey = s.waitingForKey := rfl
@[simp] theorem State.setKeys_keyPrev (ks : Vector Bool 16) : (s.setKeys ks).keyPrev = s.keyPrev := rfl
@[simp] theorem State.setKeys_halted (ks : Vector Bool 16) : (s.setKeys ks).halted = s.halted := rfl
@[simp] theorem State.setKeys_fault (ks : Vector Bool 16) : (s.setKeys ks).fault = s.fault := rfl
@[simp] theorem State.setKeys_fbChanged (ks : Vector Bool 16) : (s.setKeys ks).fbChanged = s.fbChanged := rfl
@[simp] theorem State.setKeys_rngDraws (ks : Vector Bool 16) : (s.setKeys ks).rngDraws = s.rngDraws := rfl
@[simp] theorem State.setKeys_font (ks : Vector Bool 16) : (s.setKeys ks).font = s.font := rfl
@[simp] theorem State.setKeys_deadlineDraws (ks : Vector Bool 16) : (s.setKeys ks).deadlineDraws = s.deadlineDraws := rfl
@[simp] theorem State.setKeys_frame (ks : Vector Bool 16) : (s.setKeys ks).frame = s.frame := rfl
@[simp] theorem State.setKeys_agenda (ks : Vector Bool 16) : (s.setKeys ks).agenda = s.agenda := rfl
@[simp] theorem State.setKeys_outputs (ks : Vector Bool 16) : (s.setKeys ks).outputs = s.outputs := rfl

/-! ### skipIf -/

@[simp] theorem State.skipIf_v (c : Bool) : (s.skipIf c).v = s.v := by
  unfold State.skipIf; split <;> rfl
@[simp] theorem State.skipIf_i (c : Bool) : (s.skipIf c).i = s.i := by
  unfold State.skipIf; split <;> rfl
@[simp] theorem State.skipIf_pc (c : Bool) : (s.skipIf c).pc = if c then mask12 (s.pc + 4) else mask12 (s.pc + 2) := by
  unfold State.skipIf; split <;> simp_all
@[simp] theorem State.skipIf_sp (c : Bool) : (s.skipIf c).sp = s.sp := by
  unfold State.skipIf; split <;> rfl
@[simp] theorem State.skipIf_stack (c : Bool) : (s.skipIf c).stack = s.stack := by
  unfold State.skipIf; split <;> rfl
@[simp] theorem State.skipIf_dt (c : Bool) : (s.skipIf c).dt = s.dt := by
  unfold State.skipIf; split <;> rfl
@[simp] theorem State.skipIf_st (c : Bool) : (s.skipIf c).st = s.st := by
  unfold State.skipIf; split <;> rfl
@[simp] theorem State.skipIf_mem (c : Bool) : (s.skipIf c).mem = s.mem := by
  unfold State.skipIf; split <;> rfl
@[simp] theorem State.skipIf_fb (c : Bool) : (s.skipIf c).fb = s.fb := by
  unfold State.skipIf; split <;> rfl
@[simp] theorem State.skipIf_keys (c : Bool) : (s.skipIf c).keys = s.keys := by
  unfold State.skipIf; split <;> rfl
@[simp] theorem State.skipIf_waitingForKey (c : Bool) : (s.skipIf c).waitingForKey = s.waitingForKey := by
  unfold State.skipIf; split <;> rfl
@[simp] theorem State.skipIf_keyPrev (c : Bool) : (s.skipIf c).keyPrev = s.keyPrev := by
  unfold State.skipIf; split <;> rfl
@[simp] theorem State.skipIf_halted (c : Bool) : (s.skipIf c).halted = s.halted := by
  unfold State.skipIf; split <;> rfl
@[simp] theorem State.skipIf_fault (c : Bool) : (s.skipIf c).fault = s.fault := by
  unfold State.skipIf; split <;> rfl
@[simp] theorem State.skipIf_fbChanged (c : Bool) : (s.skipIf c).fbChanged = s.fbChanged := by
  unfold State.skipIf; split <;> rfl
@[simp] theorem State.skipIf_rngDraws (c : Bool) : (s.skipIf c).rngDraws = s.rngDraws := by
  unfold State.skipIf; split <;> rfl
@[simp] theorem State.skipIf_font (c : Bool) : (s.skipIf c).font = s.font := by
  unfold State.skipIf; split <;> rfl
@[simp] theorem State.skipIf_deadlineDraws (c : Bool) : (s.skipIf c).deadlineDraws = s.deadlineDraws := by
  unfold State.skipIf; split <;> rfl
@[simp] theorem State.skipIf_frame (c : Bool) : (s.skipIf c).frame = s.frame := by
  unfold State.skipIf; split <;> rfl
@[simp] theorem State.skipIf_agenda (c : Bool) : (s.skipIf c).agenda = s.agenda := by
  unfold State.skipIf; split <;> rfl
@[simp] theorem State.skipIf_outputs (c : Bool) : (s.skipIf c).outputs = s.outputs := by
  unfold State.skipIf; split <;> rfl

/-! ### setSt -/

@[simp] theorem State.setSt_v (b : Byte) : (s.setSt b).v = s.v := by
  unfold State.setSt; split <;> rfl
@[simp] theorem State.setSt_i (b : Byte) : (s.setSt b).i = s.i := by
  unfold State.setSt; split <;> rfl
@[simp] theorem State.setSt_pc (b : Byte) : (s.setSt b).pc = s.pc := by
  unfold State.setSt; split <;> rfl
@[simp] theorem State.setSt_sp (b : Byte) : (s.setSt b).sp = s.sp := by
  unfold State.setSt; split <;> rfl
@[simp] theorem State.setSt_stack (b : Byte) : (s.setSt b).stack = s.stack := by
  unfold State.setSt; split <;> rfl
@[simp] theorem State.setSt_dt (b : Byte) : (s.setSt b).dt = s.dt := by
  unfold State.setSt; split <;> rfl
@[simp] theorem State.setSt_st (b : Byte) : (s.setSt b).st = b := by
  unfold State.setSt; split <;> simp_all
@[simp] theorem State.setSt_mem (b : Byte) : (s.setSt b).mem = s.mem := by
  unfold State.setSt; split <;> rfl
@[simp] theorem State.setSt_fb (b : Byte) : (s.setSt b).fb = s.fb := by
  unfold State.setSt; split <;> rfl
@[simp] theorem State.setSt_keys (b : Byte) : (s.setSt b).keys = s.keys := by
  unfold State.setSt; split <;> rfl
@[simp] theorem State.setSt_waitingForKey (b : Byte) : (s.setSt b).waitingForKey = s.waitingForKey := by
  unfold State.setSt; split <;> rfl
@[simp] theorem State.setSt_keyPrev (b : Byte) : (s.setSt b).keyPrev = s.keyPrev := by
  unfold State.setSt; split <;> rfl
@[simp] theorem State.setSt_halted (b : Byte) : (s.setSt b).halted = s.halted := by
  unfold State.setSt; split <;> rfl
@[simp] theorem State.setSt_fault (b : Byte) : (s.setSt b).fault = s.fault := by
  unfold State.setSt; split <;> rfl
@[simp] theorem State.setSt_fbChanged (b : Byte) : (s.setSt b).fbChanged = s.fbChanged := by
  unfold State.setSt; split <;> rfl
@[simp] theorem State.setSt_rngDraws (b : Byte) : (s.setSt b).rngDraws = s.rngDraws := by
  unfold State.setSt; split <;> rfl
@[simp] theorem State.setSt_font (b : Byte) : (s.setSt b).font = s.font := by
  unfold State.setSt; split <;> rfl
@[simp] theorem State.setSt_deadlineDraws (b : Byte) : (s.setSt b).deadlineDraws = s.deadlineDraws := by
  unfold State.setSt; split <;> rfl
@[simp] theorem State.setSt_frame (b : Byte) : (s.setSt b).frame = s.frame := by
  unfold State.setSt; split <;> rfl
@[simp] theorem State.setSt_agenda (b : Byte) : (s.setSt b).agenda = s.agenda := by
  unfold State.setSt; split <;> rfl
@[simp] theorem State.setSt_outputs (b : Byte) : (s.setSt b).outputs = if s.soundOn = (b != 0) then s.outputs else .beep (b != 0) :: s.outputs := by
  unfold State.setSt; split <;> simp_all

/-! ### drawIfChanged -/

@[simp] theorem State.drawIfChanged_v : s.drawIfChanged.v = s.v := by
  unfold State.drawIfChanged; split <;> rfl
@[simp] theorem State.drawIfChanged_i : s.drawIfChanged.i = s.i := by
  unfold State.drawIfChanged; split <;> rfl
@[simp] theorem State.drawIfChanged_pc : s.drawIfChanged.pc = s.pc := by
  unfold State.drawIfChanged; split <;> rfl
@[simp] theorem State.drawIfChanged_sp : s.drawIfChanged.sp = s.sp := by
  unfold State.drawIfChanged; split <;> rfl
@[simp] theorem State.drawIfChanged_stack : s.drawIfChanged.stack = s.stack := by
  unfold State.drawIfChanged; split <;> rfl
@[simp] theorem State.drawIfChanged_dt : s.drawIfChanged.dt = s.dt := by
  unfold State.drawIfChanged; split <;> rfl
@[simp] theorem State.drawIfChanged_st : s.drawIfChanged.st = s.st := by
  unfold State.drawIfChanged; split <;> rfl
@[simp] theorem State.drawIfChanged_mem : s.drawIfChanged.mem = s.mem := by
  unfold State.drawIfChanged; split <;> rfl
@[simp] theorem State.drawIfChanged_fb : s.drawIfChanged.fb = s.fb := by
  unfold State.drawIfChanged; split <;> rfl
@[simp] theorem State.drawIfChanged_keys : s.drawIfChanged.keys = s.keys := by
  unfold State.drawIfChanged; split <;> rfl
@[simp] theorem State.drawIfChanged_waitingForKey : s.drawIfChanged.waitingForKey = s.waitingForKey := by
  unfold State.drawIfChanged; split <;> rfl
@[simp] theorem State.drawIfChanged_keyPrev : s.drawIfChanged.keyPrev = s.keyPrev := by
  unfold State.drawIfChanged; split <;> rfl
@[simp] theorem State.drawIfChanged_halted : s.drawIfChanged.halted = s.halted := by
  unfold State.drawIfChanged; split <;> rfl
@[simp] theorem State.drawIfChanged_fault : s.drawIfChanged.fault = s.fault := by
  unfold State.drawIfChanged; split <;> rfl
@[simp] theorem State.drawIfChanged_fbChanged : s.drawIfChanged.fbChanged = false := by
  unfold State.drawIfChanged; split <;> simp_all
@[simp] theorem State.drawIfChanged_rngDraws : s.drawIfChanged.rngDraws = s.rngDraws := by
  unfold State.drawIfChanged; split <;> rfl
@[simp] theorem State.drawIfChanged_font : s.drawIfChanged.font = s.font := by
  unfold State.drawIfChanged; split <;> rfl
@[simp] theorem State.drawIfChanged_deadlineDraws : s.drawIfChanged.deadlineDraws = s.deadlineDraws := by
  unfold State.drawIfChanged; split <;> rfl
@[simp] theorem State.drawIfChanged_frame : s.drawIfChanged.frame = s.frame := by
  unfold State.drawIfChanged; split <;> rfl
@[simp] theorem State.drawIfChanged_agenda : s.drawIfChanged.agenda = s.agenda := by
  unfold State.drawIfChanged; split <;> rfl
@[simp] theorem State.drawIfChanged_outputs : s.drawIfChanged.outputs = if s.fbChanged then .draw s.fb :: s.outputs else s.outputs := by
  unfold State.drawIfChanged; split <;> simp_all

/-! ### tick and endFrame -/

@[simp] theorem State.tick_dt : s.tick.dt = tickTimer s.dt := by simp [State.tick]
@[simp] theorem State.tick_st : s.tick.st = tickTimer s.st := by simp [State.tick]
@[simp] theorem State.tick_outputs :
    s.tick.outputs = if s.soundOn = (tickTimer s.st != 0) then s.outputs else .beep (tickTimer s.st != 0) :: s.outputs := by
  unfold State.tick; exact State.setSt_outputs _ _
@[simp] theorem State.tick_v : s.tick.v = s.v := by simp [State.tick]
@[simp] theorem State.tick_i : s.tick.i = s.i := by simp [State.tick]
@[simp] theorem State.tick_pc : s.tick.pc = s.pc := by simp [State.tick]
@[simp] theorem State.tick_sp : s.tick.sp = s.sp := by simp [State.tick]
@[simp] theorem State.tick_stack : s.tick.stack = s.stack := by simp [State.tick]
@[simp] theorem State.tick_mem : s.tick.mem = s.mem := by simp [State.tick]
@[simp] theorem State.tick_fb : s.tick.fb = s.fb := by simp [State.tick]
@[simp] theorem State.tick_keys : s.tick.keys = s.keys := by simp [State.tick]
@[simp] theorem State.tick_waitingForKey : s.tick.waitingForKey = s.waitingForKey := by simp [State.tick]
@[simp] theorem State.tick_keyPrev : s.tick.keyPrev = s.keyPrev := by simp [State.tick]
@[simp] theorem State.tick_halted : s.tick.halted = s.halted := by simp [State.tick]
@[simp] theorem State.tick_fault : s.tick.fault = s.fault := by simp [State.tick]
@[simp] theorem State.tick_fbChanged : s.tick.fbChanged = s.fbChanged := by simp [State.tick]
@[simp] theorem State.tick_rngDraws : s.tick.rngDraws = s.rngDraws := by simp [State.tick]
@[simp] theorem State.tick_font : s.tick.font = s.font := by simp [State.tick]
@[simp] theorem State.tick_deadlineDraws : s.tick.deadlineDraws = s.deadlineDraws := by simp [State.tick]
@[simp] theorem State.tick_frame : s.tick.frame = s.frame := by simp [State.tick]
@[simp] theorem State.tick_agenda : s.tick.agenda = s.agenda := by simp [State.tick]

@[simp] theorem State.endFrame_frame : s.endFrame.frame = .idle := rfl
@[simp] theorem State.endFrame_fbChanged : s.endFrame.fbChanged = false := by simp [State.endFrame]
@[simp] theorem State.endFrame_dt : s.endFrame.dt = if s.halted then s.dt else tickTimer s.dt := by
  unfold State.endFrame; split <;> simp
@[simp] theorem State.endFrame_st : s.endFrame.st = if s.halted then s.st else tickTimer s.st := by
  unfold State.endFrame; split <;> simp
@[simp] theorem State.endFrame_v : s.endFrame.v = s.v := by
  unfold State.endFrame; split <;> simp
@[simp] theorem State.endFrame_i : s.endFrame.i = s.i := by
  unfold State.endFrame; split <;> simp
@[simp] theorem State.endFrame_pc : s.endFrame.pc = s.pc := by
  unfold State.endFrame; split <;> simp
@[simp] theorem State.endFrame_sp : s.endFrame.sp = s.sp := by
  unfold State.endFrame; split <;> simp
@[simp] theorem State.endFrame_stack : s.endFrame.stack = s.stack := by
  unfold State.endFrame; split <;> simp
@[simp] theorem State.endFrame_mem : s.endFrame.mem = s.mem := by
  unfold State.endFrame; split <;> simp
@[simp] theorem State.endFrame_fb : s.endFrame.fb = s.fb := by
  unfold State.endFrame; split <;> simp
@[simp] theorem State.endFrame_keys : s.endFrame.keys = s.keys := by
  unfold State.endFrame; split <;> simp
@[simp] theorem State.endFrame_waitingForKey : s.endFrame.waitingForKey = s.waitingForKey := by
  unfold State.endFrame; split <;> simp
@[simp] theorem State.endFrame_keyPrev : s.endFrame.keyPrev = s.keyPrev := by
  unfold State.endFrame; split <;> simp
@[simp] theorem State.endFrame_halted : s.endFrame.halted = s.halted := by
  unfold State.endFrame; split <;> simp
@[simp] theorem State.endFrame_fault : s.endFrame.fault = s.fault := by
  unfold State.endFrame; split <;> simp
@[simp] theorem State.endFrame_rngDraws : s.endFrame.rngDraws = s.rngDraws := by
  unfold State.endFrame; split <;> simp
@[simp] theorem State.endFrame_font : s.endFrame.font = s.font := by
  unfold State.endFrame; split <;> simp
@[simp] theorem State.endFrame_deadlineDraws : s.endFrame.deadlineDraws = s.deadlineDraws := by
  unfold State.endFrame; split <;> simp
@[simp] theorem State.endFrame_agenda : s.endFrame.agenda = s.agenda := by
  unfold State.endFrame; split <;> simp

/-! ### storeRegs -/

@[simp] theorem State.storeRegs_v (k : Nat) : (s.storeRegs k).v = s.v := by
  induction k with
  | zero => rfl
  | succ k ih => simpa [State.storeRegs] using ih
@[simp] theorem State.storeRegs_i (k : Nat) : (s.storeRegs k).i = s.i := by
  induction k with
  | zero => rfl
  | succ k ih => simpa [State.storeRegs] using ih
@[simp] theorem State.storeRegs_pc (k : Nat) : (s.storeRegs k).pc = s.pc := by
  induction k with
  | zero => rfl
  | succ k ih => simpa [State.storeRegs] using ih
@[simp] theorem State.storeRegs_sp (k : Nat) : (s.storeRegs k).sp = s.sp := by
  induction k with
  | zero => rfl
  | succ k ih => simpa [State.storeRegs] using ih
@[simp] theorem State.storeRegs_stack (k : Nat) : (s.storeRegs k).stack = s.stack := by
  induction k with
  | zero => rfl
  | succ k ih => simpa [State.storeRegs] using ih
@[simp] theorem State.storeRegs_dt (k : Nat) : (s.storeRegs k).dt = s.dt := by
  induction k with
  | zero => rfl
  | succ k ih => simpa [State.storeRegs] using ih
@[simp] theorem State.storeRegs_st (k : Nat) : (s.storeRegs k).st = s.st := by
  induction k with
  | zero => rfl
  | succ k ih => simpa [State.storeRegs] using ih
@[simp] theorem State.storeRegs_fb (k : Nat) : (s.storeRegs k).fb = s.fb := by
  induction k with
  | zero => rfl
  | succ k ih => simpa [State.storeRegs] using ih
@[simp] theorem State.storeRegs_keys (k : Nat) : (s.storeRegs k).keys = s.keys := by
  induction k with
  | zero => rfl
  | succ k ih => simpa [State.storeRegs] using ih
@[simp] theorem State.storeRegs_waitingForKey (k : Nat) : (s.storeRegs k).waitingForKey = s.waitingForKey := by
  induction k with
  | zero => rfl
  | succ k ih => simpa [State.storeRegs] using ih
@[simp] theorem State.storeRegs_keyPrev (k : Nat) : (s.storeRegs k).keyPrev = s.keyPrev := by
  induction k with
  | zero => rfl
  | succ k ih => simpa [State.storeRegs] using ih
@[simp] theorem State.storeRegs_halted (k : Nat) : (s.storeRegs k).halted = s.halted := by
  induction k with
  | zero => rfl
  | succ k ih => simpa [State.storeRegs] using ih
@[simp] theorem State.storeRegs_fault (k : Nat) : (s.storeRegs k).fault = s.fault := by
  induction k with
  | zero => rfl
  | succ k ih => simpa [State.storeRegs] using ih
@[simp] theorem State.storeRegs_fbChanged (k : Nat) : (s.storeRegs k).fbChanged = s.fbChanged := by
  induction k with
  | zero => rfl
  | succ k ih => simpa [State.storeRegs] using ih
@[simp] theorem State.storeRegs_rngDraws (k : Nat) : (s.storeRegs k).rngDraws = s.rngDraws := by
  induction k with
  | zero => rfl
  | succ k ih => simpa [State.storeRegs] using ih
@[simp] theorem State.storeRegs_font (k : Nat) : (s.storeRegs k).font = s.font := by
  induction k with
  | zero => rfl
  | succ k ih => simpa [State.storeRegs] using ih
@[simp] theorem State.storeRegs_deadlineDraws (k : Nat) : (s.storeRegs k).deadlineDraws = s.deadlineDraws := by
  induction k with
  | zero => rfl
  | succ k ih => simpa [State.storeRegs] using ih
@[simp] theorem State.storeRegs_frame (k : Nat) : (s.storeRegs k).frame = s.frame := by
  induction k with
  | zero => rfl
  | succ k ih => simpa [State.storeRegs] using ih
@[simp] theorem State.storeRegs_agenda (k : Nat) : (s.storeRegs k).agenda = s.agenda := by
  induction k with
  | zero => rfl
  | succ k ih => simpa [State.storeRegs] using ih
@[simp] theorem State.storeRegs_outputs (k : Nat) : (s.storeRegs k).outputs = s.outputs := by
  induction k with
  | zero => rfl
  | succ k ih => simpa [State.storeRegs] using ih

/-! ### loadRegs -/

@[simp] theorem State.loadRegs_i (k : Nat) : (s.loadRegs k).i = s.i := by
  induction k with
  | zero => rfl
  | succ k ih => simpa [State.loadRegs] using ih
@[simp] theorem State.loadRegs_pc (k : Nat) : (s.loadRegs k).pc = s.pc := by
  induction k with
  | zero => rfl
  | succ k ih => simpa [State.loadRegs] using ih
@[simp] theorem State.loadRegs_sp (k : Nat) : (s.loadRegs k).sp = s.sp := by
  induction k with
  | zero => rfl
  | succ k ih => simpa [State.loadRegs] using ih
@[simp] theorem State.loadRegs_stack (k : Nat) : (s.loadRegs k).stack = s.stack := by
  induction k with
  | zero => rfl
  | succ k ih => simpa [State.loadRegs] using ih
@[simp] theorem State.loadRegs_dt (k : Nat) : (s.loadRegs k).dt = s.dt := by
  induction k with
  | zero => rfl
  | succ k ih => simpa [State.loadRegs] using ih
@[simp] theorem State.loadRegs_st (k : Nat) : (s.loadRegs k).st = s.st := by
  induction k with
  | zero => rfl
  | succ k ih => simpa [State.loadRegs] using ih
@[simp] theorem State.loadRegs_mem (k : Nat) : (s.loadRegs k).mem = s.mem := by
  induction k with
  | zero => rfl
  | succ k ih => simpa [State.loadRegs] using ih
@[simp] theorem State.loadRegs_fb (k : Nat) : (s.loadRegs k).fb = s.fb := by
  induction k with
  | zero => rfl
  | succ k ih => simpa [State.loadRegs] using ih
@[simp] theorem State.loadRegs_keys (k : Nat) : (s.loadRegs k).keys = s.keys := by
  induction k with
  | zero => rfl
  | succ k ih => simpa [State.loadRegs] using ih
@[simp] theorem State.loadRegs_waitingForKey (k : Nat) : (s.loadRegs k).waitingForKey = s.waitingForKey := by
  induction k with
  | zero => rfl
  | succ k ih => simpa [State.loadRegs] using ih
@[simp] theorem State.loadRegs_keyPrev (k : Nat) : (s.loadRegs k).keyPrev = s.keyPrev := by
  induction k with
  | zero => rfl
  | succ k ih => simpa [State.loadRegs] using ih
@[simp] theorem State.loadRegs_halted (k : Nat) : (s.loadRegs k).halted = s.halted := by
  induction k with
  | zero => rfl
  | succ k ih => simpa [State.loadRegs] using ih
@[simp] theorem State.loadRegs_fault (k : Nat) : (s.loadRegs k).fault = s.fault := by
  induction k with
  | zero => rfl
  | succ k ih => simpa [State.loadRegs] using ih
@[simp] theorem State.loadRegs_fbChanged (k : Nat) : (s.loadRegs k).fbChanged = s.fbChanged := by
  induction k with
  | zero => rfl
  | succ k ih => simpa [State.loadRegs] using ih
@[simp] theorem State.loadRegs_rngDraws (k : Nat) : (s.loadRegs k).rngDraws = s.rngDraws := by
  induction k with
  | zero => rfl
  | succ k ih => simpa [State.loadRegs] using ih
@[simp] theorem State.loadRegs_font (k : Nat) : (s.loadRegs k).font = s.font := by
  induction k with
  | zero => rfl
  | succ k ih => simpa [State.loadRegs] using ih
@[simp] theorem State.loadRegs_deadlineDraws (k : Nat) : (s.loadRegs k).deadlineDraws = s.deadlineDraws := by
  induction k with
  | zero => rfl
  | succ k ih => simpa [State.loadRegs] using ih
@[simp] theorem State.loadRegs_frame (k : Nat) : (s.loadRegs k).frame = s.frame := by
  induction k with
  | zero => rfl
  | succ k ih => simpa [State.loadRegs] using ih
@[simp] theorem State.loadRegs_agenda (k : Nat) : (s.loadRegs k).agenda = s.agenda := by
  induction k with
  | zero => rfl
  | succ k ih => simpa [State.loadRegs] using ih
@[simp] theorem State.loadRegs_outputs (k : Nat) : (s.loadRegs k).outputs = s.outputs := by
  induction k with
  | zero => rfl
  | succ k ih => simpa [State.loadRegs] using ih

end Sys2Proof.Machine
end

