-- ==== Sys2Proof/Laws/Memory.lean ====
section
/-! SUPPORT. Memory: a read after a write, the canonical form kept by every memory operation, and canonical
memories that read alike are equal. -/

namespace Sys2Proof.Machine

variable {font : Font}

/-! ### Reading -/

@[simp] theorem Memory.read_nil (a : Nat) : Memory.read font [] a = Memory.resetByte font a := rfl

theorem Memory.read_cons (k : Nat) (c : Byte) (m : Memory) (a : Nat) :
    Memory.read font ((k, c) :: m) a = if k = a then c else m.read font a := by
  unfold Memory.read
  simp only [Memory.lookup]
  split <;> rfl

/-- A canonical memory from `lo` on lists nothing below `lo`. -/
theorem Memory.read_of_lt {m : Memory} {lo a : Nat} (h : Memory.wfFrom font lo m = true) (ha : a < lo) :
    m.read font a = Memory.resetByte font a := by
  induction m generalizing lo with
  | nil => rfl
  | cons e m ih =>
    obtain ⟨k, c⟩ := e
    simp only [Memory.wfFrom, Bool.and_eq_true, decide_eq_true_eq] at h
    rw [Memory.read_cons, if_neg (by omega)]
    exact ih h.2 (by omega)

theorem Memory.read_consUnlessReset {m : Memory} {a : Nat} {b : Byte} (h : m.read font a = Memory.resetByte font a) (c : Nat) :
    (Memory.consUnlessReset font a b m).read font c = if a = c then b else m.read font c := by
  unfold Memory.consUnlessReset
  split
  · next hb => split
               · next hc => rw [← hc, h, hb]
               · rfl
  · rw [Memory.read_cons]

/-- What a write does: the byte at its address is the one written, every other byte is as before (R47). -/
theorem Memory.read_write {m : Memory} {lo : Nat} (h : Memory.wfFrom font lo m = true) (a : Nat) (b : Byte) (c : Nat) :
    (m.write font a b).read font c = if a = c then b else m.read font c := by
  induction m generalizing lo with
  | nil => exact Memory.read_consUnlessReset rfl c
  | cons e m ih =>
    obtain ⟨k, d⟩ := e
    have hm : Memory.wfFrom font (k + 1) m = true := by
      simp only [Memory.wfFrom, Bool.and_eq_true] at h; exact h.2
    unfold Memory.write
    split
    · next hlt =>
      apply Memory.read_consUnlessReset
      rw [Memory.read_cons, if_neg (by omega)]
      exact Memory.read_of_lt hm (by omega)
    · split
      · next hak =>
        subst hak
        rw [Memory.read_consUnlessReset (Memory.read_of_lt hm (by omega)), Memory.read_cons]
        split <;> rfl
      · rw [Memory.read_cons, Memory.read_cons, ih hm]
        split
        · rw [if_neg (by omega)]
        · rfl

/-! ### The canonical form -/

theorem Memory.wfFrom_mono {m : Memory} {lo lo' : Nat} (h : Memory.wfFrom font lo m = true) (hl : lo' ≤ lo) :
    Memory.wfFrom font lo' m = true := by
  cases m with
  | nil => rfl
  | cons e m =>
    obtain ⟨k, c⟩ := e
    simp only [Memory.wfFrom, Bool.and_eq_true, decide_eq_true_eq] at h ⊢
    exact ⟨⟨⟨by omega, h.1.1.2⟩, h.1.2⟩, h.2⟩

theorem Memory.wfFrom_consUnlessReset {m : Memory} {lo a : Nat} (b : Byte) (h : Memory.wfFrom font (a + 1) m = true)
    (hlo : lo ≤ a) (ha : a < 4096) : Memory.wfFrom font lo (Memory.consUnlessReset font a b m) = true := by
  unfold Memory.consUnlessReset
  split
  · exact Memory.wfFrom_mono h (by omega)
  · next hb =>
    simp only [Memory.wfFrom, Bool.and_eq_true, decide_eq_true_eq]
    exact ⟨⟨⟨hlo, ha⟩, hb⟩, h⟩

theorem Memory.wfFrom_write {m : Memory} {lo a : Nat} (b : Byte) (h : Memory.wfFrom font lo m = true) (hlo : lo ≤ a)
    (ha : a < 4096) : Memory.wfFrom font lo (m.write font a b) = true := by
  induction m generalizing lo with
  | nil => exact Memory.wfFrom_consUnlessReset b rfl hlo ha
  | cons e m ih =>
    obtain ⟨k, c⟩ := e
    have h' := h
    simp only [Memory.wfFrom, Bool.and_eq_true, decide_eq_true_eq] at h'
    obtain ⟨⟨⟨hk, hk'⟩, hc⟩, hm⟩ := h'
    unfold Memory.write
    split
    · next hlt =>
      apply Memory.wfFrom_consUnlessReset b _ hlo ha
      simp only [Memory.wfFrom, Bool.and_eq_true, decide_eq_true_eq]
      exact ⟨⟨⟨by omega, hk'⟩, hc⟩, hm⟩
    · split
      · next hak => subst hak; exact Memory.wfFrom_consUnlessReset b hm hlo ha
      · simp only [Memory.wfFrom, Bool.and_eq_true, decide_eq_true_eq]
        exact ⟨⟨⟨hk, hk'⟩, hc⟩, ih hm (by omega)⟩

/-- A write below 4096 keeps the canonical form. -/
theorem Memory.wf_write {m : Memory} {a : Nat} (b : Byte) (h : m.wf font = true) (ha : a < 4096) :
    (m.write font a b).wf font = true :=
  Memory.wfFrom_write b h (Nat.zero_le _) ha

theorem Memory.wfFrom_ofImage (a : Nat) (bytes : List Byte) (h : a + bytes.length ≤ 4096) :
    Memory.wfFrom font a (Memory.ofImage font a bytes) = true := by
  induction bytes generalizing a with
  | nil => rfl
  | cons b bs ih =>
    simp only [List.length_cons] at h
    exact Memory.wfFrom_consUnlessReset b (ih (a + 1) (by omega)) (Nat.le_refl _) (by omega)

/-- An image that ends below 4096 is canonical memory. -/
theorem Memory.wf_ofImage (a : Nat) (bytes : List Byte) (h : a + bytes.length ≤ 4096) :
    (Memory.ofImage font a bytes).wf font = true :=
  Memory.wfFrom_mono (Memory.wfFrom_ofImage a bytes h) (Nat.zero_le _)

/-- What an image memory reads as: the image inside it, the reset contents outside it (R161). -/
theorem Memory.read_ofImage (a : Nat) (bytes : List Byte) (h : a + bytes.length ≤ 4096) (c : Nat) :
    (Memory.ofImage font a bytes).read font c = if a ≤ c then (bytes[c - a]?).getD (Memory.resetByte font c) else Memory.resetByte font c := by
  induction bytes generalizing a with
  | nil => simp [Memory.ofImage]
  | cons b bs ih =>
    simp only [List.length_cons] at h
    have hw := Memory.wfFrom_ofImage (font := font) (a + 1) bs (by omega)
    rw [Memory.ofImage, Memory.read_consUnlessReset (Memory.read_of_lt hw (by omega)), ih (a + 1) (by omega)]
    by_cases hac : a = c
    · subst hac; simp
    · rw [if_neg hac]
      by_cases hlt : a + 1 ≤ c
      · rw [if_pos hlt, if_pos (by omega), show c - a = (c - (a + 1)) + 1 by omega, List.getElem?_cons_succ]
      · rw [if_neg hlt, if_neg (by omega)]

/-- Canonical memories that read alike everywhere are the same list. -/
theorem Memory.ext_of_read {m m' : Memory} {lo : Nat} (h : Memory.wfFrom font lo m = true) (h' : Memory.wfFrom font lo m' = true)
    (hr : ∀ a, m.read font a = m'.read font a) : m = m' := by
  induction m generalizing lo m' with
  | nil =>
    cases m' with
    | nil => rfl
    | cons e m' =>
      obtain ⟨k, c⟩ := e
      simp only [Memory.wfFrom, Bool.and_eq_true, decide_eq_true_eq] at h'
      have := hr k
      rw [Memory.read_cons, if_pos rfl, Memory.read_nil] at this
      exact absurd this.symm h'.1.2
  | cons e m ih =>
    obtain ⟨k, c⟩ := e
    have hk := h
    simp only [Memory.wfFrom, Bool.and_eq_true, decide_eq_true_eq] at hk
    cases m' with
    | nil =>
      have := hr k
      rw [Memory.read_cons, if_pos rfl, Memory.read_nil] at this
      exact absurd this hk.1.2
    | cons e' m' =>
      obtain ⟨k', c'⟩ := e'
      have hk' := h'
      simp only [Memory.wfFrom, Bool.and_eq_true, decide_eq_true_eq] at hk'
      have heq : k = k' := by
        rcases Nat.lt_trichotomy k k' with hlt | heq | hgt
        · have := hr k
          rw [Memory.read_cons, if_pos rfl, Memory.read_cons, if_neg (by omega),
            Memory.read_of_lt hk'.2 (by omega)] at this
          exact absurd this hk.1.2
        · exact heq
        · have := hr k'
          rw [Memory.read_cons, if_neg (by omega), Memory.read_cons, if_pos rfl,
            Memory.read_of_lt hk.2 (by omega)] at this
          exact absurd this.symm hk'.1.2
      subst heq
      have hc : c = c' := by
        have := hr k
        rwa [Memory.read_cons, if_pos rfl, Memory.read_cons, if_pos rfl] at this
      subst hc
      have : m = m' := by
        apply ih hk.2 hk'.2
        intro a
        by_cases hka : k = a
        · subst hka
          rw [Memory.read_of_lt hk.2 (by omega), Memory.read_of_lt hk'.2 (by omega)]
        · have := hr a
          rwa [Memory.read_cons, if_neg hka, Memory.read_cons, if_neg hka] at this
      rw [this]

end Sys2Proof.Machine
end

