-- ==== Sys2Proof/Laws/Ops.lean ====
section
/-! SUPPORT. One lemma for each shared operation that says what it does, for proofs to cite instead of unfolding it. -/

namespace Sys2Proof.Machine

/-! ### Addresses and pc -/

/-- `mask12` is the remainder modulo 4096 (R12, R50). -/
theorem toNat_mask12 (a : Word) : (mask12 a).toNat = a.toNat % 4096 := by
  unfold mask12
  rw [BitVec.toNat_and]
  exact Nat.and_two_pow_sub_one_eq_mod a.toNat 12

theorem toNat_mask12_lt (a : Word) : (mask12 a).toNat < 4096 := by
  rw [toNat_mask12]; omega

theorem toNat_mask12_add (a : Word) (n : Nat) : (mask12 (a + BitVec.ofNat 16 n)).toNat = (a.toNat + n) % 4096 := by
  rw [toNat_mask12, BitVec.toNat_add, BitVec.toNat_ofNat]
  omega

theorem mask12_of_lt {a : Word} (h : a.toNat < 4096) : mask12 a = a := by
  apply BitVec.eq_of_toNat_eq
  rw [toNat_mask12, Nat.mod_eq_of_lt h]

@[simp] theorem mask12_mask12 (a : Word) : mask12 (mask12 a) = mask12 a := mask12_of_lt (toNat_mask12_lt a)

theorem toNat_immAddr (nnn : Addr) : (immAddr nnn).toNat = nnn.toNat := by
  unfold immAddr
  rw [BitVec.toNat_setWidth, Nat.mod_eq_of_lt (by omega)]

theorem mask12_immAddr (nnn : Addr) : mask12 (immAddr nnn) = immAddr nnn :=
  mask12_of_lt (by rw [toNat_immAddr]; omega)

theorem toNat_advance_pc (s : State) : s.advance.pc.toNat = (s.pc.toNat + 2) % 4096 := toNat_mask12_add s.pc 2

theorem toNat_nextPc (s : State) : s.nextPc.toNat = (s.pc.toNat + 2) % 4096 := toNat_mask12_add s.pc 2

/-- Where a skip sends pc (R95). -/
theorem toNat_skipIf_pc (s : State) (c : Bool) :
    (s.skipIf c).pc.toNat = (s.pc.toNat + if c then 4 else 2) % 4096 := by
  rw [State.skipIf_pc]
  cases c
  · exact toNat_mask12_add s.pc 2
  · exact toNat_mask12_add s.pc 4

/-! ### Memory through the state -/

/-- Two states with the same memory and the same font read alike. -/
theorem readByte_congr {s t : State} (h : t.mem = s.mem) (hf : t.font = s.font) (a : Word) :
    t.readByte a = s.readByte a := by
  unfold State.readByte; rw [h, hf]

/-- The canonical form is one of the memory and the font alone. -/
theorem memWf_congr {s t : State} (h : t.mem = s.mem) (hf : t.font = s.font) : t.memWf = s.memWf := by
  unfold State.memWf; rw [h, hf]

theorem wordAt_congr {s t : State} (h : t.mem = s.mem) (hf : t.font = s.font) (a : Word) : t.wordAt a = s.wordAt a := by
  unfold State.wordAt; rw [readByte_congr h hf, readByte_congr h hf]

theorem fetchWord_congr {s t : State} (h : t.mem = s.mem) (hf : t.font = s.font) (hpc : t.pc = s.pc) :
    t.fetchWord = s.fetchWord := by
  unfold State.fetchWord; rw [hpc, wordAt_congr h hf]

/-- A read after a write: the byte written at its address, modulo 4096, and the old byte elsewhere (R46, R47, R50). -/
theorem readByte_writeByte {s : State} (h : s.memWf = true) (a : Word) (b : Byte) (c : Word) :
    (s.writeByte a b).readByte c = if a.toNat % 4096 = c.toNat % 4096 then b else s.readByte c := by
  unfold State.readByte State.writeByte
  rw [Memory.read_write h, toNat_mask12, toNat_mask12]

theorem wf_writeByte {s : State} (h : s.memWf = true) (a : Word) (b : Byte) : (s.writeByte a b).memWf = true :=
  Memory.wf_write b h (toNat_mask12_lt a)

theorem toNat_indexed (s : State) (k : Nat) : (s.indexed k).toNat % 4096 = (s.i.toNat + k) % 4096 := by
  unfold State.indexed
  rw [BitVec.toNat_add, BitVec.toNat_ofNat]
  omega

/-- A word stored is the word read back (R55). -/
theorem wordAt_storeWordAt {s : State} (h : s.memWf = true) (a w : Word) : (s.storeWordAt a w).wordAt a = w := by
  have h1 := wf_writeByte h a (hiByte w)
  have ha : (a + 1).toNat % 4096 = (a.toNat + 1) % 4096 := by
    rw [BitVec.toNat_add, show (1 : Word).toNat = 1 from rfl]; omega
  unfold State.storeWordAt State.wordAt
  rw [readByte_writeByte h1, readByte_writeByte h1, readByte_writeByte h, if_pos rfl, if_pos rfl, if_neg (by omega)]
  exact wordOfBytes_hiByte_loByte w

/-- `withFetchWord` puts the word where the next fetch reads it. -/
theorem fetchWord_withFetchWord {s : State} (h : s.memWf = true) (nbits w : Nat) :
    (s.withFetchWord nbits w).fetchWord = BitVec.ofNat 16 (w % 2 ^ nbits) :=
  wordAt_storeWordAt h s.pc _

/-! ### Registers -/

theorem getElem_setV (s : State) (x : Reg) (b : Byte) (j : Reg) :
    (s.setV x b).v[j] = if x = j then b else s.v[j] := by
  simp only [State.setV_v, Fin.getElem_fin, Vector.getElem_set]
  simp only [Fin.ext_iff]

/-- The flag wins where the result goes to VF too (R17, R103). -/
theorem getElem_setResultAndFlag (s : State) (x : Reg) (r f : Byte) (j : Reg) :
    (s.setResultAndFlag x r f).v[j] = if j = 15 then f else if x = j then r else s.v[j] := by
  rw [State.setResultAndFlag, getElem_setV, getElem_setV]
  simp only [regVF, eq_comm (a := (15 : Reg))]

/-! ### The call stack -/

/-- A push where there is an entry for it (R23, R88). -/
theorem push_of_lt {s : State} (h : s.sp.toNat < 16) (t : Word) :
    s.push t = some { s with stack := s.stack.set s.sp.toNat t, sp := s.sp + 1 } := by
  simp [State.push, h]

/-- A pop where there is an entry (R23, R86). -/
theorem pop_of_le {s : State} (h : s.sp.toNat ≤ 16) :
    s.pop = some (s.stack[s.sp.toNat - 1]'(by omega), { s with sp := s.sp - 1 }) := by
  unfold State.pop
  rw [dif_pos (by omega)]

/-! ### Fx55 and Fx65 -/

theorem wf_storeRegs {s : State} (h : s.memWf = true) (k : Nat) : (s.storeRegs k).memWf = true := by
  induction k with
  | zero => exact h
  | succ k ih => exact wf_writeByte ih _ _

/-- What storing k registers leaves at an address: the register whose turn came there, or the old byte (R122). -/
theorem readByte_storeRegs {s : State} (h : s.memWf = true) (k : Nat) (hk : k ≤ 16) (c : Word) :
    (∀ j (hj : j < k), c.toNat % 4096 = (s.i.toNat + j) % 4096 → (s.storeRegs k).readByte c = s.v[j]) ∧
    ((∀ j, j < k → c.toNat % 4096 ≠ (s.i.toNat + j) % 4096) → (s.storeRegs k).readByte c = s.readByte c) := by
  induction k with
  | zero => exact ⟨fun j hj => absurd hj (Nat.not_lt_zero j), fun _ => rfl⟩
  | succ k ih =>
    have ih := ih (by omega)
    have hr := readByte_writeByte (wf_storeRegs h k) (s.indexed k) (s.getV (Fin.ofNat 16 k)) c
    rw [toNat_indexed] at hr
    constructor
    · intro j hj hc
      rw [State.storeRegs, hr]
      by_cases hjk : j = k
      · subst hjk
        rw [if_pos (by omega)]
        simp [State.getV, Fin.ofNat, Nat.mod_eq_of_lt (show j < 16 by omega)]
      · rw [if_neg (by omega)]
        exact ih.1 j (by omega) hc
    · intro hc
      have := hc k (by omega)
      rw [State.storeRegs, hr, if_neg (by omega)]
      exact ih.2 (fun j hj => hc j (by omega))

/-- What loading k registers leaves in each register (R123). -/
theorem getElem_loadRegs (s : State) (k : Nat) (hk : k ≤ 16) (j : Reg) :
    (s.loadRegs k).v[j] = if j.val < k then s.readByte (s.indexed j.val) else s.v[j] := by
  induction k with
  | zero => simp [State.loadRegs]
  | succ k ih =>
    rw [State.loadRegs, getElem_setV, ih (by omega)]
    by_cases hjk : j.val = k
    · have : Fin.ofNat 16 k = j := by ext; simp [Fin.ofNat, ← hjk]
      rw [if_pos this, if_pos (by omega), hjk]
    · have : Fin.ofNat 16 k ≠ j := by
        intro h; apply hjk; rw [← h]; simp [Fin.ofNat, Nat.mod_eq_of_lt (show k < 16 by omega)]
      rw [if_neg this]
      by_cases hlt : j.val < k
      · rw [if_pos hlt, if_pos (by omega)]
      · rw [if_neg hlt, if_neg (by omega)]

/-! ### Timers and sound -/

theorem toNat_tickTimer (t : Byte) : (tickTimer t).toNat = t.toNat - 1 := by
  unfold tickTimer
  split
  · next h => subst h; rfl
  · next h =>
    have : t.toNat ≠ 0 := fun h0 => h (BitVec.eq_of_toNat_eq h0)
    rw [BitVec.toNat_sub, show (1 : Byte).toNat = 1 from rfl]
    omega

/-- A write to ST keeps the host told of the sound level (R152). -/
theorem lastBeep_setSt {s : State} (h : lastBeep s.outputs = s.soundOn) (b : Byte) :
    lastBeep (s.setSt b).outputs = (s.setSt b).soundOn := by
  have hs : (s.setSt b).soundOn = (b != 0) := by simp [State.soundOn]
  rw [State.setSt_outputs, hs]
  split
  · next he => rw [h, he]
  · rfl

/-! ### The keys of R125 -/

/-- The key that ends a wait is the lowest one released (R125). -/
theorem lowestReleased_eq_some {s : State} {k : Reg} (h : s.lowestReleased = some k) :
    s.keyPrev[k] = true ∧ s.keys[k] = false ∧ ∀ j : Reg, j < k → ¬(s.keyPrev[j] = true ∧ s.keys[j] = false) := by
  unfold State.lowestReleased at h
  obtain ⟨hp, as, bs, hl, hn⟩ := List.find?_eq_some_iff_append.mp h
  simp only [Bool.and_eq_true, Bool.not_eq_true'] at hp
  refine ⟨hp.1, hp.2, fun j hj hrel => ?_⟩
  have hj' : j ∈ as := by
    have hmem : j ∈ as ++ k :: bs := by rw [← hl]; exact List.mem_finRange j
    have hs : List.Pairwise (· < ·) (as ++ k :: bs) := by rw [← hl]; exact List.pairwise_lt_finRange 16
    rcases List.mem_append.mp hmem with h | h
    · exact h
    · rcases List.mem_cons.mp h with h | h
      · exact absurd h (Fin.ne_of_lt hj)
      · have := (List.pairwise_append.mp hs).2.1
        have := (List.pairwise_cons.mp this).1 j h
        exact absurd hj (Fin.not_lt.mpr (Fin.le_of_lt this))
  have := hn j hj'
  simp [hrel.1, hrel.2] at this

/-- No key ends a wait only where none was released (R125). -/
theorem lowestReleased_eq_none {s : State} :
    s.lowestReleased = none ↔ ∀ j : Reg, ¬(s.keyPrev[j] = true ∧ s.keys[j] = false) := by
  simp [State.lowestReleased, List.find?_eq_none]

end Sys2Proof.Machine
end

