-- ==== Sys2Proof/Laws/Display.lean ====
section
/-! SUPPORT. What drawing a sprite does, pixel by pixel, in place of the loops of R82. -/

namespace Sys2Proof.Machine

theorem pixel_flip (fb : FrameBuffer) {c r c' r' : Nat} (hc : c < 64) (hr : r < 32) :
    (fb.flip c r).pixel c' r' = (fb.pixel c' r' ^^ decide (c' = c ∧ r' = r)) := by
  unfold FrameBuffer.flip FrameBuffer.pixel
  rw [dif_pos hr]
  by_cases hr' : r' < 32
  · simp only [dif_pos hr', Vector.getElem_set]
    by_cases h : r = r'
    · subst h
      simp only [if_pos, BitVec.getLsbD_xor, BitVec.getLsbD_twoPow, hc, decide_true, Bool.true_and, and_true]
      simp only [eq_comm]
    · simp [h, Ne.symm h]
  · simp [hr']
    omega

/-- One row of a sprite puts a 1 on the pixel (c, r) (R82, R83). -/
def rowCovers (cx row : Nat) (b : Byte) (c r : Nat) : Bool :=
  decide (r = row ∧ cx ≤ c ∧ c < cx + 8) && b.getLsbD (7 - (c - cx))

/-- Part of a row: columns 0 to m − 1. -/
theorem foldl_drawPixel (cx row : Nat) (hrow : row < 32) (b : Byte) (acc : FrameBuffer × Bool) (m : Nat) (hm : m ≤ 8) :
    let out := (List.range m).foldl (drawPixel cx row b) acc
    (∀ c r, c < 64 → r < 32 →
      out.1.pixel c r = (acc.1.pixel c r ^^ (rowCovers cx row b c r && decide (c < cx + m)))) ∧
    (out.2 = true ↔ acc.2 = true ∨ ∃ c, c < 64 ∧ c < cx + m ∧ rowCovers cx row b c row = true ∧
      acc.1.pixel c row = true) := by
  induction m with
  | zero =>
    constructor
    · intro c r _ _
      have : (rowCovers cx row b c r && decide (c < cx + 0)) = false := by
        simp only [rowCovers, Bool.and_eq_false_iff, decide_eq_false_iff_not]; omega
      rw [this, Bool.xor_false]; rfl
    · constructor
      · exact fun h => .inl h
      · rintro (h | ⟨c, _, hc, hcov, _⟩)
        · exact h
        · simp only [rowCovers, Bool.and_eq_true, decide_eq_true_eq] at hcov; omega
  | succ m ih =>
    obtain ⟨ih1, ih2⟩ := ih (by omega)
    simp only [List.range_succ, List.foldl_append, List.foldl_cons, List.foldl_nil]
    generalize (List.range m).foldl (drawPixel cx row b) acc = mid at ih1 ih2
    unfold drawPixel
    by_cases hoff : cx + m ≥ 64
    · rw [if_pos hoff]
      constructor
      · intro c r hc hr
        rw [ih1 c r hc hr]
        simp [show c < cx + m by omega, show c < cx + (m + 1) by omega]
      · rw [ih2]
        refine or_congr_right ⟨?_, ?_⟩
        · rintro ⟨c, h1, h2, h3⟩; exact ⟨c, h1, by omega, h3⟩
        · rintro ⟨c, h1, h2, h3⟩; exact ⟨c, h1, by omega, h3⟩
    · rw [if_neg hoff]
      have hbit : spriteBit b m = b.getLsbD (7 - (cx + m - cx)) := by
        rw [spriteBit, Nat.add_sub_cancel_left]
      have hcov : rowCovers cx row b (cx + m) row = spriteBit b m := by
        simp [rowCovers, hbit, show m < 8 by omega]
      have hmid : mid.1.pixel (cx + m) row = acc.1.pixel (cx + m) row := by
        rw [ih1 _ _ (by omega) hrow]; simp
      split
      · next hs =>
        constructor
        · intro c r hc hr
          rw [pixel_flip _ (by omega) hrow, ih1 c r hc hr, Bool.xor_assoc]
          congr 1
          by_cases hcr : c = cx + m ∧ r = row
          · obtain ⟨rfl, rfl⟩ := hcr
            simp [hcov, hs]
          · rw [decide_eq_false hcr, Bool.xor_false]
            by_cases hr' : r = row
            · have : c ≠ cx + m := fun h => hcr ⟨h, hr'⟩
              congr 1
              exact decide_eq_decide.mpr (by omega)
            · simp [rowCovers, hr']
        · simp only [Bool.or_eq_true, ih2, hmid]
          constructor
          · rintro ((h | ⟨c, h1, h2, h3⟩) | h)
            · exact .inl h
            · exact .inr ⟨c, h1, by omega, h3⟩
            · exact .inr ⟨cx + m, by omega, by omega, by rw [hcov, hs], h⟩
          · rintro (h | ⟨c, h1, h2, h3, h4⟩)
            · exact .inl (.inl h)
            · by_cases hc : c = cx + m
              · subst hc; exact .inr h4
              · exact .inl (.inr ⟨c, h1, by omega, h3, h4⟩)
      · next hs =>
        have hs : spriteBit b m = false := by simpa using hs
        constructor
        · intro c r hc hr
          rw [ih1 c r hc hr]
          congr 1
          by_cases hcr : c = cx + m ∧ r = row
          · obtain ⟨rfl, rfl⟩ := hcr
            simp [hcov, hs]
          · by_cases hr' : r = row
            · have : c ≠ cx + m := fun h => hcr ⟨h, hr'⟩
              congr 1
              exact decide_eq_decide.mpr (by omega)
            · simp [rowCovers, hr']
        · rw [ih2]
          refine or_congr_right ⟨?_, ?_⟩
          · rintro ⟨c, h1, h2, h3⟩; exact ⟨c, h1, by omega, h3⟩
          · rintro ⟨c, h1, h2, h3, h4⟩
            refine ⟨c, h1, ?_, h3, h4⟩
            rcases Nat.lt_or_ge c (cx + m) with h | h
            · exact h
            · have : c = cx + m := by omega
              subst this; rw [hcov, hs] at h3; cases h3

theorem drawRow_spec (cx row : Nat) (hrow : row < 32) (b : Byte) (acc : FrameBuffer × Bool) :
    (∀ c r, c < 64 → r < 32 → (drawRow cx row b acc).1.pixel c r = (acc.1.pixel c r ^^ rowCovers cx row b c r)) ∧
    ((drawRow cx row b acc).2 = true ↔ acc.2 = true ∨ ∃ c, c < 64 ∧ rowCovers cx row b c row = true ∧
      acc.1.pixel c row = true) := by
  obtain ⟨h1, h2⟩ := foldl_drawPixel cx row hrow b acc 8 (Nat.le_refl _)
  constructor
  · intro c r hc hr
    rw [drawRow, h1 c r hc hr]
    congr 1
    by_cases h : c < cx + 8
    · simp [h]
    · simp [h, rowCovers]
  · rw [drawRow, h2]
    refine or_congr_right ⟨?_, ?_⟩
    · rintro ⟨c, hc, _, h⟩; exact ⟨c, hc, h⟩
    · rintro ⟨c, hc, h, h'⟩
      refine ⟨c, hc, ?_, h, h'⟩
      simp only [rowCovers, Bool.and_eq_true, decide_eq_true_eq] at h
      omega

theorem spriteCovers_eq_rowCovers (s : State) (cx cy n c r : Nat) :
    s.spriteCovers cx cy n c r =
      (decide (cy ≤ r ∧ r < cy + n) && rowCovers cx r (s.readByte (s.indexed (r - cy))) c r) := by
  unfold State.spriteCovers rowCovers State.indexed
  by_cases h : cy ≤ r ∧ r < cy + n
  · simp [h]
  · rw [decide_eq_false h, decide_eq_false (fun hh => h ⟨hh.2.2.1, hh.2.2.2⟩)]; rfl

/-- What drawing a sprite does: each pixel of the screen is flipped where the sprite covers it, and there is a
collision exactly when some covered pixel was set (R82, R84). -/
theorem drawSprite_spec (s : State) (cx cy n : Nat) :
    (∀ c r, c < 64 → r < 32 →
      (s.drawSprite cx cy n).1.pixel c r = (s.fb.pixel c r ^^ s.spriteCovers cx cy n c r)) ∧
    ((s.drawSprite cx cy n).2 = true ↔
      ∃ c r, c < 64 ∧ r < 32 ∧ s.spriteCovers cx cy n c r = true ∧ s.fb.pixel c r = true) := by
  induction n with
  | zero =>
    have h0 : ∀ c r, s.spriteCovers cx cy 0 c r = false := fun c r => by
      unfold State.spriteCovers
      rw [decide_eq_false (by omega)]; rfl
    simp [State.drawSprite, h0]
  | succ n ih =>
    obtain ⟨ih1, ih2⟩ := ih
    have hstep : s.drawSprite cx cy (n + 1) =
        if cy + n ≥ 32 then s.drawSprite cx cy n
        else drawRow cx (cy + n) (s.readByte (s.indexed n)) (s.drawSprite cx cy n) := by
      simp [State.drawSprite, List.range_succ]
    rw [hstep]
    have hlow : ∀ c r, r ≠ cy + n → s.spriteCovers cx cy (n + 1) c r = s.spriteCovers cx cy n c r := by
      intro c r hr
      rw [spriteCovers_eq_rowCovers, spriteCovers_eq_rowCovers]
      congr 1
      exact decide_eq_decide.mpr (by omega)
    have hrow : ∀ c, s.spriteCovers cx cy (n + 1) c (cy + n) =
        rowCovers cx (cy + n) (s.readByte (s.indexed n)) c (cy + n) := by
      intro c
      rw [spriteCovers_eq_rowCovers, decide_eq_true (by omega), Bool.true_and, Nat.add_sub_cancel_left]
    have hold : ∀ c, s.spriteCovers cx cy n c (cy + n) = false := by
      intro c
      rw [spriteCovers_eq_rowCovers, decide_eq_false (by omega)]; rfl
    by_cases hoff : cy + n ≥ 32
    · rw [if_pos hoff]
      constructor
      · intro c r hc hr
        rw [ih1 c r hc hr, hlow c r (by omega)]
      · rw [ih2]
        constructor
        · rintro ⟨c, r, hc, hr, h, h'⟩; exact ⟨c, r, hc, hr, by rw [hlow c r (by omega)]; exact h, h'⟩
        · rintro ⟨c, r, hc, hr, h, h'⟩; exact ⟨c, r, hc, hr, by rw [← hlow c r (by omega)]; exact h, h'⟩
    · rw [if_neg hoff]
      obtain ⟨h1, h2⟩ := drawRow_spec cx (cy + n) (by omega) (s.readByte (s.indexed n)) (s.drawSprite cx cy n)
      constructor
      · intro c r hc hr
        rw [h1 c r hc hr, ih1 c r hc hr]
        by_cases hr' : r = cy + n
        · subst hr'; rw [hold, hrow, Bool.xor_false]
        · rw [hlow c r hr']
          simp [rowCovers, hr']
      · rw [h2, ih2]
        constructor
        · rintro (⟨c, r, hc, hr, h, h'⟩ | ⟨c, hc, h, h'⟩)
          · have hr' : r ≠ cy + n := by
              intro hh; subst hh; rw [hold] at h; cases h
            exact ⟨c, r, hc, hr, by rw [hlow c r hr']; exact h, h'⟩
          · refine ⟨c, cy + n, hc, by omega, by rw [hrow]; exact h, ?_⟩
            rwa [ih1 c (cy + n) hc (by omega), hold, Bool.xor_false] at h'
        · rintro ⟨c, r, hc, hr, h, h'⟩
          by_cases hr' : r = cy + n
          · subst hr'
            refine .inr ⟨c, hc, by rw [← hrow]; exact h, ?_⟩
            rw [ih1 c (cy + n) hc hr, hold, Bool.xor_false]; exact h'
          · exact .inl ⟨c, r, hc, hr, by rw [← hlow c r hr']; exact h, h'⟩

end Sys2Proof.Machine
end

