-- ==== Sys2Proof/Laws/PerInstr.lean ====
section
/-! SUPPORT. Statements made of every instruction as syntax, one lemma per constructor. -/

namespace Sys2Proof.Laws.FixedBits

/-- The word of a well-formed instruction is matched by a row of R64 that reads that very instruction from it. -/
def Statement (i : Instr) : Prop :=
  i.wellFormed = true → ∃ r ∈ opcodeTable, r.hits (encode i) = true ∧ r.make (encode i) = i

/-- A row given by its place in the table. -/
theorem row_of_place {i : Instr} (k : Nat) (r : OpcodeRow) (hk : opcodeTable[k]? = some r)
    (hm : encode i &&& r.mask = r.fixed) (hr : r.make (encode i) = i) :
    ∃ r ∈ opcodeTable, r.hits (encode i) = true ∧ r.make (encode i) = i :=
  ⟨r, List.mem_of_getElem? hk, by simp [OpcodeRow.hits, hm], hr⟩

theorem cls : Statement .cls := fun _ => row_of_place 0 _ rfl (by decide) rfl

theorem ret : Statement .ret := fun _ => row_of_place 1 _ rfl (by decide) rfl

theorem jp (nnn : Addr) : Statement (.jp nnn) := fun _ =>
  row_of_place 2 _ rfl (packA_and_F000 _ _) (by simp [encode])

theorem call (nnn : Addr) : Statement (.call nnn) := fun _ =>
  row_of_place 3 _ rfl (packA_and_F000 _ _) (by simp [encode])

theorem seKk (x : Reg) (kk : Byte) : Statement (.seKk x kk) := fun _ =>
  row_of_place 4 _ rfl (packXK_and_F000 _ _ _) (by simp [encode])

theorem sneKk (x : Reg) (kk : Byte) : Statement (.sneKk x kk) := fun _ =>
  row_of_place 5 _ rfl (packXK_and_F000 _ _ _) (by simp [encode])

theorem seVy (x y : Reg) : Statement (.seVy x y) := fun _ =>
  row_of_place 6 _ rfl (packXYN_and_F00F _ _ _ _) (by simp [encode])

theorem ldKk (x : Reg) (kk : Byte) : Statement (.ldKk x kk) := fun _ =>
  row_of_place 7 _ rfl (packXK_and_F000 _ _ _) (by simp [encode])

theorem addKk (x : Reg) (kk : Byte) : Statement (.addKk x kk) := fun _ =>
  row_of_place 8 _ rfl (packXK_and_F000 _ _ _) (by simp [encode])

theorem ldVy (x y : Reg) : Statement (.ldVy x y) := fun _ =>
  row_of_place 9 _ rfl (packXYN_and_F00F _ _ _ _) (by simp [encode])

theorem orVy (x y : Reg) : Statement (.orVy x y) := fun _ =>
  row_of_place 10 _ rfl (packXYN_and_F00F _ _ _ _) (by simp [encode])

theorem andVy (x y : Reg) : Statement (.andVy x y) := fun _ =>
  row_of_place 11 _ rfl (packXYN_and_F00F _ _ _ _) (by simp [encode])

theorem xorVy (x y : Reg) : Statement (.xorVy x y) := fun _ =>
  row_of_place 12 _ rfl (packXYN_and_F00F _ _ _ _) (by simp [encode])

theorem addVy (x y : Reg) : Statement (.addVy x y) := fun _ =>
  row_of_place 13 _ rfl (packXYN_and_F00F _ _ _ _) (by simp [encode])

theorem subVy (x y : Reg) : Statement (.subVy x y) := fun _ =>
  row_of_place 14 _ rfl (packXYN_and_F00F _ _ _ _) (by simp [encode])

theorem shrVy (x y : Reg) : Statement (.shrVy x y) := fun _ =>
  row_of_place 15 _ rfl (packXYN_and_F00F _ _ _ _) (by simp [encode])

theorem subnVy (x y : Reg) : Statement (.subnVy x y) := fun _ =>
  row_of_place 16 _ rfl (packXYN_and_F00F _ _ _ _) (by simp [encode])

theorem shlVy (x y : Reg) : Statement (.shlVy x y) := fun _ =>
  row_of_place 17 _ rfl (packXYN_and_F00F _ _ _ _) (by simp [encode])

theorem sneVy (x y : Reg) : Statement (.sneVy x y) := fun _ =>
  row_of_place 18 _ rfl (packXYN_and_F00F _ _ _ _) (by simp [encode])

theorem ldI (nnn : Addr) : Statement (.ldI nnn) := fun _ =>
  row_of_place 19 _ rfl (packA_and_F000 _ _) (by simp [encode])

theorem jpV0 (nnn : Addr) : Statement (.jpV0 nnn) := fun _ =>
  row_of_place 20 _ rfl (packA_and_F000 _ _) (by simp [encode])

theorem rnd (x : Reg) (kk : Byte) : Statement (.rnd x kk) := fun _ =>
  row_of_place 21 _ rfl (packXK_and_F000 _ _ _) (by simp [encode])

theorem drw (x y : Reg) (n : Nat) : Statement (.drw x y n) := fun h =>
  row_of_place 22 _ rfl (packXYN_and_F000 _ _ _ _) (by
    have hn : n < 16 := by simpa [Instr.wellFormed] using h
    simp [encode, Nat.mod_eq_of_lt hn])

theorem skp (x : Reg) : Statement (.skp x) := fun _ =>
  row_of_place 23 _ rfl (packXK_and_F0FF _ _ _) (by simp [encode])

theorem sknp (x : Reg) : Statement (.sknp x) := fun _ =>
  row_of_place 24 _ rfl (packXK_and_F0FF _ _ _) (by simp [encode])

theorem ldVxDt (x : Reg) : Statement (.ldVxDt x) := fun _ =>
  row_of_place 25 _ rfl (packXK_and_F0FF _ _ _) (by simp [encode])

theorem ldVxK (x : Reg) : Statement (.ldVxK x) := fun _ =>
  row_of_place 26 _ rfl (packXK_and_F0FF _ _ _) (by simp [encode])

theorem ldDtVx (x : Reg) : Statement (.ldDtVx x) := fun _ =>
  row_of_place 27 _ rfl (packXK_and_F0FF _ _ _) (by simp [encode])

theorem ldStVx (x : Reg) : Statement (.ldStVx x) := fun _ =>
  row_of_place 28 _ rfl (packXK_and_F0FF _ _ _) (by simp [encode])

theorem addIVx (x : Reg) : Statement (.addIVx x) := fun _ =>
  row_of_place 29 _ rfl (packXK_and_F0FF _ _ _) (by simp [encode])

theorem ldFVx (x : Reg) : Statement (.ldFVx x) := fun _ =>
  row_of_place 30 _ rfl (packXK_and_F0FF _ _ _) (by simp [encode])

theorem ldBVx (x : Reg) : Statement (.ldBVx x) := fun _ =>
  row_of_place 31 _ rfl (packXK_and_F0FF _ _ _) (by simp [encode])

theorem ldMemVx (x : Reg) : Statement (.ldMemVx x) := fun _ =>
  row_of_place 32 _ rfl (packXK_and_F0FF _ _ _) (by simp [encode])

theorem ldVxMem (x : Reg) : Statement (.ldVxMem x) := fun _ =>
  row_of_place 33 _ rfl (packXK_and_F0FF _ _ _) (by simp [encode])

end Sys2Proof.Laws.FixedBits
end

