-- ==== Sys2Proof/Laws/Step.lean ====
section
/-! SUPPORT. Everything a step can do, said once: one inversion lemma for each agent's move and one for `step`. -/

namespace Sys2Proof.Machine

/-! ### The instructions whose outcome branches -/

/-- What 00EE does when it answers a next state (R86). -/
theorem execRet_next {s t : State} (h : execRet s = .next t) :
    (s.sp = 0 ∧ t = s.raise .stackUnderflow 0x00EE) ∨
    (s.sp ≠ 0 ∧ ∃ _ : s.sp.toNat - 1 < 16, t = { s with sp := s.sp - 1 }.setPc s.stack[s.sp.toNat - 1]) := by
  unfold execRet at h
  split at h
  · next h0 => exact .inl ⟨h0, (Host.Outcome.next.inj h).symm⟩
  · next h0 =>
    unfold State.pop at h
    by_cases hb : s.sp.toNat - 1 < 16
    · rw [dif_pos hb] at h
      exact .inr ⟨h0, hb, (Host.Outcome.next.inj h).symm⟩
    · rw [dif_neg hb] at h
      cases h

/-- What 2nnn does when it answers a next state (R88). -/
theorem execCall_next {nnn : Addr} {s t : State} (h : execCall nnn s = .next t) :
    (s.sp = 16 ∧ t = s.raise .stackOverflow (encode (.call nnn))) ∨
    (s.sp ≠ 16 ∧ ∃ _ : s.sp.toNat < 16,
      t = { s with stack := s.stack.set s.sp.toNat s.nextPc, sp := s.sp + 1 }.setPc (immAddr nnn)) := by
  unfold execCall at h
  split at h
  · next h0 => exact .inl ⟨h0, (Host.Outcome.next.inj h).symm⟩
  · next h0 =>
    unfold State.push at h
    by_cases hb : s.sp.toNat < 16
    · rw [dif_pos hb] at h
      exact .inr ⟨h0, hb, (Host.Outcome.next.inj h).symm⟩
    · rw [dif_neg hb] at h
      cases h

/-- A skip on a key raises or skips (R100 to R102). -/
theorem skipOnKey_cases (s : State) (w : Word) (x : Reg) (p : Bool) :
    (16 ≤ (s.getV x).toNat ∧ s.skipOnKey w x p = s.raise .undefinedKeyIndex w) ∨
    (∃ k : Reg, (s.getV x).toNat = k.val ∧ s.skipOnKey w x p = s.skipIf (s.keys[k] == p)) := by
  unfold State.skipOnKey
  by_cases h : (s.getV x).toNat < 16
  · exact .inr ⟨⟨_, h⟩, rfl, by rw [dif_pos h]; rfl⟩
  · exact .inl ⟨by omega, by rw [dif_neg h]⟩

/-- What Fx0A does: it always answers a next state, waiting on or done (R125). -/
theorem execLdVxK_cases (x : Reg) (s : State) :
    ((s.waitingForKey = false ∨ s.lowestReleased = none) ∧ execLdVxK x s = .next s.awaitKey) ∨
    (∃ k, s.waitingForKey = true ∧ s.lowestReleased = some k ∧
      execLdVxK x s = .next ({ s with waitingForKey := false }.setV x (BitVec.ofNat 8 k.val)).advance) := by
  unfold execLdVxK
  cases hw : s.waitingForKey with
  | false => exact .inl ⟨.inl rfl, rfl⟩
  | true =>
    cases hl : s.lowestReleased with
    | none => exact .inl ⟨.inr rfl, rfl⟩
    | some k => exact .inr ⟨k, rfl, rfl, rfl⟩

/-! ### The agents' moves -/

/-- What the core's step does when it answers a next state (R60). -/
theorem cpuStep_next {s t : State} (h : cpuStep s = .next t) :
    (s.halted = true ∧ t = s) ∨
    (s.halted = false ∧ ∃ i, decode s.fetchWord = .ok i ∧ exec i s = .next t) ∨
    (s.halted = false ∧ (∃ e, decode s.fetchWord = .error e) ∧ t = s.raise .invalidOpcode s.fetchWord) := by
  unfold cpuStep at h
  split at h
  · next hh => exact .inl ⟨hh, (Host.Outcome.next.inj h).symm⟩
  · next hh =>
    have hh : s.halted = false := by simpa using hh
    split at h
    · next i hi => exact .inr (.inl ⟨hh, i, hi, h⟩)
    · next e he => exact .inr (.inr ⟨hh, ⟨e, he⟩, (Host.Outcome.next.inj h).symm⟩)

/-- A stop of the core's step is a stop of the instruction it ran. -/
theorem cpuStep_fault {s : State} {r : Fault} (h : cpuStep s = .fault r) :
    ∃ i, decode s.fetchWord = .ok i ∧ exec i s = .fault r := by
  unfold cpuStep at h
  split at h
  · cases h
  · split at h
    · next i hi => exact ⟨i, hi, h⟩
    · cases h

theorem cpuStep_refused {s : State} {r : Refusal} (h : cpuStep s = .refused r) :
    ∃ i, decode s.fetchWord = .ok i ∧ exec i s = .refused r := by
  unfold cpuStep at h
  split at h
  · cases h
  · split at h
    · next i hi => exact ⟨i, hi, h⟩
    · cases h

theorem cpuStep_of_decode {s : State} {i : Instr} (hh : s.halted = false) (hi : decode s.fetchWord = .ok i) :
    cpuStep s = exec i s := by
  simp [cpuStep, hh, hi]

/-- An invalid word is a fatal error (R66, R133). -/
theorem cpuStep_of_invalid {s : State} {e : Reject} (hh : s.halted = false) (he : decode s.fetchWord = .error e) :
    cpuStep s = .next (s.raise .invalidOpcode s.fetchWord) := by
  simp [cpuStep, hh, he]

theorem cpuStep_of_halted {s : State} (hh : s.halted = true) : cpuStep s = .next s := by
  simp [cpuStep, hh]

/-- What a round of a frame does when it answers a next state (R150). -/
theorem frameMove_next {k : Nat} {s t : State} (h : frameMove k s = .next t) :
    (k < Config.cyclesPerFrame ∧ Config.deadline s.deadlineDraws = true ∧
      t = s.countDeadline.endFrame) ∨
    (k < Config.cyclesPerFrame ∧ Config.deadline s.deadlineDraws = false ∧
      ∃ u, cpuStep s.countDeadline = .next u ∧
        t = u.setFrame (frameAfter k s.countDeadline u)) ∨
    (Config.cyclesPerFrame ≤ k ∧ t = s.endFrame) := by
  unfold frameMove at h
  split at h
  · next hk =>
    split at h
    · next hd => exact .inl ⟨hk, hd, (Host.Outcome.next.inj h).symm⟩
    · next hd =>
      have hd : Config.deadline s.deadlineDraws = false := by simpa using hd
      split at h
      · next u hu => exact .inr (.inl ⟨hk, hd, u, hu, (Host.Outcome.next.inj h).symm⟩)
      · cases h
      · cases h
  · next hk => exact .inr (.inr ⟨Nat.le_of_not_lt hk, (Host.Outcome.next.inj h).symm⟩)

/-- What a host move does when it answers a next state (R146 to R154, R161, R162). -/
theorem hostMove_next {op : HostOp} {s t : State} (h : hostMove op s = .next t) :
    (∃ bytes, op = .loadRom bytes ∧ bytes.length ≤ Config.romMax ∧ t = s.loadImage bytes) ∨
    (∃ bytes, op = .loadRom bytes ∧ Config.romMax < bytes.length ∧ t = s.emit (.romTooLarge bytes.length)) ∨
    (∃ idx p, ∃ h : idx < 16, op = .keyEvent idx p ∧ t = s.setKeys (s.keys.set idx p)) ∨
    (∃ keys, op = .pollKeys keys ∧ t = s.setKeys keys) ∨
    (op = .runFrame ∧ s.halted = false ∧ t = s.setFrame (.running 0)) ∨
    (op = .singleStep ∧ cpuStep s = .next t) ∨
    (((op = .runFrame ∧ s.halted = true) ∨ op = .pause ∨ op = .selectBackend) ∧ t = s) := by
  cases op with
  | loadRom bytes =>
    simp only [hostMove] at h
    split at h
    · next hl => exact .inl ⟨bytes, rfl, hl, (Host.Outcome.next.inj h).symm⟩
    · next hl => exact .inr (.inl ⟨bytes, rfl, Nat.lt_of_not_le hl, (Host.Outcome.next.inj h).symm⟩)
  | keyEvent idx p =>
    simp only [hostMove] at h
    split at h
    · next hi => exact .inr (.inr (.inl ⟨idx, p, hi, rfl, (Host.Outcome.next.inj h).symm⟩))
    · cases h
  | pollKeys keys => exact .inr (.inr (.inr (.inl ⟨keys, rfl, (Host.Outcome.next.inj h).symm⟩)))
  | runFrame =>
    simp only [hostMove] at h
    split at h
    · next hh =>
      exact .inr (.inr (.inr (.inr (.inr (.inr ⟨.inl ⟨rfl, hh⟩, (Host.Outcome.next.inj h).symm⟩)))))
    · next hh =>
      exact .inr (.inr (.inr (.inr (.inl ⟨rfl, by simpa using hh, (Host.Outcome.next.inj h).symm⟩))))
  | singleStep => exact .inr (.inr (.inr (.inr (.inr (.inl ⟨rfl, h⟩)))))
  | pause => exact .inr (.inr (.inr (.inr (.inr (.inr ⟨.inr (.inl rfl), (Host.Outcome.next.inj h).symm⟩)))))
  | selectBackend =>
    exact .inr (.inr (.inr (.inr (.inr (.inr ⟨.inr (.inr rfl), (Host.Outcome.next.inj h).symm⟩)))))

/-- What a step of the machine does when it answers a next state (R7). -/
theorem step_next {s t : State} (h : step s = .next t) :
    (∃ k, s.frame = .running k ∧ frameMove k s = .next t) ∨
    (s.frame = .ending ∧ t = s.endFrame) ∨
    (s.frame = .idle ∧ ∃ op rest, s.agenda = op :: rest ∧ hostMove op (s.setAgenda rest) = .next t) ∨
    (s.frame = .idle ∧ s.agenda = [] ∧ cpuStep s = .next t) := by
  unfold step nextMove at h
  split at h
  · next k hk => exact .inl ⟨k, hk, h⟩
  · next he => exact .inr (.inl ⟨he, (Host.Outcome.next.inj h).symm⟩)
  · next hi =>
    split at h
    · next op rest ha => exact .inr (.inr (.inl ⟨hi, op, rest, ha, h⟩))
    · next ha => exact .inr (.inr (.inr ⟨hi, ha, h⟩))

/-- With no frame under way and no host move listed, a step is the core's (R149). -/
theorem step_of_idle {s : State} (hf : s.frame = .idle) (ha : s.agenda = []) : step s = cpuStep s := by
  simp [step, nextMove, hf, ha]

/-- With no frame under way, a step is the host's next move (R146). -/
theorem step_of_agenda {s : State} {op : HostOp} {rest : List HostOp} (hf : s.frame = .idle)
    (ha : s.agenda = op :: rest) : step s = hostMove op (s.setAgenda rest) := by
  simp [step, nextMove, hf, ha]

/-- With a frame under way, a step is a round of it (R150). -/
theorem step_of_running {s : State} {k : Nat} (hf : s.frame = .running k) : step s = frameMove k s := by
  simp [step, nextMove, hf]

/-- With a frame's quantum over, a step is its end (R150). -/
theorem step_of_ending {s : State} (hf : s.frame = .ending) : step s = .next s.endFrame := by
  simp [step, nextMove, hf]

/-! ### Runs of several steps -/

/-- A run goes on from the next state. -/
theorem run_succ_of_next {s t : State} (h : step s = .next t) (n : Nat) :
    Host.Core.run Sys2Proof.core (n + 1) s = Host.Core.run Sys2Proof.core n t := by
  have e : Sys2Proof.core.step s = .next t := h
  simp only [Host.Core.run, e]

/-- A run ends at the first fault. -/
theorem run_succ_of_fault {s : State} {r : Fault} (h : step s = .fault r) (n : Nat) :
    Host.Core.run Sys2Proof.core (n + 1) s = .fault r := by
  have e : Sys2Proof.core.step s = .fault r := h
  simp only [Host.Core.run, e]

/-- A run ends at the first refusal. -/
theorem run_succ_of_refused {s : State} {r : Refusal} (h : step s = .refused r) (n : Nat) :
    Host.Core.run Sys2Proof.core (n + 1) s = .refused r := by
  have e : Sys2Proof.core.step s = .refused r := h
  simp only [Host.Core.run, e]

end Sys2Proof.Machine
end

