-- ==== Sys2Proof/Tests/Slice0.lean ====
section
/-! SUPPORT. Tests of the model: the well-formedness check, every row's decoding from a word written out bit by bit from
the formats of R62, one step of the vectors of spec/95_test_vectors.md (each named by its id there), and for every
obligation with hypotheses a witness that meets them. -/

namespace Sys2Proof.Tests

open Sys2Proof Sys2Proof.Machine

/-! ### Well-formedness -/

theorem test_drw_height_16_refused : (Instr.drw 0 0 16).wellFormed = false := by decide

theorem test_drw_height_15_accepted : (Instr.drw 0 0 15).wellFormed = true := by decide

/-! ### Decoding, bit by bit (R61 to R64): the fields x = 0001, y = 0010, n = 0011, kk = 01011010 and nnn = 001000000100 -/

theorem test_decode_cls : decode 0b0000000011100000 = .ok .cls := by decide
theorem test_decode_ret : decode 0b0000000011101110 = .ok .ret := by decide
theorem test_decode_jp : decode 0b0001001000000100 = .ok (.jp 0x204) := by decide
theorem test_decode_call : decode 0b0010001000000100 = .ok (.call 0x204) := by decide
theorem test_decode_seKk : decode 0b0011000101011010 = .ok (.seKk 1 0x5A) := by decide
theorem test_decode_sneKk : decode 0b0100000101011010 = .ok (.sneKk 1 0x5A) := by decide
theorem test_decode_seVy : decode 0b0101000100100000 = .ok (.seVy 1 2) := by decide
theorem test_decode_ldKk : decode 0b0110000101011010 = .ok (.ldKk 1 0x5A) := by decide
theorem test_decode_addKk : decode 0b0111000101011010 = .ok (.addKk 1 0x5A) := by decide
theorem test_decode_ldVy : decode 0b1000000100100000 = .ok (.ldVy 1 2) := by decide
theorem test_decode_orVy : decode 0b1000000100100001 = .ok (.orVy 1 2) := by decide
theorem test_decode_andVy : decode 0b1000000100100010 = .ok (.andVy 1 2) := by decide
theorem test_decode_xorVy : decode 0b1000000100100011 = .ok (.xorVy 1 2) := by decide
theorem test_decode_addVy : decode 0b1000000100100100 = .ok (.addVy 1 2) := by decide
theorem test_decode_subVy : decode 0b1000000100100101 = .ok (.subVy 1 2) := by decide
theorem test_decode_shrVy : decode 0b1000000100100110 = .ok (.shrVy 1 2) := by decide
theorem test_decode_subnVy : decode 0b1000000100100111 = .ok (.subnVy 1 2) := by decide
theorem test_decode_shlVy : decode 0b1000000100101110 = .ok (.shlVy 1 2) := by decide
theorem test_decode_sneVy : decode 0b1001000100100000 = .ok (.sneVy 1 2) := by decide
theorem test_decode_ldI : decode 0b1010001000000100 = .ok (.ldI 0x204) := by decide
theorem test_decode_jpV0 : decode 0b1011001000000100 = .ok (.jpV0 0x204) := by decide
theorem test_decode_rnd : decode 0b1100000101011010 = .ok (.rnd 1 0x5A) := by decide
theorem test_decode_drw : decode 0b1101000100100011 = .ok (.drw 1 2 3) := by decide
theorem test_decode_skp : decode 0b1110000110011110 = .ok (.skp 1) := by decide
theorem test_decode_sknp : decode 0b1110000110100001 = .ok (.sknp 1) := by decide
theorem test_decode_ldVxDt : decode 0b1111000100000111 = .ok (.ldVxDt 1) := by decide
theorem test_decode_ldVxK : decode 0b1111000100001010 = .ok (.ldVxK 1) := by decide
theorem test_decode_ldDtVx : decode 0b1111000100010101 = .ok (.ldDtVx 1) := by decide
theorem test_decode_ldStVx : decode 0b1111000100011000 = .ok (.ldStVx 1) := by decide
theorem test_decode_addIVx : decode 0b1111000100011110 = .ok (.addIVx 1) := by decide
theorem test_decode_ldFVx : decode 0b1111000100101001 = .ok (.ldFVx 1) := by decide
theorem test_decode_ldBVx : decode 0b1111000100110011 = .ok (.ldBVx 1) := by decide
theorem test_decode_ldMemVx : decode 0b1111000101010101 = .ok (.ldMemVx 1) := by decide
theorem test_decode_ldVxMem : decode 0b1111000101100101 = .ok (.ldVxMem 1) := by decide

/-- The encoding of R70's worked word, ADD V3, 0x7F. -/
theorem test_encode_addKk : encode (.addKk 3 0x7F) = 0x737F := by decide

/-- The invalid words of 95_test_vectors.md. -/
theorem test_invalid_words :
    [0x0000, 0x0123, 0x00E1, 0x5121, 0x800F, 0x8008, 0x9AB1, 0xE000, 0xE09F, 0xF000, 0xF0FF].all
      (fun w => decide (decode w = .error (.invalidOpcode w))) = true := by decide

/-- A single byte is no instruction (R68). -/
theorem test_truncated : decodeBytes [0x60] = .error .truncated := by decide

/-- The host's probe reads the table's numbering: 16 bits are one word, its first byte high. -/
theorem test_decodeTableWord : decodeTableWord 16 0x6A7F = some (.ldKk 10 0x7F) := by decide

/-! ### One step -/

/-- The reset state with a word at 0x200. -/
def at200 (w : Nat) : State := State.reset.withFetchWord 16 w

/-- The state after one step, if there is one. -/
def after (s : State) : Option State :=
  match step s with
  | .next t => some t
  | .fault _ => none
  | .refused _ => none

/-- V0, V1, VF and pc after one step. -/
def regs (s : State) : Option (Byte × Byte × Byte × Word) := (after s).map fun t => (t.v[0], t.v[1], t.v[15], t.pc)

/-- Row 0x200 with V0 and V1. -/
def with01 (w : Nat) (a b : Byte) : State := ((at200 w).setV 0 a).setV 1 b

/-- With VF too. -/
def withF (w : Nat) (a b f : Byte) : State := (with01 w a b).setV 15 f

theorem test_V_D1_cls : (after { at200 0x00E0 with fb := Vector.replicate 32 (BitVec.allOnes 64) }).map
    (fun t => (t.fb, t.fbChanged, t.pc)) = some (Vector.replicate 32 0, true, 0x202) := by decide

/-- V-D2: pixels (1..8, 1). -/
theorem test_V_D2_drw : (after (((with01 0xD011 0x41 0x21).setI 0x300).writeByte 0x300 0xFF)).map
    (fun t => (t.fb, t.v[15])) = some ((Vector.replicate 32 (0 : BitVec 64)).set 1 0x1FE, 0) := by decide

/-- V-D9: the same sprite again erases it and sets VF. -/
theorem test_V_D9_drw : (after { ((with01 0xD011 0x41 0x21).setI 0x300).writeByte 0x300 0xFF with
    fb := (Vector.replicate 32 (0 : BitVec 64)).set 1 0x1FE }).map
    (fun t => (t.fb, t.v[15])) = some (Vector.replicate 32 (0 : BitVec 64), 1) := by decide

/-- V-F3: the entry stays. -/
theorem test_V_F3_ret : (after { at200 0x00EE with sp := 1, stack := (Vector.replicate 16 (0 : Word)).set 0 0x202 }).map
    (fun t => (t.sp, t.pc, t.stack[0])) = some (0, 0x202, 0x202) := by decide

theorem test_V_F4_ret : (after (at200 0x00EE)).map (fun t => (t.fault, t.halted, t.pc, t.sp)) =
    some (some ⟨.stackUnderflow, 0x00EE, 0x200⟩, true, 0x202, 0) := by decide

theorem test_V_F1_jp : (after (at200 0x1300)).map (·.pc) = some 0x300 := by decide

/-- V-F7: next wraps. -/
theorem test_V_F7_call : (after ({ State.reset with pc := 0xFFE }.withFetchWord 16 0x2300)).map
    (fun t => (t.stack[0], t.sp, t.pc)) = some (0x000, 1, 0x300) := by decide

theorem test_V_F6_call : (after { at200 0x2200 with sp := 16 }).map (fun t => (t.fault, t.halted, t.sp, t.pc)) =
    some (some ⟨.stackOverflow, 0x2200, 0x200⟩, true, 16, 0x202) := by decide

/-- V-F9: an odd target. -/
theorem test_V_F9_jpV0 : (after ((at200 0xBFFF).setV 0 2)).map (·.pc) = some 0x001 := by decide

theorem test_V_S3_seKk : (after (({ State.reset with pc := 0xFFE }.withFetchWord 16 0x3310).setV 3 0x10)).map (·.pc) =
    some 0x002 := by decide

theorem test_V_S2_seKk : (after ((at200 0x3311).setV 3 0x10)).map (·.pc) = some 0x202 := by decide

theorem test_V_S4_sneKk : (after ((at200 0x4100).setV 1 5)).map (·.pc) = some 0x204 := by decide

theorem test_V_S5_seVy : (after (at200 0x5550)).map (·.pc) = some 0x204 := by decide

theorem test_V_S7_sneVy : (after (with01 0x9010 1 2)).map (·.pc) = some 0x204 := by decide

theorem test_V_S8_skp : (after (((at200 0xE59E).setV 5 0x0A).setKeys ((Vector.replicate 16 false).set 10 true))).map
    (·.pc) = some 0x204 := by decide

theorem test_V_S11_skp : (after ((at200 0xE09E).setV 0 0x10)).map (fun t => (t.fault, t.halted, t.pc)) =
    some (some ⟨.undefinedKeyIndex, 0xE09E, 0x200⟩, true, 0x202) := by decide

theorem test_V_S9_sknp : (after ((at200 0xE0A1).setV 0 3)).map (·.pc) = some 0x204 := by decide

theorem test_V_S10_sknp : (after (((at200 0xE0A1).setV 0 3).setKeys ((Vector.replicate 16 false).set 3 true))).map
    (·.pc) = some 0x202 := by decide

theorem test_V_A1_ldKk : (after (at200 0x6A7F)).map (fun t => t.v[10]) = some 0x7F := by decide

theorem test_V_A2_addKk : regs (with01 0x7001 0xFF 0) = some (0, 0, 0, 0x202) := by decide

theorem test_V_A3_addKk : regs (withF 0x7FFF 0 0 1) = some (0, 0, 0, 0x202) := by decide

theorem test_V_A4_ldVy : regs (withF 0x8010 0 0x33 7) = some (0x33, 0x33, 7, 0x202) := by decide

theorem test_V_A5_orVy : regs (withF 0x8F11 0 0x0F 0xF0) = some (0, 0x0F, 0, 0x202) := by decide

theorem test_V_A6_andVy : regs (withF 0x8012 0xF0 0x3C 1) = some (0x30, 0x3C, 0, 0x202) := by decide

theorem test_V_A7_xorVy : regs (withF 0x8013 0xFF 0x0F 1) = some (0xF0, 0x0F, 0, 0x202) := by decide

theorem test_V_A8_addVy : regs (with01 0x8014 0xFF 0xFF) = some (0xFE, 0xFF, 1, 0x202) := by decide

theorem test_V_A9_addVy : regs (withF 0x8F14 0 1 0xFF) = some (0, 1, 1, 0x202) := by decide

theorem test_V_A10_subVy : regs (with01 0x8015 5 5) = some (0, 5, 1, 0x202) := by decide

theorem test_V_A11_subVy : regs (with01 0x8015 3 5) = some (0xFE, 5, 0, 0x202) := by decide

theorem test_V_A13_shrVy : regs (withF 0x80F6 0 0 3) = some (1, 0, 1, 0x202) := by decide

theorem test_V_A14_shrVy : regs (with01 0x8006 0x80 0) = some (0x40, 0, 0, 0x202) := by decide

theorem test_V_A15_subnVy : regs (with01 0x8017 5 3) = some (0xFE, 3, 0, 0x202) := by decide

theorem test_V_A16_subnVy : regs (withF 0x8F17 0 5 0x10) = some (0, 5, 0, 0x202) := by decide

theorem test_V_A17_shlVy : regs (with01 0x801E 0x55 0x81) = some (2, 0x81, 1, 0x202) := by decide

theorem test_V_A18_shlVy : regs (withF 0x8FFE 0 0 0x80) = some (0, 0, 1, 0x202) := by decide

/-- V-A20: whatever the draw; it is taken all the same. -/
theorem test_V_A20_rnd : (after (at200 0xC000)).map (·.rngDraws) = some 1 := by decide

theorem test_V_I1_ldI : (after (at200 0xA300)).map (·.i) = some 0x300 := by decide

theorem test_V_I2_addIVx : (after (((at200 0xF01E).setI 0x0FFF).setV 0 1)).map (·.i) = some 0x1000 := by decide

theorem test_V_I3_addIVx : (after (((at200 0xF01E).setI 0xFFFF).setV 0 2)).map (·.i) = some 0x0001 := by decide

theorem test_V_I4_ldFVx : (after ((at200 0xF029).setV 0 0x1A)).map (·.i) = some 0x0082 := by decide

/-- V-I7: the digits of 255 across the top of RAM. -/
theorem test_V_I7_ldBVx : (after (((at200 0xF033).setI 0xFFF).setV 0 0xFF)).map
    (fun t => (t.readByte 0xFFF, t.readByte 0x000, t.readByte 0x001, t.i)) = some (2, 5, 5, 0xFFF) := by decide

/-- V-I9: all sixteen registers across the top of RAM. -/
theorem test_V_I9_ldMemVx : (after { (at200 0xFF55).setI 0xFF8 with v := Vector.ofFn fun k => BitVec.ofNat 8 k.val }).map
    (fun t => (t.readByte 0xFF8, t.readByte 0xFFF, t.readByte 0x000, t.readByte 0x007, t.i)) =
    some (0x00, 0x07, 0x08, 0x0F, 0x1008) := by decide

/-- V-I11. -/
theorem test_V_I11_ldVxMem : (after (((((at200 0xF265).setI 0x300).writeByte 0x300 2).writeByte 0x301 5).writeByte 0x302 4)).map
    (fun t => (t.v[0], t.v[1], t.v[2], t.v[3], t.i)) = some (2, 5, 4, 0, 0x303) := by decide

theorem test_V_T1_ldVxDt : (after { at200 0xF507 with dt := 0x2A }).map (fun t => t.v[5]) = some 0x2A := by decide

theorem test_V_T2_ldDtVx : (after { at200 0xF515 with dt := 9 }).map (·.dt) = some 0 := by decide

theorem test_V_T3_ldStVx : (after ((at200 0xF518).setV 5 0xFF)).map (fun t => (t.st, t.outputs)) =
    some (0xFF, [.beep true]) := by decide

/-- V-T5: two ticks. -/
theorem test_V_T5_tick : ({ State.reset with st := 2 }.tick.st, { State.reset with st := 2 }.tick.tick.outputs) =
    (1, [.beep false]) := by decide

theorem test_V_K1_ldVxK : (after (at200 0xF00A)).map (fun t => (t.waitingForKey, t.pc)) = some (true, 0x200) := by decide

/-- V-K2, its second step: the lowest of the two keys released. -/
theorem test_V_K2_ldVxK : (after { at200 0xF00A with
    waitingForKey := true, keyPrev := ((Vector.replicate 16 false).set 2 true).set 9 true }).map
    (fun t => (t.v[0], t.waitingForKey, t.pc)) = some (2, false, 0x202) := by decide

/-- V-R4: nothing is loaded, so the first step raises InvalidOpcode. -/
theorem test_V_R4_reset : (after State.reset).map (fun t => (t.fault, t.pc)) =
    some (some ⟨.invalidOpcode, 0x0000, 0x200⟩, 0x202) := by decide

/-- V-R1: the image, the font's first and last bytes, and zero. -/
theorem test_V_R1_loadRom : (after { State.reset with agenda := [.loadRom [0x60, 0x05]] }).map
    (fun t => [t.readByte 0x200, t.readByte 0x201, t.readByte 0x202, t.readByte 0x04F, t.readByte 0x050,
      t.readByte 0x09F, t.readByte 0x0A0]) = some [0x60, 0x05, 0, 0, 0xF0, 0x80, 0] := by decide

/-- R51: another font stands where the default one would, and the bytes beside it are zero. -/
theorem test_loadRom_other_font :
    (after { State.reset with font := Vector.replicate 80 0xAA, agenda := [.loadRom []] }).map
    (fun t => [t.readByte 0x04F, t.readByte 0x050, t.readByte 0x09F, t.readByte 0x0A0]) = some [0, 0xAA, 0xAA, 0] := by
  decide

/-! ### Witnesses: concrete states and operands that meet an obligation's hypotheses, each clause at its boundary -/

/-- The key matrix with one key down. -/
def oneKey (k : Reg) : Vector Bool 16 := (Vector.replicate 16 false).set k true

/-- A screen with the pixel (0, 0) set. -/
def dotScreen : FrameBuffer := (Vector.replicate 32 (0 : BitVec 64)).set 0 1

theorem witness_DecodeEncodeRoundTrip :
    (Instr.drw 15 15 15).wellFormed = true ∧ decode 0xDFFF = .ok (.drw 15 15 15) := by decide

/-- Each row of R64 has words: its own fixed bits. -/
theorem witness_RowIs : opcodeTable.all (fun r => r.hits r.fixed) = true := by decide

theorem witness_InvalidWordsAreThoseListed : State.reset.frame = .idle ∧ State.reset.agenda = [] ∧
    State.reset.halted = false ∧ decode State.reset.fetchWord = .error (.invalidOpcode 0) := by decide

theorem witness_StepRunsTheDecodedInstruction_halted :
    let s := { State.reset with halted := true }
    s.frame = .idle ∧ s.agenda = [] ∧ s.halted = true := by decide

/-- The word of 0x200 by its bytes, at the top of the address space: the second byte is at address 0. -/
theorem witness_StepRunsTheDecodedInstruction :
    let s := ({ State.reset with pc := 0xFFF } : State).withFetchWord 16 0x6A7F
    s.frame = .idle ∧ s.agenda = [] ∧ s.halted = false ∧
      (0x6A7F : Word).toNat = 256 * (s.readByte s.pc).toNat + (s.readByte (s.pc + 1)).toNat ∧
      decode 0x6A7F = .ok (.ldKk 10 0x7F) := by decide

theorem witness_HostStepAndFrameRunTheInstruction_step :
    let s := { at200 0x6A7F with agenda := [.singleStep, .runFrame] }
    s.frame = .idle ∧ s.agenda = .singleStep :: [.runFrame] ∧ s.halted = false ∧
      decode s.fetchWord = .ok (.ldKk 10 0x7F) := by decide

theorem witness_HostStepAndFrameRunTheInstruction_frame :
    let s := { at200 0xF00A with frame := .running 0 }
    s.frame = .running 0 ∧ 0 < Config.cyclesPerFrame ∧ s.halted = false ∧ decode s.fetchWord = .ok (.ldVxK 0) :=
  ⟨rfl, Nat.succ_pos _, rfl, by decide⟩

/-- 800F is no instruction: met by a listed `step()` and by a round of a frame. -/
theorem witness_InvalidWordHaltsTheCore_listed_step :
    let s := { at200 0x800F with agenda := [.singleStep, .pause] }
    s.frame = .idle ∧ s.agenda = .singleStep :: [.pause] ∧ s.halted = false ∧
      decode s.fetchWord = .error (.invalidOpcode 0x800F) := by decide

theorem witness_InvalidWordHaltsTheCore_frame :
    let s := { at200 0x800F with frame := .running 0 }
    s.frame = .running 0 ∧ 0 < Config.cyclesPerFrame ∧ s.halted = false ∧
      decode s.fetchWord = .error (.invalidOpcode 0x800F) :=
  ⟨rfl, Nat.succ_pos _, rfl, by decide⟩

theorem witness_InvalidWordHaltsTheCore : State.reset.frame = .idle ∧ State.reset.agenda = [] ∧
    State.reset.halted = false ∧ ∃ e, decode State.reset.fetchWord = .error e := ⟨rfl, rfl, rfl, .invalidOpcode 0, by decide⟩

/-- A sprite over a set pixel, and one over none. -/
theorem witness_DrawFlipsTheSpritesPixels :
    let s := { (at200 0xD011).writeByte 0x000 0x80 with fb := dotScreen }
    (s.spriteCovers (s.v[0].toNat % 64) (s.v[1].toNat % 32) 1 0 0 = true ∧ s.fb.pixel 0 0 = true) ∧
    (∀ c r, c < 64 → r < 32 →
      State.reset.spriteCovers (State.reset.v[0].toNat % 64) (State.reset.v[1].toNat % 32) 0 c r = true →
      State.reset.fb.pixel c r = false) := by
  refine ⟨by decide, fun c r _ _ h => ?_⟩
  simp only [State.spriteCovers, Bool.and_eq_true, decide_eq_true_eq] at h
  omega

theorem witness_CallPushesNextAndJumps : ({ State.reset with sp := 15 } : State).sp.toNat < 16 ∧
    (15 : Fin 16).val = ({ State.reset with sp := 15 } : State).sp.toNat ∧
    (14 : Fin 16).val ≠ ({ State.reset with sp := 15 } : State).sp.toNat := by decide

theorem witness_CallPushesNextAndJumps_full : ({ State.reset with sp := 16 } : State).sp = 16 := by decide

theorem witness_ReturnPopsOrUnderflows : 0 < ({ State.reset with sp := 16 } : State).sp.toNat ∧
    ({ State.reset with sp := 16 } : State).sp.toNat ≤ 16 ∧
    (15 : Fin 16).val + 1 = ({ State.reset with sp := 16 } : State).sp.toNat := by decide

theorem witness_ReturnPopsOrUnderflows_empty : State.reset.sp = 0 := by decide

theorem witness_ReturnUndoesCall : ({ State.reset with sp := 15 } : State).sp.toNat < 16 ∧
    (0 : Fin 16).val ≠ ({ State.reset with sp := 15 } : State).sp.toNat := by decide

theorem witness_JumpToSelfStays : (at200 0x1200).frame = .idle ∧ (at200 0x1200).agenda = [] ∧
    (at200 0x1200).halted = false ∧ decode (at200 0x1200).fetchWord = .ok (.jp 0x200) ∧
    (0x200 : Addr).toNat = (at200 0x1200).pc.toNat := by decide

theorem witness_SkipsComparingRegisters : (0x9001 : Word).toNat / 4096 = 9 ∧ (0x9001 : Word).toNat % 16 ≠ 0 := by decide

theorem witness_SkipsOnAKey : (State.reset.setV 3 15).v[3].toNat = (15 : Fin 16).val := by decide

theorem witness_KeyIndexAboveFifteenFaults : 16 ≤ (State.reset.setV 3 16).v[3].toNat := by decide

/-- The flag results hold for a destination that is not VF; the other registers, where the destination is VF too. -/
theorem witness_destination_not_VF : (14 : Reg) ≠ 15 ∧ (13 : Reg) ∉ [14, (15 : Reg)] ∧ (13 : Reg) ∉ [(15 : Reg), 15] := by
  decide

theorem witness_StoreDecimalDigits :
    let s := State.reset.setI 0xFFFF
    s.memWf = true ∧ (0xFFF : Word).toNat % 4096 = s.i.toNat % 4096 ∧
      (0x000 : Word).toNat % 4096 = (s.i.toNat + 1) % 4096 ∧ (0x001 : Word).toNat % 4096 = (s.i.toNat + 2) % 4096 ∧
      ∀ k, k < 3 → (0x002 : Word).toNat % 4096 ≠ (s.i.toNat + k) % 4096 := by decide

theorem witness_StoreRegistersAtIndex :
    let s := State.reset.setI 0xFFFF
    s.memWf = true ∧ (15 : Reg).val ≤ (15 : Reg).val ∧
      (0x00E : Word).toNat % 4096 = (s.i.toNat + (15 : Reg).val) % 4096 ∧
      ∀ k : Reg, k.val ≤ (15 : Reg).val → (0x00F : Word).toNat % 4096 ≠ (s.i.toNat + k.val) % 4096 := by decide

theorem witness_LoadRegistersFromIndex :
    let s := State.reset.setI 0xFFFF
    s.memWf = true ∧ s.i.toNat % 4096 = (0xFFF : Addr).toNat ∧ (14 : Reg).val ≤ (14 : Reg).val ∧
      (0x00D : Word).toNat % 4096 = (s.i.toNat + (14 : Reg).val) % 4096 ∧ (14 : Reg).val < (15 : Reg).val := by decide

/-- V0 and V1 hold the word 1200, stored over the very next instruction: V0 under pc and V1 under pc + 1. -/
theorem witness_StoreIsSeenByTheNextFetch_registers :
    let s := (with01 0xF155 0x12 0x00).setI 0x202
    s.memWf = true ∧ ∃ t, exec (.ldMemVx 1) s = .next t ∧ (∀ a, t.readByte a = t.readByte a) ∧
      (0 : Reg).val ≤ (1 : Reg).val ∧ t.pc.toNat % 4096 = (s.i.toNat + (0 : Reg).val) % 4096 ∧
      (t.pc.toNat + 1) % 4096 = (s.i.toNat + (1 : Reg).val) % 4096 :=
  ⟨by decide, _, rfl, fun _ => rfl, by decide, by decide, by decide⟩

/-- The tens and ones digits of 204 fall under the next pc and pc + 1. -/
theorem witness_StoreIsSeenByTheNextFetch_digits :
    let s := (with01 0xF033 204 0).setI 0x201
    s.memWf = true ∧ ∃ t, exec (.ldBVx 0) s = .next t ∧
      (1, 0) ∈ [(0, s.v[0].toNat / 100), (1, s.v[0].toNat / 10 % 10), (2, s.v[0].toNat % 10)] ∧
      t.pc.toNat % 4096 = (s.i.toNat + 1) % 4096 ∧
      (2, 4) ∈ [(0, s.v[0].toNat / 100), (1, s.v[0].toNat / 10 % 10), (2, s.v[0].toNat % 10)] ∧
      (t.pc.toNat + 1) % 4096 = (s.i.toNat + 2) % 4096 :=
  ⟨by decide, _, rfl, by decide, by decide, by decide, by decide⟩

/-- An Fx15 and the end of a frame change DT. -/
theorem witness_ReadDelayTimer :
    (∃ t, step ((at200 0xF015).setV 0 7) = .next t ∧ t.dt ≠ ((at200 0xF015).setV 0 7).dt) ∧
    (∃ t, step { State.reset with dt := 7, frame := .ending } = .next t ∧ t.dt ≠ 7) :=
  ⟨⟨_, rfl, by decide⟩, ⟨_, rfl, by decide⟩⟩

theorem witness_WriteTimers :
    (State.reset.st = 0 ∧ State.reset.v[0] = 0) ∧ (State.reset.st = 0 ∧ (State.reset.setV 0 1).v[0] ≠ 0) ∧
    (({ State.reset with st := 1 } : State).st ≠ 0 ∧ ({ State.reset with st := 1 } : State).v[0] = 0) ∧
    (({ State.reset.setV 0 255 with st := 1 } : State).st ≠ 0 ∧
      ({ State.reset.setV 0 255 with st := 1 } : State).v[0] ≠ 0) := by decide

/-- The first evaluation, and a later one that sees no release: key 5 went down, none up. -/
theorem witness_KeyWaitEndsOnTheLowestRelease_waits : State.reset.waitingForKey = false ∧
    ∀ k : Reg, ¬(({ State.reset with waitingForKey := true, keys := oneKey 5 } : State).keyPrev[k] = true ∧
      ({ State.reset with waitingForKey := true, keys := oneKey 5 } : State).keys[k] = false) := by decide

/-- Key 15, the last one, goes up, and no lower one does: key 3 stays down. -/
theorem witness_KeyWaitEndsOnTheLowestRelease_ends :
    let s := { State.reset with waitingForKey := true, keyPrev := (oneKey 3).set 15 true, keys := oneKey 3 }
    s.waitingForKey = true ∧ s.keyPrev[(15 : Reg)] = true ∧ s.keys[(15 : Reg)] = false ∧
      ∀ j : Reg, j.val < (15 : Reg).val → ¬(s.keyPrev[j] = true ∧ s.keys[j] = false) := by decide

/-- A frame's end with the sound about to stop and the screen changed, and one on a core that has halted. -/
def soundEnds : State := { State.reset with frame := .ending, dt := 3, st := 1, fb := dotScreen, fbChanged := true }

theorem witness_FrameEndTicksAndDraws_ending :
    soundEnds.frame = .ending ∧ (soundEnds.halted = false ∧ soundEnds.st.toNat = 1) ∧ soundEnds.fbChanged = true ∧
      ({ soundEnds with halted := true } : State).frame = .ending ∧
      ({ soundEnds with halted := true } : State).halted = true := by decide

/-- The quantum is used up exactly, with the sound about to stop. -/
theorem witness_FrameEndTicksAndDraws_quantum :
    let s := { soundEnds with frame := .running Config.cyclesPerFrame }
    s.frame = .running Config.cyclesPerFrame ∧ Config.cyclesPerFrame ≤ Config.cyclesPerFrame ∧ s.st.toNat = 1 :=
  ⟨rfl, Nat.le_refl _, rfl⟩

/-- Quantum is left, so the deadline is asked; what it answers is free. -/
theorem witness_FrameEndTicksAndDraws_deadline :
    let s := { soundEnds with frame := .running 0 }
    s.frame = .running 0 ∧ 0 < Config.cyclesPerFrame ∧ s.st.toNat = 1 :=
  ⟨rfl, Nat.succ_pos _, rfl⟩

theorem witness_FrameStepsAreTheFrameLoop :
    let s := { at200 0xF00A with agenda := [.runFrame, .pause] }
    s.frame = .idle ∧ s.agenda = .runFrame :: [.pause] := by decide

/-- A frame under way, an Fx0A waiting at pc, a full stack and the sound on: the invariant's clauses all say something. -/
def midFrame : State :=
  { at200 0xF30A with
    frame := .running 0
    waitingForKey := true
    keyPrev := oneKey 5
    sp := 16
    stack := Vector.replicate 16 0xFFE
    st := 2
    outputs := [.draw dotScreen, .beep true] }

theorem witness_midFrame_invariant : StateInv midFrame where
  memory := by decide
  pcBelow := by decide
  spBound := by decide
  stackBelow := by decide
  waitingAtFx0A := fun _ => ⟨3, by decide⟩
  haltedWithRecord := by decide
  recordLegal := fun _ h => nomatch h
  frameLegal := fun _ h => by cases h; exact ⟨Nat.zero_le _, rfl⟩
  soundTold := by decide

theorem witness_FrameEndsInTime : StateInv midFrame ∧ midFrame.frame = .running 0 :=
  ⟨witness_midFrame_invariant, rfl⟩

/-- The same machine between frames. -/
def betweenFrames : State := { midFrame with frame := .idle }

theorem witness_betweenFrames_invariant : StateInv betweenFrames :=
  { witness_midFrame_invariant with frameLegal := fun _ h => nomatch h }

theorem witness_StepKeepsTheInvariant : StateInv betweenFrames ∧ ∃ t, step betweenFrames = .next t :=
  ⟨witness_betweenFrames_invariant, _, rfl⟩

theorem witness_InvariantRulesOutStops :
    StateInv { betweenFrames with agenda := [.keyEvent 16 true] } ∧
      step { betweenFrames with agenda := [.keyEvent 16 true] } = .refused .keyIndexInvalid :=
  ⟨{ witness_betweenFrames_invariant with }, rfl⟩

theorem witness_HostSetsKeys :
    ({ State.reset with agenda := [.keyEvent (15 : Fin 16).val true] } : State).frame = .idle ∧
    ({ State.reset with agenda := [.keyEvent (15 : Fin 16).val true] } : State).agenda = .keyEvent 15 true :: [] ∧
    (14 : Fin 16) ≠ 15 ∧
    ({ State.reset with agenda := [.keyEvent 16 true] } : State).agenda = .keyEvent 16 true :: [] ∧ 16 ≤ 16 ∧
    ({ State.reset with agenda := [.pollKeys (oneKey 0)] } : State).agenda = .pollKeys (oneKey 0) :: [] := by decide

theorem witness_IdleHostMovesChangeNothing :
    ({ State.reset with agenda := [.pause] } : State).frame = .idle ∧
    ({ State.reset with agenda := [.pause] } : State).agenda = .pause :: [] ∧
    ({ State.reset with agenda := [.selectBackend] } : State).agenda = .selectBackend :: [] ∧
    ({ State.reset with agenda := [.runFrame], halted := true } : State).halted = true ∧
    ({ State.reset with agenda := [.singleStep], halted := true } : State).agenda = .singleStep :: [] := by decide

/-- The longest image that fits and the shortest that does not. -/
theorem witness_LoadRomIsTheReset : ∃ fits long : List Byte, fits.length ≤ 3584 ∧ 3584 < long.length ∧
    ({ State.reset with agenda := [.loadRom fits] } : State).agenda = .loadRom fits :: [] ∧
    ({ State.reset with agenda := [.loadRom long] } : State).agenda = .loadRom long :: [] :=
  ⟨List.replicate 3584 0xFF, List.replicate 3585 0xFF, by rw [List.length_replicate],
    by rw [List.length_replicate]; decide, rfl, rfl⟩

/-- Addresses of each of the three ranges of the reset contents, at their ends. -/
theorem witness_ResetValues : ((0x04F : Word).toNat % 4096 < 0x050) ∧ (0x0A0 ≤ (0x0A0 : Word).toNat % 4096) ∧
    ((4 : Fin 16).val < 5 ∧ (0x09F : Word).toNat % 4096 = 0x050 + 5 * (15 : Fin 16).val + (4 : Fin 16).val) := by decide

theorem witness_EveryInstructionRuns : ({ State.reset with sp := 16 } : State).sp.toNat ≤ 16 := by decide

theorem witness_InstructionsWriteOnlyTheirParts : ∃ t, exec (.drw 0 0 15) State.reset = .next t := ⟨_, rfl⟩

theorem witness_OnlyNamedInstructionsWriteVF : ∃ t, exec (.ldKk 15 1) State.reset = .next t ∧
    t.v[15] ≠ State.reset.v[15] := ⟨_, rfl, by decide⟩

theorem witness_OnlyStoresAndLoadRomWriteRam :
    (∃ t, step (with01 0xF055 0x77 0) = .next t ∧ t.readByte 0x000 ≠ (with01 0xF055 0x77 0).readByte 0x000) ∧
    (∃ t, step { State.reset with agenda := [.loadRom [0x60]] } = .next t ∧
      t.readByte 0x200 ≠ State.reset.readByte 0x200) :=
  ⟨⟨_, rfl, by decide⟩, ⟨_, rfl, by decide⟩⟩

theorem witness_FaultsNameTheirInstruction :
    (∃ t, exec (.call 0x300) { State.reset with sp := 16 } = .next t ∧ t.fault ≠ none) ∧
    (∃ t, exec .ret State.reset = .next t ∧ t.fault ≠ none) ∧
    (∃ t, exec (.sknp 0) (State.reset.setV 0 16) = .next t ∧ t.fault ≠ none) :=
  ⟨⟨_, rfl, by decide⟩, ⟨_, rfl, by decide⟩, ⟨_, rfl, by decide⟩⟩

theorem witness_HaltedStateIsPreserved :
    let s := { State.reset with halted := true, frame := .ending }
    s.halted = true ∧ (∃ t, step s = .next t) ∧ (s.frame = .idle → ∀ bytes rest, s.agenda ≠ .loadRom bytes :: rest) :=
  ⟨rfl, ⟨_, rfl⟩, fun h => nomatch h⟩

theorem witness_UpperIndexBitsAreUnobservable : EqualButIndexHigh (State.reset.setI 0x0FFF) (State.reset.setI 0xFFFF) :=
  ⟨0xFFFF, rfl, by decide⟩

theorem witness_KeysReachOnlyKeyInstructions : ∀ x : Reg, Instr.cls ≠ .skp x ∧ Instr.cls ≠ .sknp x ∧ Instr.cls ≠ .ldVxK x := by
  decide

/-- A store over the font in RAM, and a load into a machine with another font. -/
theorem witness_FontIsAParameter :
    (∃ t, step ((with01 0xF055 0x77 0).setI 0x050) = .next t ∧
      t.readByte 0x050 ≠ ((with01 0xF055 0x77 0).setI 0x050).readByte 0x050) ∧
    (∃ t, step { State.reset with font := Vector.replicate 80 0xAA, agenda := [.loadRom []] } = .next t) :=
  ⟨⟨_, rfl, by decide⟩, ⟨_, rfl⟩⟩

end Sys2Proof.Tests
end

/-! PROOFS. What an operation that branches does in each of its branches, for proofs to cite. -/

namespace Sys2Proof.Machine

/-! ### 00EE, 2nnn, Fx0A and the skips on a key (R86, R88, R100 to R102, R125) -/

theorem skipOnKey_of_lt {s : State} {x : Reg} (h : (s.getV x).toNat < 16) (w : Word) (p : Bool) :
    s.skipOnKey w x p = s.skipIf (s.keys[(s.getV x).toNat] == p) := dif_pos h

theorem skipOnKey_of_not_lt {s : State} {x : Reg} (h : ¬ (s.getV x).toNat < 16) (w : Word) (p : Bool) :
    s.skipOnKey w x p = s.raise .undefinedKeyIndex w := dif_neg h

theorem execRet_of_empty {s : State} (h : s.sp = 0) : execRet s = .next (s.raise .stackUnderflow (encode .ret)) :=
  if_pos h

theorem execRet_of_entry {s : State} (h : s.sp ≠ 0) (hb : s.sp.toNat - 1 < 16) :
    execRet s = .next ({ s with sp := s.sp - 1 }.setPc s.stack[s.sp.toNat - 1]) := by
  unfold execRet State.pop
  rw [if_neg h, dif_pos hb]

theorem execRet_of_no_entry {s : State} (h : s.sp ≠ 0) (hb : ¬ s.sp.toNat - 1 < 16) :
    execRet s = .fault .stackEntryAbsent := by
  unfold execRet State.pop
  rw [if_neg h, dif_neg hb]

theorem execCall_of_full {s : State} (h : s.sp = 16) (nnn : Addr) :
    execCall nnn s = .next (s.raise .stackOverflow (encode (.call nnn))) :=
  if_pos h

theorem execCall_of_entry {s : State} (h : s.sp ≠ 16) (hb : s.sp.toNat < 16) (nnn : Addr) :
    execCall nnn s =
      .next ({ s with stack := s.stack.set s.sp.toNat s.nextPc, sp := s.sp + 1 }.setPc (immAddr nnn)) := by
  unfold execCall
  rw [if_neg h, push_of_lt hb]

theorem execCall_of_no_entry {s : State} (h : s.sp ≠ 16) (hb : ¬ s.sp.toNat < 16) (nnn : Addr) :
    execCall nnn s = .fault .stackEntryAbsent := by
  unfold execCall State.push
  rw [if_neg h, dif_neg hb]

/-- What Fx0A does when it answers a next state (R125). -/
theorem execLdVxK_next {x : Reg} {s t : State} (h : execLdVxK x s = .next t) :
    t = s.awaitKey ∨
    (∃ k, s.waitingForKey = true ∧ s.lowestReleased = some k ∧
      t = ({ s with waitingForKey := false }.setV x (BitVec.ofNat 8 k.val)).advance) := by
  rcases execLdVxK_cases x s with ⟨_, he⟩ | ⟨k, hw, hk, he⟩
  · exact .inl (Host.Outcome.next.inj (h.symm.trans he))
  · exact .inr ⟨k, hw, hk, Host.Outcome.next.inj (h.symm.trans he)⟩

/-! ### A round of a frame and `run_frame()`, case by case (R150) -/

theorem frameMove_of_over {k : Nat} {s : State} (hk : ¬ k < Config.cyclesPerFrame) :
    frameMove k s = .next s.endFrame :=
  if_neg hk

theorem frameMove_of_deadline {k : Nat} {s : State} (hk : k < Config.cyclesPerFrame)
    (hd : Config.deadline s.deadlineDraws = true) : frameMove k s = .next s.countDeadline.endFrame := by
  unfold frameMove
  rw [if_pos hk, if_pos hd]

theorem frameMove_of_round {k : Nat} {s : State} (hk : k < Config.cyclesPerFrame)
    (hd : Config.deadline s.deadlineDraws = false) :
    frameMove k s =
      mapNext (fun t => t.setFrame (frameAfter k s.countDeadline t)) (cpuStep s.countDeadline) := by
  unfold frameMove
  rw [if_pos hk, hd]
  cases cpuStep s.countDeadline <;> rfl

theorem hostMove_runFrame_of_halted {s : State} (hh : s.halted = true) : hostMove .runFrame s = .next s :=
  if_pos hh

theorem hostMove_runFrame {s : State} (hh : ¬ s.halted = true) :
    hostMove .runFrame s = .next (s.setFrame (.running 0)) :=
  if_neg hh

/-! ### Addresses (R50) -/

theorem toNat_add_mod_congr {a b : Word} (h : a.toNat % 4096 = b.toNat % 4096) (k : Word) :
    (a + k).toNat % 4096 = (b + k).toNat % 4096 := by
  rw [BitVec.toNat_add, BitVec.toNat_add]
  omega

/-- Two words with the same low twelve bits form the same addresses, whatever is added to them. -/
theorem mask12_add_congr {a b : Word} (h : a.toNat % 4096 = b.toNat % 4096) (k : Word) :
    mask12 (a + k) = mask12 (b + k) := by
  apply BitVec.eq_of_toNat_eq
  rw [toNat_mask12, toNat_mask12, toNat_add_mod_congr h]

end Sys2Proof.Machine

/-! PROOFS. What each operation of the model leaves unchanged, part by part; from it what each instruction writes and which
ones write VF (R15 to R33). -/

namespace Sys2Proof.Machine

/-! ### Frames: what each operation keeps -/

theorem KeepsAllBut.trans {ps qs : List Part} {s t u : State} (h : KeepsAllBut ps s t) (h' : KeepsAllBut qs t u) :
    KeepsAllBut (ps ++ qs) s u := by
  intro p hp
  have hps := h p (fun hm => hp (List.mem_append_left _ hm))
  have hqs := h' p (fun hm => hp (List.mem_append_right _ hm))
  cases p with
  | mem => exact fun a => (hqs a).trans (hps a)
  | _ => exact Eq.trans hqs hps

theorem KeepsAllBut.mono {ps qs : List Part} {s t : State} (h : KeepsAllBut ps s t) (hsub : ps ⊆ qs) :
    KeepsAllBut qs s t :=
  fun p hp => h p (fun hm => hp (hsub hm))

theorem keepsAllBut_refl (s : State) : KeepsAllBut [] s s := by
  intro p _
  cases p with
  | mem => exact fun _ => rfl
  | _ => rfl

theorem keepsAllBut_setV (s : State) (x : Reg) (b : Byte) : KeepsAllBut [.v] s (s.setV x b) := by
  intro p hp
  cases p with
  | v => simp at hp
  | mem => exact fun _ => rfl
  | _ => rfl

theorem keepsAllBut_setI (s : State) (a : Word) : KeepsAllBut [.i] s (s.setI a) := by
  intro p hp
  cases p with
  | i => simp at hp
  | mem => exact fun _ => rfl
  | _ => rfl

theorem keepsAllBut_setPc (s : State) (t : Word) : KeepsAllBut [.pc] s (s.setPc t) := by
  intro p hp
  cases p with
  | pc => simp at hp
  | mem => exact fun _ => rfl
  | _ => rfl

theorem keepsAllBut_advance (s : State) : KeepsAllBut [.pc] s s.advance := keepsAllBut_setPc s _

theorem keepsAllBut_skipIf (s : State) (c : Bool) : KeepsAllBut [.pc] s (s.skipIf c) := by
  unfold State.skipIf
  split
  · exact keepsAllBut_setPc s _
  · exact keepsAllBut_advance s

theorem keepsAllBut_setResultAndFlag (s : State) (x : Reg) (r f : Byte) :
    KeepsAllBut [.v] s (s.setResultAndFlag x r f) :=
  ((keepsAllBut_setV s x r).trans (keepsAllBut_setV _ regVF f)).mono (by simp)

theorem keepsAllBut_writeByte (s : State) (a : Word) (b : Byte) : KeepsAllBut [.mem] s (s.writeByte a b) := by
  intro p hp
  cases p with
  | mem => simp at hp
  | _ => rfl

theorem keepsAllBut_storeRegs (s : State) (k : Nat) : KeepsAllBut [.mem] s (s.storeRegs k) := by
  induction k with
  | zero => exact (keepsAllBut_refl s).mono (by simp)
  | succ k ih => exact (ih.trans (keepsAllBut_writeByte _ _ _)).mono (by simp)

theorem keepsAllBut_loadRegs (s : State) (k : Nat) : KeepsAllBut [.v] s (s.loadRegs k) := by
  induction k with
  | zero => exact (keepsAllBut_refl s).mono (by simp)
  | succ k ih => exact (ih.trans (keepsAllBut_setV _ _ _)).mono (by simp)

theorem keepsAllBut_raise (s : State) (kind : FaultKind) (w : Word) :
    KeepsAllBut [.pc, .halted, .fault] s (s.raise kind w) := by
  intro p hp
  cases p with
  | pc | halted | fault => simp at hp
  | mem => exact fun _ => rfl
  | _ => rfl

theorem keepsAllBut_skipOnKey (s : State) (w : Word) (x : Reg) (pressed : Bool) :
    KeepsAllBut [.pc, .halted, .fault] s (s.skipOnKey w x pressed) := by
  rcases skipOnKey_cases s w x pressed with ⟨_, h⟩ | ⟨k, _, h⟩ <;> rw [h]
  · exact keepsAllBut_raise s _ w
  · exact (keepsAllBut_skipIf s _).mono (by simp)

theorem keepsAllBut_awaitKey (s : State) : KeepsAllBut [.pc, .waitingForKey, .keyPrev] s s.awaitKey := by
  intro p hp
  cases p with
  | pc | waitingForKey | keyPrev => simp at hp
  | mem => exact fun _ => rfl
  | _ => rfl

theorem keepsAllBut_setSt (s : State) (b : Byte) : KeepsAllBut [.st, .outputs] s (s.setSt b) := by
  intro p hp
  cases p with
  | st | outputs => simp at hp
  | mem => exact readByte_congr (State.setSt_mem s b) (State.setSt_font s b)
  | _ => unfold State.setSt; split <;> rfl

theorem keepsAllBut_setDt (s : State) (b : Byte) : KeepsAllBut [.dt] s { s with dt := b } := by
  intro p hp
  cases p with
  | dt => simp at hp
  | mem => exact fun _ => rfl
  | _ => rfl

theorem keepsAllBut_setRngDraws (s : State) (n : Nat) : KeepsAllBut [.rngDraws] s { s with rngDraws := n } := by
  intro p hp
  cases p with
  | rngDraws => simp at hp
  | mem => exact fun _ => rfl
  | _ => rfl

theorem keepsAllBut_setWaitingForKey (s : State) (w : Bool) :
    KeepsAllBut [.waitingForKey] s { s with waitingForKey := w } := by
  intro p hp
  cases p with
  | waitingForKey => simp at hp
  | mem => exact fun _ => rfl
  | _ => rfl

theorem keepsAllBut_setFb (s : State) (fb : FrameBuffer) :
    KeepsAllBut [.fb, .fbChanged] s { s with fb := fb, fbChanged := true } := by
  intro p hp
  cases p with
  | fb | fbChanged => simp at hp
  | mem => exact fun _ => rfl
  | _ => rfl

theorem keepsAllBut_setStack (s : State) (stack : Vector Word 16) (sp : Byte) :
    KeepsAllBut [.sp, .stack] s { s with stack := stack, sp := sp } := by
  intro p hp
  cases p with
  | sp | stack => simp at hp
  | mem => exact fun _ => rfl
  | _ => rfl

theorem keepsAllBut_setSp (s : State) (sp : Byte) : KeepsAllBut [.sp] s { s with sp := sp } := by
  intro p hp
  cases p with
  | sp => simp at hp
  | mem => exact fun _ => rfl
  | _ => rfl

/-! ### What each instruction writes (R15 to R33) -/

/-- An operation that writes the parts `ps`, then the advance of the instruction cycle. -/
theorem KeepsAllBut.advance {ps : List Part} {s t : State} (h : KeepsAllBut ps s t) :
    KeepsAllBut (.pc :: ps) s t.advance :=
  (h.trans (keepsAllBut_advance t)).mono (by simp)

theorem execRet_keepsAllBut {s t : State} (h : execRet s = .next t) : KeepsAllBut (mayWrite .ret) s t := by
  rcases execRet_next h with ⟨_, rfl⟩ | ⟨_, _, rfl⟩
  · exact (keepsAllBut_raise s _ _).mono (by simp [mayWrite])
  · exact ((keepsAllBut_setSp s _).trans (keepsAllBut_setPc _ _)).mono (by simp [mayWrite])

theorem execCall_keepsAllBut {nnn : Addr} {s t : State} (h : execCall nnn s = .next t) :
    KeepsAllBut (mayWrite (.call nnn)) s t := by
  rcases execCall_next h with ⟨_, rfl⟩ | ⟨_, _, rfl⟩
  · exact (keepsAllBut_raise s _ _).mono (by simp [mayWrite])
  · exact ((keepsAllBut_setStack s _ _).trans (keepsAllBut_setPc _ _)).mono (by simp [mayWrite])

theorem execLdVxK_keepsAllBut {x : Reg} {s t : State} (h : execLdVxK x s = .next t) :
    KeepsAllBut (mayWrite (.ldVxK x)) s t := by
  rcases execLdVxK_next h with rfl | ⟨k, _, _, rfl⟩
  · exact (keepsAllBut_awaitKey s).mono (by simp [mayWrite])
  · exact ((keepsAllBut_setWaitingForKey s false).trans (keepsAllBut_setV _ x _)).advance.mono (by simp [mayWrite])

/-- Each instruction is a composition of operations whose written parts are listed for it. -/
theorem exec_keepsAllBut {i : Instr} {s t : State} (h : exec i s = .next t) : KeepsAllBut (mayWrite i) s t := by
  cases i with
  | ret => exact execRet_keepsAllBut h
  | call => exact execCall_keepsAllBut h
  | ldVxK => exact execLdVxK_keepsAllBut h
  | jp | jpV0 =>
    obtain rfl := Host.Outcome.next.inj h
    exact keepsAllBut_setPc s _
  | seKk | sneKk | seVy | sneVy =>
    obtain rfl := Host.Outcome.next.inj h
    exact keepsAllBut_skipIf s _
  | skp | sknp =>
    obtain rfl := Host.Outcome.next.inj h
    exact keepsAllBut_skipOnKey s _ _ _
  | ldKk | addKk | ldVy | ldVxDt =>
    obtain rfl := Host.Outcome.next.inj h
    exact (keepsAllBut_setV s _ _).advance
  | orVy | andVy | xorVy | addVy | subVy | shrVy | subnVy | shlVy =>
    obtain rfl := Host.Outcome.next.inj h
    exact (keepsAllBut_setResultAndFlag s _ _ _).advance
  | ldI | addIVx | ldFVx =>
    obtain rfl := Host.Outcome.next.inj h
    exact (keepsAllBut_setI s _).advance
  | cls =>
    obtain rfl := Host.Outcome.next.inj h
    exact (keepsAllBut_setFb s _).advance
  | drw =>
    obtain rfl := Host.Outcome.next.inj h
    exact ((keepsAllBut_setFb s _).trans (keepsAllBut_setV _ _ _)).advance.mono (by simp [mayWrite])
  | rnd =>
    obtain rfl := Host.Outcome.next.inj h
    exact ((keepsAllBut_setRngDraws s _).trans (keepsAllBut_setV _ _ _)).advance.mono (by simp [mayWrite])
  | ldDtVx =>
    obtain rfl := Host.Outcome.next.inj h
    exact (keepsAllBut_setDt s _).advance
  | ldStVx =>
    obtain rfl := Host.Outcome.next.inj h
    exact (keepsAllBut_setSt s _).advance
  | ldBVx =>
    obtain rfl := Host.Outcome.next.inj h
    exact ((keepsAllBut_writeByte s _ _).trans
      ((keepsAllBut_writeByte _ _ _).trans (keepsAllBut_writeByte _ _ _))).advance.mono (by simp [mayWrite])
  | ldMemVx x =>
    obtain rfl := Host.Outcome.next.inj h
    exact ((keepsAllBut_storeRegs s (x.val + 1)).trans (keepsAllBut_setI _ _)).advance.mono (by simp [mayWrite])
  | ldVxMem x =>
    obtain rfl := Host.Outcome.next.inj h
    exact ((keepsAllBut_loadRegs s (x.val + 1)).trans (keepsAllBut_setI _ _)).advance.mono (by simp [mayWrite])

/-- Settles O46: each instruction is a composition of operations, each of which keeps all but what it names. -/
theorem instructionsWriteOnlyTheirParts : Obligations.InstructionsWriteOnlyTheirParts :=
  fun _ _ _ h => exec_keepsAllBut h

/-! ### The writers of VF (R18) -/

theorem eq_VF_of_setV_ne {s : State} {x : Reg} {b : Byte} (h : (s.setV x b).v[15] ≠ s.v[15]) : x = 15 := by
  by_contra hx
  exact h ((getElem_setV s x b 15).trans (if_neg hx))

theorem eq_VF_of_loadRegs_ne {s : State} {x : Reg} (h : (s.loadRegs (x.val + 1)).v[15] ≠ s.v[15]) : x = 15 := by
  have hlt : 15 < x.val + 1 := by
    by_contra hlt
    exact h ((getElem_loadRegs s (x.val + 1) x.isLt 15).trans (if_neg hlt))
  exact Fin.ext (show x.val = 15 by omega)

/-- An instruction whose written parts leave out the V registers does not change VF. -/
theorem v_mem_mayWrite_of_VF_ne {i : Instr} {s t : State} (h : exec i s = .next t) (hne : t.v[15] ≠ s.v[15]) :
    Part.v ∈ mayWrite i := by
  by_contra hv
  have hsame : t.v = s.v := exec_keepsAllBut h .v hv
  exact hne (by rw [hsame])

theorem execLdVxK_VF_ne {x : Reg} {s t : State} (h : execLdVxK x s = .next t) (hne : t.v[15] ≠ s.v[15]) : x = 15 := by
  rcases execLdVxK_next h with rfl | ⟨k, _, _, rfl⟩
  · exact absurd rfl hne
  · exact eq_VF_of_setV_ne (s := { s with waitingForKey := false }) hne

/-- Settles O47: an instruction that does not write the V registers keeps VF, and one with an ordinary destination writes
VF only where that is x = F. -/
theorem onlyNamedInstructionsWriteVF : Obligations.OnlyNamedInstructionsWriteVF := by
  intro i s t h hne
  have hv := v_mem_mayWrite_of_VF_ne h hne
  cases i with
  | ldKk x | addKk x | ldVy x | rnd x | ldVxDt x =>
    obtain rfl := Host.Outcome.next.inj h
    obtain rfl := eq_VF_of_setV_ne (s := s) hne
    simp
  | ldVxK x =>
    obtain rfl := execLdVxK_VF_ne h hne
    simp
  | ldVxMem x =>
    obtain rfl := Host.Outcome.next.inj h
    obtain rfl := eq_VF_of_loadRegs_ne (s := s) hne
    simp
  | orVy | andVy | xorVy | addVy | subVy | shrVy | subnVy | shlVy | drw => simp
  | _ => simp [mayWrite] at hv

end Sys2Proof.Machine

/-! PROOFS. The values after reset (R37, R51). -/

namespace Sys2Proof.Machine

theorem resetByte_of_not_font {font : Font} {a : Nat} (h : a < 0x050 ∨ 0x0A0 ≤ a) : Memory.resetByte font a = 0 := by
  unfold Memory.resetByte Config.fontBase
  rw [dif_neg (by omega)]

theorem resetByte_of_font {font : Font} {k : Nat} (hk : k < 80) : Memory.resetByte font (0x050 + k) = font[k] := by
  unfold Memory.resetByte Config.fontBase
  rw [dif_pos (by omega)]
  simp

/-- Reset memory lists nothing, so every address reads as the default font or zero (R37). -/
theorem readByte_reset (a : Word) :
    State.reset.readByte a = Memory.resetByte Config.defaultFont (a.toNat % 4096) := by
  rw [← toNat_mask12]
  rfl

theorem pixel_clear (c r : Nat) : FrameBuffer.pixel (Vector.replicate 32 0) c r = false := by
  unfold FrameBuffer.pixel
  split <;> simp

/-- Settles O41: the registers are read off `State.reset`, RAM off the reset contents. -/
theorem resetValues : Obligations.ResetValues := by
  refine ⟨rfl, rfl, rfl, rfl, rfl, rfl, rfl, rfl, by decide, pixel_clear, fun a ha => ?_, fun g r a hr ha => ?_⟩
  · rw [readByte_reset, resetByte_of_not_font ha]
  · have hk : 5 * g.val + r.val < 80 := by omega
    rw [readByte_reset, ha, Nat.add_assoc, resetByte_of_font hk]
    exact (List.getElem?_eq_getElem _).symm

end Sys2Proof.Machine

/-! PROOFS. The invariant after reset and over every agent's move (R38). -/

namespace Sys2Proof.Machine

/-! ### The invariant in three parts: the core's, the key wait's and the frame's (R38) -/

/-- The clauses of `StateInv` that every operation of the model keeps by itself, whatever runs after it. -/
structure CoreInv (s : State) : Prop where
  memory : s.memWf = true
  pcBelow : s.pc.toNat < 4096
  spBound : s.sp.toNat ≤ 16
  stackBelow : ∀ j : Fin 16, s.stack[j].toNat < 4096
  haltedWithRecord : s.halted = s.fault.isSome
  recordLegal : ∀ r, s.fault = some r → r.pc.toNat < 4096 ∧ r.kind ≠ .addressOutOfRange
  soundTold : lastBeep s.outputs = s.soundOn

/-- A core that waits for a key stands at an Fx0A (R31, R38). -/
def WaitsAtFx0A (s : State) : Prop := s.waitingForKey = true → ∃ x, decode s.fetchWord = .ok (.ldVxK x)

/-- A frame under way is inside its quantum, on a core that has not halted (R150). -/
def FrameLegal (s : State) : Prop := ∀ k, s.frame = .running k → k ≤ Config.cyclesPerFrame ∧ s.halted = false

theorem stateInv_iff {s : State} : StateInv s ↔ CoreInv s ∧ WaitsAtFx0A s ∧ FrameLegal s :=
  ⟨fun h => ⟨{ h with }, h.waitingAtFx0A, h.frameLegal⟩,
    fun ⟨hc, hw, hf⟩ => { hc with waitingAtFx0A := hw, frameLegal := hf }⟩

namespace CoreInv

variable {s : State}

theorem setV (h : CoreInv s) (x : Reg) (b : Byte) : CoreInv (s.setV x b) := { h with }

theorem setI (h : CoreInv s) (a : Word) : CoreInv (s.setI a) := { h with }

theorem setPc (h : CoreInv s) (a : Word) : CoreInv (s.setPc a) := { h with pcBelow := toNat_mask12_lt a }

theorem advance (h : CoreInv s) : CoreInv s.advance := h.setPc _

theorem skipIf (h : CoreInv s) (c : Bool) : CoreInv (s.skipIf c) := by
  unfold State.skipIf
  split
  · exact h.setPc _
  · exact h.advance

theorem setResultAndFlag (h : CoreInv s) (x : Reg) (r f : Byte) : CoreInv (s.setResultAndFlag x r f) :=
  (h.setV x r).setV regVF f

theorem writeByte (h : CoreInv s) (a : Word) (b : Byte) : CoreInv (s.writeByte a b) :=
  { h with memory := wf_writeByte h.memory a b }

theorem storeRegs (h : CoreInv s) (k : Nat) : CoreInv (s.storeRegs k) := by
  induction k with
  | zero => exact h
  | succ k ih => exact ih.writeByte _ _

theorem loadRegs (h : CoreInv s) (k : Nat) : CoreInv (s.loadRegs k) := by
  induction k with
  | zero => exact h
  | succ k ih => exact ih.setV _ _

theorem setDt (h : CoreInv s) (b : Byte) : CoreInv { s with dt := b } := { h with }

theorem setRngDraws (h : CoreInv s) (n : Nat) : CoreInv { s with rngDraws := n } := { h with }

theorem setFb (h : CoreInv s) (fb : FrameBuffer) : CoreInv { s with fb := fb, fbChanged := true } := { h with }

theorem setWaitingForKey (h : CoreInv s) (w : Bool) : CoreInv { s with waitingForKey := w } := { h with }

theorem awaitKey (h : CoreInv s) : CoreInv s.awaitKey := { h with pcBelow := toNat_mask12_lt _ }

theorem setFrame (h : CoreInv s) (f : FramePhase) : CoreInv (s.setFrame f) := { h with }

theorem setSt (h : CoreInv s) (b : Byte) : CoreInv (s.setSt b) :=
  { memory := (memWf_congr (State.setSt_mem s b) (State.setSt_font s b)).trans h.memory
    pcBelow := by simpa using h.pcBelow
    spBound := by simpa using h.spBound
    stackBelow := by simpa using h.stackBelow
    haltedWithRecord := by simpa using h.haltedWithRecord
    recordLegal := by simpa using h.recordLegal
    soundTold := lastBeep_setSt h.soundTold b }

/-- A fatal error of a kind that some rule raises leaves a legal record (R131, R137). -/
theorem raise (h : CoreInv s) {kind : FaultKind} (hk : kind ≠ .addressOutOfRange) (w : Word) :
    CoreInv (s.raise kind w) :=
  { h.advance with
    haltedWithRecord := rfl
    recordLegal := fun _ hr => Option.some.inj hr ▸ ⟨h.pcBelow, hk⟩ }

theorem skipOnKey (h : CoreInv s) (w : Word) (x : Reg) (p : Bool) : CoreInv (s.skipOnKey w x p) := by
  rcases skipOnKey_cases s w x p with ⟨_, he⟩ | ⟨k, _, he⟩ <;> rw [he]
  · exact h.raise (by decide) w
  · exact h.skipIf _

theorem execRet {t : State} (h : CoreInv s) (he : execRet s = .next t) : CoreInv t := by
  rcases execRet_next he with ⟨_, rfl⟩ | ⟨hsp, _, rfl⟩
  · exact h.raise (by decide) _
  · have hle : (s.sp - 1).toNat ≤ 16 := by
      have := h.spBound
      bv_omega
    exact setPc (s := { s with sp := s.sp - 1 }) { h with spBound := hle } _

/-- The entry pushed is a masked address, and SP = 16 is a fatal error (R23, R134). -/
theorem execCall {nnn : Addr} {t : State} (h : CoreInv s) (he : execCall nnn s = .next t) : CoreInv t := by
  rcases execCall_next he with ⟨_, rfl⟩ | ⟨_, hlt, rfl⟩
  · exact h.raise (by decide) _
  · have hle : (s.sp + 1).toNat ≤ 16 := by bv_omega
    have hstack : ∀ j : Fin 16, (s.stack.set s.sp.toNat s.nextPc)[j].toNat < 4096 := by
      intro j
      rw [Fin.getElem_fin, Vector.getElem_set]
      split
      · exact toNat_mask12_lt _
      · exact h.stackBelow j
    exact setPc (s := { s with stack := s.stack.set s.sp.toNat s.nextPc, sp := s.sp + 1 })
      { h with spBound := hle, stackBelow := hstack } _

theorem execLdVxK {x : Reg} {t : State} (h : CoreInv s) (he : execLdVxK x s = .next t) : CoreInv t := by
  rcases execLdVxK_next he with rfl | ⟨k, _, _, rfl⟩
  · exact h.awaitKey
  · exact ((h.setWaitingForKey false).setV x _).advance

/-- Each instruction is a composition of operations that keep these clauses. -/
theorem exec {i : Instr} {t : State} (h : CoreInv s) (he : exec i s = .next t) : CoreInv t := by
  cases i with
  | ret => exact h.execRet he
  | call => exact h.execCall he
  | ldVxK => exact h.execLdVxK he
  | jp | jpV0 =>
    obtain rfl := Host.Outcome.next.inj he
    exact h.setPc _
  | seKk | sneKk | seVy | sneVy =>
    obtain rfl := Host.Outcome.next.inj he
    exact h.skipIf _
  | skp | sknp =>
    obtain rfl := Host.Outcome.next.inj he
    exact h.skipOnKey _ _ _
  | ldKk | addKk | ldVy | ldVxDt =>
    obtain rfl := Host.Outcome.next.inj he
    exact (h.setV _ _).advance
  | orVy | andVy | xorVy | addVy | subVy | shrVy | subnVy | shlVy =>
    obtain rfl := Host.Outcome.next.inj he
    exact (h.setResultAndFlag _ _ _).advance
  | ldI | addIVx | ldFVx =>
    obtain rfl := Host.Outcome.next.inj he
    exact (h.setI _).advance
  | cls =>
    obtain rfl := Host.Outcome.next.inj he
    exact (h.setFb _).advance
  | drw =>
    obtain rfl := Host.Outcome.next.inj he
    exact ((h.setFb _).setV _ _).advance
  | rnd =>
    obtain rfl := Host.Outcome.next.inj he
    exact ((h.setRngDraws _).setV _ _).advance
  | ldDtVx =>
    obtain rfl := Host.Outcome.next.inj he
    exact (h.setDt _).advance
  | ldStVx =>
    obtain rfl := Host.Outcome.next.inj he
    exact (h.setSt _).advance
  | ldBVx =>
    obtain rfl := Host.Outcome.next.inj he
    exact (((h.writeByte _ _).writeByte _ _).writeByte _ _).advance
  | ldMemVx x =>
    obtain rfl := Host.Outcome.next.inj he
    exact ((h.storeRegs (x.val + 1)).setI _).advance
  | ldVxMem x =>
    obtain rfl := Host.Outcome.next.inj he
    exact ((h.loadRegs (x.val + 1)).setI _).advance

theorem tick (h : CoreInv s) : CoreInv s.tick := (h.setDt _).setSt _

theorem drawIfChanged (h : CoreInv s) : CoreInv s.drawIfChanged := by
  unfold State.drawIfChanged
  split
  · exact { h with }
  · exact h

theorem endFrame (h : CoreInv s) : CoreInv s.endFrame := by
  unfold State.endFrame
  split
  · exact h.drawIfChanged.setFrame _
  · exact h.tick.drawIfChanged.setFrame _

end CoreInv

/-! ### The key wait and the frame (R31, R150) -/

theorem WaitsAtFx0A.congr {s t : State} (h : WaitsAtFx0A s) (hw : t.waitingForKey = s.waitingForKey)
    (hm : t.mem = s.mem) (hf : t.font = s.font) (hpc : t.pc = s.pc) : WaitsAtFx0A t := by
  unfold WaitsAtFx0A
  rw [hw, fetchWord_congr hm hf hpc]
  exact h

/-- Only Fx0A starts or ends a wait (R31). -/
theorem eq_ldVxK_of_waitingForKey_mem {i : Instr} (h : Part.waitingForKey ∈ mayWrite i) : ∃ x, i = .ldVxK x := by
  cases i with
  | ldVxK x => exact ⟨x, rfl⟩
  | _ => simp [mayWrite] at h

/-- An Fx0A that waits on keeps pc, and no other instruction runs while the core waits (R125, R128). -/
theorem WaitsAtFx0A.exec {i : Instr} {s t : State} (h : WaitsAtFx0A s) (hpc : s.pc.toNat < 4096)
    (hi : decode s.fetchWord = .ok i) (he : exec i s = .next t) : WaitsAtFx0A t := by
  by_cases hk : Part.waitingForKey ∈ mayWrite i
  · obtain ⟨x, rfl⟩ := eq_ldVxK_of_waitingForKey_mem hk
    rcases execLdVxK_next he with rfl | ⟨k, _, _, rfl⟩
    · have hfetch : s.awaitKey.fetchWord = s.fetchWord := fetchWord_congr rfl rfl (mask12_of_lt hpc)
      exact fun _ => ⟨x, hfetch ▸ hi⟩
    · exact fun hw => nomatch hw
  · intro hw
    have hkept : t.waitingForKey = s.waitingForKey := exec_keepsAllBut he .waitingForKey hk
    obtain ⟨x, hx⟩ := h (hkept ▸ hw)
    obtain rfl : i = .ldVxK x := Except.ok.inj (hi.symm.trans hx)
    exact absurd (by simp [mayWrite]) hk

theorem frameAfter_eq_running {k k' : Nat} {s t : State} (h : frameAfter k s t = .running k') :
    k' = k + 1 ∧ t.halted = false := by
  unfold frameAfter at h
  split at h
  · cases h
  · next hstop =>
    obtain ⟨hrun, _⟩ := Bool.or_eq_false_iff.mp (Bool.eq_false_of_not_eq_true hstop)
    exact ⟨(FramePhase.running.inj h).symm, hrun⟩

theorem frameLegal_of_not_running {s : State} (h : ∀ k, s.frame ≠ .running k) : FrameLegal s :=
  fun k hk => absurd hk (h k)

theorem frame_not_mem_mayWrite (i : Instr) : Part.frame ∉ mayWrite i := by
  cases i <;> simp [mayWrite]

/-- No instruction and no fatal error touches the frame under way (R150). -/
theorem cpuStep_frame {s t : State} (h : cpuStep s = .next t) : t.frame = s.frame := by
  rcases cpuStep_next h with ⟨_, rfl⟩ | ⟨_, i, _, he⟩ | ⟨_, _, rfl⟩
  · rfl
  · exact exec_keepsAllBut he .frame (frame_not_mem_mayWrite i)
  · rfl

/-! ### Every agent's move keeps the invariant (R38) -/

/-- The core's step keeps all but the frame's clause, which is for the agent that runs it. -/
theorem cpuStep_keeps_inv {s t : State} (hc : CoreInv s) (hw : WaitsAtFx0A s) (h : cpuStep s = .next t) :
    CoreInv t ∧ WaitsAtFx0A t := by
  rcases cpuStep_next h with ⟨_, rfl⟩ | ⟨_, i, hi, he⟩ | ⟨_, ⟨e, he⟩, rfl⟩
  · exact ⟨hc, hw⟩
  · exact ⟨hc.exec he, hw.exec hc.pcBelow hi he⟩
  · refine ⟨hc.raise (by decide) _, fun hwait => ?_⟩
    obtain ⟨x, hx⟩ := hw hwait
    exact nomatch he.symm.trans hx

theorem stateInv_reset : StateInv State.reset where
  memory := rfl
  pcBelow := by decide
  spBound := by decide
  stackBelow := by decide
  waitingAtFx0A := nofun
  haltedWithRecord := rfl
  recordLegal := nofun
  frameLegal := nofun
  soundTold := rfl

/-- Settles O42, clause by clause. -/
theorem resetHasTheInvariant : Obligations.ResetHasTheInvariant := stateInv_reset

namespace StateInv

variable {s : State}

theorem setKeys (h : StateInv s) (keys : Vector Bool 16) : StateInv (s.setKeys keys) := { h with }

theorem setAgenda (h : StateInv s) (ops : List HostOp) : StateInv (s.setAgenda ops) := { h with }

theorem countDeadline (h : StateInv s) : StateInv s.countDeadline := { h with }

theorem emit_romTooLarge (h : StateInv s) (n : Nat) : StateInv (s.emit (.romTooLarge n)) := { h with }

theorem endFrame (h : StateInv s) : StateInv s.endFrame := by
  obtain ⟨hc, hw, _⟩ := stateInv_iff.mp h
  have hw' : WaitsAtFx0A s.endFrame := hw.congr (by simp) (by simp) (by simp) (by simp)
  exact stateInv_iff.mpr ⟨hc.endFrame, hw', frameLegal_of_not_running (by simp)⟩

/-- The reset state, with an image that fits and the sound reported off (R161). -/
theorem loadImage (h : StateInv s) {bytes : List Byte} (hb : bytes.length ≤ Config.romMax) :
    StateInv (s.loadImage bytes) :=
  { stateInv_reset with
    memory := Memory.wf_ofImage Config.romBase bytes (Nat.add_le_add_left (n := bytes.length) (m := 3584) hb 0x200)
    waitingAtFx0A := nofun
    soundTold := by
      have hoff : (s.loadImage bytes).soundOn = false := rfl
      rw [hoff, State.loadImage_outputs]
      split
      · rfl
      · next hs => simpa [hs] using h.soundTold }

theorem cpuStep {t : State} (h : StateInv s) (hidle : s.frame = .idle) (he : cpuStep s = .next t) : StateInv t := by
  obtain ⟨hc, hw, _⟩ := stateInv_iff.mp h
  obtain ⟨hc', hw'⟩ := cpuStep_keeps_inv hc hw he
  have hframe : t.frame = .idle := (cpuStep_frame he).trans hidle
  exact stateInv_iff.mpr ⟨hc', hw', frameLegal_of_not_running (by simp [hframe])⟩

/-- A round of a frame counts one instruction of the quantum, which it checked first (R150). -/
theorem frameMove {k : Nat} {t : State} (h : StateInv s) (he : frameMove k s = .next t) : StateInv t := by
  rcases frameMove_next he with ⟨_, _, rfl⟩ | ⟨hk, _, u, hu, rfl⟩ | ⟨_, rfl⟩
  · exact h.countDeadline.endFrame
  · obtain ⟨hc, hw, _⟩ := stateInv_iff.mp h.countDeadline
    obtain ⟨hc', hw'⟩ := cpuStep_keeps_inv hc hw hu
    refine stateInv_iff.mpr ⟨hc'.setFrame _, hw', fun k' hk' => ?_⟩
    obtain ⟨rfl, hrun⟩ := frameAfter_eq_running hk'
    exact ⟨hk, hrun⟩
  · exact h.endFrame

theorem hostMove {op : HostOp} {t : State} (h : StateInv s) (hidle : s.frame = .idle) (he : hostMove op s = .next t) :
    StateInv t := by
  rcases hostMove_next he with ⟨bytes, _, hb, rfl⟩ | ⟨bytes, _, _, rfl⟩ | ⟨idx, p, _, _, rfl⟩ | ⟨keys, _, rfl⟩ |
    ⟨_, hrun, rfl⟩ | ⟨_, hstep⟩ | ⟨_, rfl⟩
  · exact h.loadImage hb
  · exact h.emit_romTooLarge _
  · exact h.setKeys _
  · exact h.setKeys _
  · obtain ⟨hc, hw, _⟩ := stateInv_iff.mp h
    refine stateInv_iff.mpr ⟨hc.setFrame _, hw, fun k hk => ?_⟩
    obtain rfl := FramePhase.running.inj hk
    exact ⟨Nat.zero_le _, hrun⟩
  · exact h.cpuStep hidle hstep
  · exact h

end StateInv

/-- Settles O43, one agent's move at a time. -/
theorem stepKeepsTheInvariant : Obligations.StepKeepsTheInvariant := by
  intro s t h hstep
  rcases step_next hstep with ⟨k, _, he⟩ | ⟨_, rfl⟩ | ⟨hidle, op, rest, _, he⟩ | ⟨hidle, _, he⟩
  · exact h.frameMove he
  · exact h.endFrame
  · exact (h.setAgenda rest).hostMove hidle he
  · exact h.cpuStep hidle he

end Sys2Proof.Machine

/-! PROOFS. Two machines that differ only in the upper four bits of I run alike (R19, R50). -/

namespace Sys2Proof.Machine

/-! ### Operations that read no bit of I -/

theorem skipIf_setI (s : State) (j : Word) (c : Bool) : (s.setI j).skipIf c = (s.skipIf c).setI j := by
  cases c <;> rfl

theorem setSt_setI (s : State) (j : Word) (b : Byte) : (s.setI j).setSt b = (s.setSt b).setI j := by
  have hon : (s.setI j).soundOn = s.soundOn := rfl
  unfold State.setSt
  rw [hon]
  split <;> rfl

theorem skipOnKey_setI (s : State) (j w : Word) (x : Reg) (p : Bool) :
    (s.setI j).skipOnKey w x p = (s.skipOnKey w x p).setI j := by
  by_cases h : (s.getV x).toNat < 16
  · rw [skipOnKey_of_lt h, skipOnKey_of_lt (s := s.setI j) h, skipIf_setI]
    rfl
  · rw [skipOnKey_of_not_lt h, skipOnKey_of_not_lt (s := s.setI j) h]
    rfl

theorem execRet_setI (s : State) (j : Word) : execRet (s.setI j) = mapNext (fun t => t.setI j) (execRet s) := by
  by_cases h : s.sp = 0
  · rw [execRet_of_empty h, execRet_of_empty (s := s.setI j) h]
    rfl
  · by_cases hb : s.sp.toNat - 1 < 16
    · rw [execRet_of_entry h hb, execRet_of_entry (s := s.setI j) h hb]
      rfl
    · rw [execRet_of_no_entry h hb, execRet_of_no_entry (s := s.setI j) h hb]
      rfl

theorem execCall_setI (nnn : Addr) (s : State) (j : Word) :
    execCall nnn (s.setI j) = mapNext (fun t => t.setI j) (execCall nnn s) := by
  by_cases h : s.sp = 16
  · rw [execCall_of_full h, execCall_of_full (s := s.setI j) h]
    rfl
  · by_cases hb : s.sp.toNat < 16
    · rw [execCall_of_entry h hb, execCall_of_entry (s := s.setI j) h hb]
      rfl
    · rw [execCall_of_no_entry h hb, execCall_of_no_entry (s := s.setI j) h hb]
      rfl

theorem execLdVxK_setI (x : Reg) (s : State) (j : Word) :
    execLdVxK x (s.setI j) = mapNext (fun t => t.setI j) (execLdVxK x s) := by
  have hrel : (s.setI j).lowestReleased = s.lowestReleased := rfl
  unfold execLdVxK
  rw [hrel, State.setI_waitingForKey]
  cases s.waitingForKey with
  | false => rfl
  | true => cases s.lowestReleased <;> rfl

theorem tick_setI (s : State) (j : Word) : (s.setI j).tick = s.tick.setI j := setSt_setI { s with dt := _ } j _

theorem drawIfChanged_setI (s : State) (j : Word) : (s.setI j).drawIfChanged = s.drawIfChanged.setI j := by
  unfold State.drawIfChanged
  rw [State.setI_fbChanged]
  split <;> rfl

theorem endFrame_setI (s : State) (j : Word) : (s.setI j).endFrame = s.endFrame.setI j := by
  unfold State.endFrame
  rw [State.setI_halted]
  split
  · rw [drawIfChanged_setI]
    rfl
  · rw [tick_setI, drawIfChanged_setI]
    rfl

/-! ### Related outcomes -/

theorem OutcomesRelated.mapNext {rel rel' : State → State → Prop} {o p : Host.Outcome State Fault Refusal}
    {f g : State → State} (h : OutcomesRelated rel o p) (hfg : ∀ t u, rel t u → rel' (f t) (g u)) :
    OutcomesRelated rel' (mapNext f o) (mapNext g p) := by
  cases o with
  | next t =>
    cases p with
    | next u => exact hfg t u h
    | fault | refused => exact h
  | fault =>
    cases p with
    | fault => exact h
    | next | refused => exact h
  | refused =>
    cases p with
    | refused => exact h
    | next | fault => exact h

/-! ### Addresses formed from I (R50, R117) -/

section SameAddresses

variable {s : State} {j : Word} (hj : j.toNat % 4096 = s.i.toNat % 4096)
include hj

theorem mask12_indexed_setI (k : Nat) : mask12 ((s.setI j).indexed k) = mask12 (s.indexed k) :=
  mask12_add_congr hj _

theorem readByte_indexed_setI (u : State) (k : Nat) :
    u.readByte ((s.setI j).indexed k) = u.readByte (s.indexed k) := by
  unfold State.readByte
  rw [mask12_indexed_setI hj]

theorem writeByte_indexed_setI (u : State) (k : Nat) (b : Byte) :
    (u.setI j).writeByte ((s.setI j).indexed k) b = (u.writeByte (s.indexed k) b).setI j := by
  unfold State.writeByte
  rw [mask12_indexed_setI hj]
  rfl

theorem storeRegs_setI (k : Nat) : (s.setI j).storeRegs k = (s.storeRegs k).setI j := by
  induction k with
  | zero => rfl
  | succ k ih =>
    unfold State.storeRegs
    rw [ih]
    exact writeByte_indexed_setI hj _ k _

theorem loadRegs_setI (k : Nat) : (s.setI j).loadRegs k = (s.loadRegs k).setI j := by
  induction k with
  | zero => rfl
  | succ k ih =>
    unfold State.loadRegs
    rw [ih, readByte_indexed_setI hj]
    rfl

theorem drawSprite_setI (cx cy n : Nat) : (s.setI j).drawSprite cx cy n = s.drawSprite cx cy n := by
  unfold State.drawSprite
  simp only [readByte_indexed_setI hj]
  rfl

theorem execDrw_setI (x y : Reg) (n : Nat) :
    execDrw x y n (s.setI j) = mapNext (fun t => t.setI j) (execDrw x y n s) := by
  unfold execDrw
  rw [drawSprite_setI hj]
  rfl

theorem execLdBVx_setI (x : Reg) : execLdBVx x (s.setI j) = mapNext (fun t => t.setI j) (execLdBVx x s) := by
  unfold execLdBVx
  rw [writeByte_indexed_setI hj, writeByte_indexed_setI hj, writeByte_indexed_setI hj]
  rfl

/-- An instruction that does not write I does the same, and keeps the I it was given. -/
theorem exec_setI {i : Instr} (hi : Part.i ∉ mayWrite i) :
    exec i (s.setI j) = mapNext (fun t => t.setI j) (exec i s) := by
  cases i with
  | ldI | addIVx | ldFVx | ldMemVx | ldVxMem => simp [mayWrite] at hi
  | ret => exact execRet_setI s j
  | call nnn => exact execCall_setI nnn s j
  | ldVxK x => exact execLdVxK_setI x s j
  | drw x y n => exact execDrw_setI hj x y n
  | ldBVx x => exact execLdBVx_setI hj x
  | seKk | sneKk | seVy | sneVy => exact congrArg Host.Outcome.next (skipIf_setI s j _)
  | skp | sknp => exact congrArg Host.Outcome.next (skipOnKey_setI s j _ _ _)
  | ldStVx => exact congrArg (fun u : State => Host.Outcome.next u.advance) (setSt_setI s j _)
  | _ => rfl

/-- The next states of an instruction that keeps I differ only in the I they were given. -/
theorem outcomesRelated_mapNext_setI {o : Host.Outcome State Fault Refusal} (hi : ∀ t, o = .next t → t.i = s.i) :
    OutcomesRelated EqualButIndexHigh o (mapNext (fun t => t.setI j) o) := by
  cases o with
  | next t => exact ⟨j, rfl, by rw [hi t rfl, hj]⟩
  | fault => rfl
  | refused => rfl

/-- The five writers of I (R19) write it from an operand alone or add to it; no other instruction shows its upper bits. -/
theorem exec_related (i : Instr) : OutcomesRelated EqualButIndexHigh (exec i s) (exec i (s.setI j)) := by
  by_cases hi : Part.i ∈ mayWrite i
  · cases i with
    | ldI | ldFVx => exact ⟨_, rfl, rfl⟩
    | addIVx x => exact ⟨j + s.wideV x, rfl, toNat_add_mod_congr hj _⟩
    | ldMemVx x =>
      refine ⟨(s.setI j).indexAfter x, ?_, toNat_add_mod_congr hj _⟩
      rw [storeRegs_setI hj]
      rfl
    | ldVxMem x =>
      refine ⟨(s.setI j).indexAfter x, ?_, toNat_add_mod_congr hj _⟩
      rw [loadRegs_setI hj]
      rfl
    | _ => simp [mayWrite] at hi
  · rw [exec_setI hj hi]
    exact outcomesRelated_mapNext_setI hj fun t ht => exec_keepsAllBut ht .i hi

/-! ### The agents' moves -/

theorem cpuStep_related : OutcomesRelated EqualButIndexHigh (cpuStep s) (cpuStep (s.setI j)) := by
  cases hh : s.halted with
  | true =>
    rw [cpuStep_of_halted hh, cpuStep_of_halted (s := s.setI j) hh]
    exact ⟨j, rfl, hj⟩
  | false =>
    cases hd : decode s.fetchWord with
    | ok i =>
      rw [cpuStep_of_decode hh hd, cpuStep_of_decode (s := s.setI j) hh hd]
      exact exec_related hj i
    | error e =>
      rw [cpuStep_of_invalid hh hd, cpuStep_of_invalid (s := s.setI j) hh hd]
      exact ⟨j, rfl, hj⟩

theorem endFrame_related : EqualButIndexHigh s.endFrame (s.setI j).endFrame :=
  ⟨j, endFrame_setI s j, by rw [State.endFrame_i, hj]⟩

theorem frameMove_related (k : Nat) : OutcomesRelated EqualButIndexHigh (frameMove k s) (frameMove k (s.setI j)) := by
  by_cases hk : k < Config.cyclesPerFrame
  · cases hd : Config.deadline s.deadlineDraws with
    | true =>
      rw [frameMove_of_deadline hk hd, frameMove_of_deadline (s := s.setI j) hk hd]
      exact endFrame_related (s := s.countDeadline) hj
    | false =>
      rw [frameMove_of_round hk hd, frameMove_of_round (s := s.setI j) hk hd]
      refine (cpuStep_related (s := s.countDeadline) hj).mapNext ?_
      rintro t _ ⟨j', rfl, hj'⟩
      exact ⟨j', rfl, hj'⟩
  · rw [frameMove_of_over hk, frameMove_of_over hk]
    exact endFrame_related hj

theorem hostMove_related (op : HostOp) :
    OutcomesRelated EqualButIndexHigh (hostMove op s) (hostMove op (s.setI j)) := by
  cases op with
  | loadRom bytes =>
    simp only [hostMove]
    split
    · exact ⟨0, rfl, rfl⟩
    · exact ⟨j, rfl, hj⟩
  | keyEvent idx p =>
    simp only [hostMove]
    split
    · exact ⟨j, rfl, hj⟩
    · rfl
  | runFrame =>
    by_cases hh : s.halted = true
    · rw [hostMove_runFrame_of_halted hh, hostMove_runFrame_of_halted (s := s.setI j) hh]
      exact ⟨j, rfl, hj⟩
    · rw [hostMove_runFrame hh, hostMove_runFrame (s := s.setI j) hh]
      exact ⟨j, rfl, hj⟩
  | singleStep => exact cpuStep_related hj
  | pollKeys | pause | selectBackend => exact ⟨j, rfl, hj⟩

end SameAddresses

/-- Settles O51: each agent's move takes two such states to outcomes of one kind, since every address formed from I is
masked and no register or pixel holds a bit of I. -/
theorem upperIndexBitsAreUnobservable : Obligations.UpperIndexBitsAreUnobservable := by
  rintro s _ ⟨j, rfl, hj⟩
  cases hf : s.frame with
  | running k =>
    rw [step_of_running hf, step_of_running (s := s.setI j) hf]
    exact frameMove_related hj k
  | ending =>
    rw [step_of_ending hf, step_of_ending (s := s.setI j) hf]
    exact endFrame_related hj
  | idle =>
    cases ha : s.agenda with
    | cons op rest =>
      rw [step_of_agenda hf ha, step_of_agenda (s := s.setI j) hf ha]
      exact hostMove_related (s := s.setAgenda rest) hj op
    | nil =>
      rw [step_of_idle hf ha, step_of_idle (s := s.setI j) hf ha]
      exact cpuStep_related hj

end Sys2Proof.Machine

/-! PROOFS. What writes RAM and the font over a step of the machine (R49, R51). -/

namespace Sys2Proof.Machine

/-! ### The writers of RAM (R49) -/

/-- The core is about to run one of the two stores: Fx33 or Fx55 is at pc and the core has not halted (R49). -/
def AtStore (s : State) : Prop :=
  s.halted = false ∧ ∃ x, decode s.fetchWord = .ok (.ldBVx x) ∨ decode s.fetchWord = .ok (.ldMemVx x)

theorem mem_mem_mayWrite_iff {i : Instr} : Part.mem ∈ mayWrite i ↔ ∃ x, i = .ldBVx x ∨ i = .ldMemVx x := by
  cases i <;> simp [mayWrite]

theorem readByte_endFrame (s : State) (a : Word) : s.endFrame.readByte a = s.readByte a :=
  readByte_congr (State.endFrame_mem s) (State.endFrame_font s) a

theorem exec_readByte_ne {i : Instr} {s t : State} {a : Word} (h : exec i s = .next t)
    (hne : t.readByte a ≠ s.readByte a) : ∃ x, i = .ldBVx x ∨ i = .ldMemVx x := by
  refine mem_mem_mayWrite_iff.mp ?_
  by_contra hmem
  exact hne (exec_keepsAllBut h .mem hmem a)

theorem cpuStep_readByte_ne {s t : State} {a : Word} (h : cpuStep s = .next t)
    (hne : t.readByte a ≠ s.readByte a) : AtStore s := by
  rcases cpuStep_next h with ⟨_, rfl⟩ | ⟨hrun, i, hi, he⟩ | ⟨_, _, rfl⟩
  · exact absurd rfl hne
  · obtain ⟨x, rfl | rfl⟩ := exec_readByte_ne he hne
    · exact ⟨hrun, x, .inl hi⟩
    · exact ⟨hrun, x, .inr hi⟩
  · exact absurd rfl hne

/-- Neither the frame's counts nor its end touches RAM, so only the instruction of a round can (R150). -/
theorem frameMove_readByte_ne {k : Nat} {s t : State} {a : Word} (h : frameMove k s = .next t)
    (hne : t.readByte a ≠ s.readByte a) : AtStore s := by
  rcases frameMove_next h with ⟨_, _, rfl⟩ | ⟨_, _, u, hu, rfl⟩ | ⟨_, rfl⟩
  · exact absurd (readByte_endFrame s.countDeadline a) hne
  · exact cpuStep_readByte_ne (s := s.countDeadline) hu hne
  · exact absurd (readByte_endFrame s a) hne

theorem hostMove_readByte_ne {op : HostOp} {s t : State} {a : Word} (h : hostMove op s = .next t)
    (hne : t.readByte a ≠ s.readByte a) : AtStore s ∨ ∃ bytes, op = .loadRom bytes := by
  rcases hostMove_next h with ⟨bytes, hop, _, _⟩ | ⟨bytes, hop, _, _⟩ | ⟨_, _, _, _, rfl⟩ | ⟨_, _, rfl⟩ |
    ⟨_, _, rfl⟩ | ⟨_, hstep⟩ | ⟨_, rfl⟩
  · exact .inr ⟨bytes, hop⟩
  · exact .inr ⟨bytes, hop⟩
  · exact absurd rfl hne
  · exact absurd rfl hne
  · exact absurd rfl hne
  · exact .inl (cpuStep_readByte_ne hstep hne)
  · exact absurd rfl hne

/-- Settles O48, one agent's move at a time: the core writes RAM at a store only, a frame only through the core, and the
host only through the core or by `load_rom`. -/
theorem onlyStoresAndLoadRomWriteRam : Obligations.OnlyStoresAndLoadRomWriteRam := by
  intro s t a hstep hne
  rcases step_next hstep with ⟨k, _, he⟩ | ⟨_, rfl⟩ | ⟨hidle, op, rest, ha, he⟩ | ⟨_, _, he⟩
  · exact .inl (frameMove_readByte_ne he hne)
  · exact absurd (readByte_endFrame s a) hne
  · rcases hostMove_readByte_ne he hne with hstore | ⟨bytes, rfl⟩
    · exact .inl hstore
    · exact .inr ⟨hidle, bytes, rest, ha⟩
  · exact .inl (cpuStep_readByte_ne he hne)

/-! ### The font (R51) -/

theorem font_not_mem_mayWrite (i : Instr) : Part.font ∉ mayWrite i := by
  cases i <;> simp [mayWrite]

theorem cpuStep_font {s t : State} (h : cpuStep s = .next t) : t.font = s.font := by
  rcases cpuStep_next h with ⟨_, rfl⟩ | ⟨_, i, _, he⟩ | ⟨_, _, rfl⟩
  · rfl
  · exact exec_keepsAllBut he .font (font_not_mem_mayWrite i)
  · exact State.raise_font s _ _

theorem frameMove_font {k : Nat} {s t : State} (h : frameMove k s = .next t) : t.font = s.font := by
  rcases frameMove_next h with ⟨_, _, rfl⟩ | ⟨_, _, u, hu, rfl⟩ | ⟨_, rfl⟩
  · exact State.endFrame_font s.countDeadline
  · exact (State.setFrame_font u _).trans (cpuStep_font (s := s.countDeadline) hu)
  · exact State.endFrame_font s

/-- The reset of `load_rom` keeps the machine's own font, not the reset state's default (R51, R161). -/
theorem hostMove_font {op : HostOp} {s t : State} (h : hostMove op s = .next t) : t.font = s.font := by
  rcases hostMove_next h with ⟨bytes, _, _, rfl⟩ | ⟨_, _, _, rfl⟩ | ⟨_, _, _, _, rfl⟩ | ⟨_, _, rfl⟩ |
    ⟨_, _, rfl⟩ | ⟨_, hstep⟩ | ⟨_, rfl⟩
  · exact State.loadImage_font s bytes
  · exact State.emit_font s _
  · exact State.setKeys_font s _
  · exact State.setKeys_font s _
  · exact State.setFrame_font s _
  · exact cpuStep_font hstep
  · rfl

/-- Settles O53, one agent's move at a time. -/
theorem fontIsAParameter : Obligations.FontIsAParameter := by
  intro s t hstep
  rcases step_next hstep with ⟨_, _, he⟩ | ⟨_, rfl⟩ | ⟨_, _, rest, _, he⟩ | ⟨_, _, he⟩
  · exact frameMove_font he
  · exact State.endFrame_font s
  · exact hostMove_font (s := s.setAgenda rest) he
  · exact cpuStep_font he

end Sys2Proof.Machine

/-! PROOFS. Decoding and encoding: the decision tree of R65 is the opcode map of R64 read in order, each row's
instruction encodes to the word it was read from (R69), and the words left over are those of R66. -/

namespace Sys2Proof

/-! ### The fields and the bytes of a word as numbers (R55, R61) -/

theorem toNat_fieldOp (w : Word) : (fieldOp w).toNat = w.toNat / 4096 := by
  have hw := w.isLt
  simp only [fieldOp, BitVec.extractLsb'_toNat, Nat.shiftRight_eq_div_pow]
  omega

theorem fieldN_eq_mod (w : Word) : fieldN w = w.toNat % 16 := by
  simp [fieldN]

theorem toNat_fieldKk (w : Word) : (fieldKk w).toNat = w.toNat % 256 := by
  simp [fieldKk]

theorem fieldKk_eq_iff {w : Word} {kk : Byte} : fieldKk w = kk ↔ w.toNat % 256 = kk.toNat := by
  rw [← BitVec.toNat_inj, toNat_fieldKk]

theorem toNat_wordOfBytes (hi lo : Byte) : (wordOfBytes hi lo).toNat = 256 * hi.toNat + lo.toNat := by
  have hlo : lo.toNat < 2 ^ 8 := lo.isLt
  rw [wordOfBytes, BitVec.toNat_append, ← Nat.shiftLeft_add_eq_or_of_lt hlo, Nat.shiftLeft_eq, Nat.mul_comm]

/-! ### The fields the four masks of R64 fix -/

theorem and_F000_eq_packA_iff {w : Word} {op : BitVec 4} : w &&& 0xF000 = packA op 0 ↔ fieldOp w = op := by
  constructor
  · intro h
    rw [fieldOp_of_masked h (by decide), fieldOp_packA]
  · rintro rfl
    rw [← packA_and_F000 (fieldOp w) (fieldNnn w), packA_fields]

theorem and_F00F_eq_packXYN_iff {w : Word} {op n : BitVec 4} :
    w &&& 0xF00F = packXYN op 0 0 n ↔ fieldOp w = op ∧ fieldN w = n.toNat := by
  constructor
  · intro h
    rw [fieldOp_of_masked h (by decide), fieldN_of_masked h (by decide), fieldOp_packXYN, fieldN_packXYN]
    exact ⟨rfl, rfl⟩
  · rintro ⟨rfl, hn⟩
    have h := packXYN_and_F00F (fieldOp w) (fieldX w) (fieldY w) (BitVec.ofNat 4 (fieldN w))
    rwa [packXYN_fields, hn, BitVec.ofNat_toNat, BitVec.setWidth_eq] at h

theorem and_F0FF_eq_packXK_iff {w : Word} {op : BitVec 4} {kk : Byte} :
    w &&& 0xF0FF = packXK op 0 kk ↔ fieldOp w = op ∧ fieldKk w = kk := by
  constructor
  · intro h
    rw [fieldOp_of_masked h (by decide), fieldKk_of_masked h (by decide), fieldOp_packXK, fieldKk_packXK]
    exact ⟨rfl, rfl⟩
  · rintro ⟨rfl, rfl⟩
    rw [← packXK_and_F0FF (fieldOp w) (fieldX w) (fieldKk w), packXK_fields]

/-! ### Which words a row matches (R64) -/

theorem hits_iff {r : OpcodeRow} {w : Word} : r.hits w = true ↔ w &&& r.mask = r.fixed := beq_iff_eq

/-- A row whose mask keeps op alone. -/
theorem hits_F000_iff {w f : Word} {op : BitVec 4} {make : Word → Instr} (hf : f = packA op 0) :
    (OpcodeRow.mk 0xF000 f make).hits w = true ↔ fieldOp w = op := by
  rw [hits_iff, hf, and_F000_eq_packA_iff]

/-- A row whose mask keeps op and n. -/
theorem hits_F00F_iff {w f : Word} {op n : BitVec 4} {make : Word → Instr} (hf : f = packXYN op 0 0 n) :
    (OpcodeRow.mk 0xF00F f make).hits w = true ↔ fieldOp w = op ∧ fieldN w = n.toNat := by
  rw [hits_iff, hf, and_F00F_eq_packXYN_iff]

/-- A row whose mask keeps op and kk. -/
theorem hits_F0FF_iff {w f : Word} {op : BitVec 4} {kk : Byte} {make : Word → Instr} (hf : f = packXK op 0 kk) :
    (OpcodeRow.mk 0xF0FF f make).hits w = true ↔ fieldOp w = op ∧ fieldKk w = kk := by
  rw [hits_iff, hf, and_F0FF_eq_packXK_iff]

/-- A row whose mask keeps the whole word. -/
theorem hits_FFFF_iff {w f : Word} {make : Word → Instr} : (OpcodeRow.mk 0xFFFF f make).hits w = true ↔ w = f := by
  have hw : w &&& 0xFFFF = w := BitVec.and_allOnes
  rw [hits_iff, hw]

/-! ### The first row a word matches (R64) -/

/-- Reading the rows in order: the instruction of the first one the word matches, `InvalidOpcode` past the last. -/
def decodeByRows (w : Word) : List OpcodeRow → Except Reject Instr
  | [] => .error (.invalidOpcode w)
  | r :: rows => if r.hits w = true then .ok (r.make w) else decodeByRows w rows

theorem decodeByRows_cons_of_hits {w : Word} {r : OpcodeRow} (h : r.hits w = true) (rows : List OpcodeRow) :
    decodeByRows w (r :: rows) = .ok (r.make w) := if_pos h

theorem decodeByRows_cons_of_not_hits {w : Word} {r : OpcodeRow} (h : ¬ r.hits w = true) (rows : List OpcodeRow) :
    decodeByRows w (r :: rows) = decodeByRows w rows := if_neg h

theorem decodeByRows_of_find_some {w : Word} {rows : List OpcodeRow} {r : OpcodeRow}
    (h : rows.find? (fun r => r.hits w) = some r) : decodeByRows w rows = .ok (r.make w) := by
  induction rows with
  | nil => cases h
  | cons r' rows ih =>
    by_cases hit : r'.hits w = true
    · have heq : r' = r := by simpa [hit] using h
      rw [decodeByRows_cons_of_hits hit, heq]
    · have hrest : rows.find? (fun r => r.hits w) = some r := by simpa [hit] using h
      rw [decodeByRows_cons_of_not_hits hit, ih hrest]

theorem decodeByRows_of_find_none {w : Word} {rows : List OpcodeRow}
    (h : rows.find? (fun r => r.hits w) = none) : decodeByRows w rows = .error (.invalidOpcode w) := by
  induction rows with
  | nil => rfl
  | cons r rows ih =>
    obtain ⟨miss, hrows⟩ := List.forall_mem_cons.mp (List.find?_eq_none.mp h)
    rw [decodeByRows_cons_of_not_hits miss, ih (List.find?_eq_none.mpr hrows)]

/-! ### The tree of R65 branches on op as the table's rows group by it -/

/-- The rows of one branch of R65. -/
def rowsOfOp (op : BitVec 4) : List OpcodeRow := opcodeTable.filter (fun r => fieldOp r.fixed == op)

/-- Where every mask keeps op, a row of another op never matches, so it can be left out. -/
theorem decodeByRows_filter {w : Word} {rows : List OpcodeRow}
    (hm : ∀ r ∈ rows, fieldOp r.mask = BitVec.allOnes 4) :
    decodeByRows w (rows.filter (fun r => fieldOp r.fixed == fieldOp w)) = decodeByRows w rows := by
  induction rows with
  | nil => rfl
  | cons r rows ih =>
    obtain ⟨hr, hrows⟩ := List.forall_mem_cons.mp hm
    by_cases hop : fieldOp r.fixed = fieldOp w
    · rw [List.filter_cons_of_pos (by simp [hop]), decodeByRows, decodeByRows, ih hrows]
    · have miss : ¬ r.hits w = true := fun h => hop (fieldOp_of_masked (hits_iff.mp h) hr).symm
      rw [List.filter_cons_of_neg (by simp [hop]), decodeByRows_cons_of_not_hits miss, ih hrows]

/-! One row at the head of a branch, by its mask, where the branch's op is the word's. -/

section Branch
variable {w f : Word} {op : BitVec 4} {make : Word → Instr} {d : Except Reject Instr} {rows : List OpcodeRow}

theorem decodeByRows_cons_of_iff {c : Prop} [Decidable c] {r : OpcodeRow} (hc : r.hits w = true ↔ c)
    (h : decodeByRows w rows = d) : decodeByRows w (r :: rows) = if c then .ok (r.make w) else d := by
  simp only [decodeByRows, hc, h]

theorem decodeByRows_cons_F000 (hop : fieldOp w = op) (hf : f = packA op 0) :
    decodeByRows w (⟨0xF000, f, make⟩ :: rows) = .ok (make w) :=
  decodeByRows_cons_of_hits ((hits_F000_iff hf).mpr hop) rows

theorem decodeByRows_cons_F00F {n : Nat} (hn : n < 16) (hop : fieldOp w = op)
    (hf : f = packXYN op 0 0 (BitVec.ofNat 4 n)) (h : decodeByRows w rows = d) :
    decodeByRows w (⟨0xF00F, f, make⟩ :: rows) = if fieldN w = n then .ok (make w) else d := by
  refine decodeByRows_cons_of_iff ?_ h
  rw [hits_F00F_iff hf, and_iff_right hop, BitVec.toNat_ofNat, Nat.mod_eq_of_lt hn]

theorem decodeByRows_cons_F0FF {kk : Byte} (hop : fieldOp w = op) (hf : f = packXK op 0 kk)
    (h : decodeByRows w rows = d) :
    decodeByRows w (⟨0xF0FF, f, make⟩ :: rows) = if fieldKk w = kk then .ok (make w) else d := by
  refine decodeByRows_cons_of_iff ?_ h
  rw [hits_F0FF_iff hf, and_iff_right hop]

theorem decodeByRows_cons_FFFF (h : decodeByRows w rows = d) :
    decodeByRows w (⟨0xFFFF, f, make⟩ :: rows) = if w = f then .ok (make w) else d :=
  decodeByRows_cons_of_iff hits_FFFF_iff h

end Branch

/-- The 8xyN group of R65 as a chain of tests, in the rows' order. -/
theorem decodeAlu_eq_ite (w : Word) : decodeAlu w =
    if fieldN w = 0x0 then .ok (.ldVy (fieldX w) (fieldY w))
    else if fieldN w = 0x1 then .ok (.orVy (fieldX w) (fieldY w))
    else if fieldN w = 0x2 then .ok (.andVy (fieldX w) (fieldY w))
    else if fieldN w = 0x3 then .ok (.xorVy (fieldX w) (fieldY w))
    else if fieldN w = 0x4 then .ok (.addVy (fieldX w) (fieldY w))
    else if fieldN w = 0x5 then .ok (.subVy (fieldX w) (fieldY w))
    else if fieldN w = 0x6 then .ok (.shrVy (fieldX w) (fieldY w))
    else if fieldN w = 0x7 then .ok (.subnVy (fieldX w) (fieldY w))
    else if fieldN w = 0xE then .ok (.shlVy (fieldX w) (fieldY w))
    else .error (.invalidOpcode w) := by
  unfold decodeAlu
  split
  case h_10 => grind
  all_goals simp [*]

theorem decodeByRows_alu {w : Word} (hop : fieldOp w = 0x8) : decodeByRows w opcodeRowsAlu = decodeAlu w := by
  rw [decodeAlu_eq_ite]
  iterate 9 refine decodeByRows_cons_F00F (by decide) hop rfl ?_
  rfl

theorem decodeByRows_key {w : Word} (hop : fieldOp w = 0xE) : decodeByRows w (opcodeRowsMid.drop 5) = decodeKey w :=
  decodeByRows_cons_F0FF hop rfl <| decodeByRows_cons_F0FF hop rfl rfl

theorem decodeByRows_misc {w : Word} (hop : fieldOp w = 0xF) : decodeByRows w opcodeRowsMisc = decodeMisc w := by
  unfold decodeMisc
  iterate 9 refine decodeByRows_cons_F0FF hop rfl ?_
  rfl

/-- A branch of the tree is its rows, in order, so it is the rows of the word's op. -/
theorem eq_decodeByRows_rowsOfOp {w : Word} {d : Except Reject Instr} (op : BitVec 4) (h : (fieldOp w).toNat = op.toNat)
    (rows : List OpcodeRow) (hrows : rowsOfOp op = rows) (hd : fieldOp w = op → decodeByRows w rows = d) :
    d = decodeByRows w (rowsOfOp (fieldOp w)) := by
  have hop : fieldOp w = op := BitVec.eq_of_toNat_eq h
  rw [hop, hrows, hd hop]

theorem decode_eq_decodeByRows_rowsOfOp (w : Word) : decode w = decodeByRows w (rowsOfOp (fieldOp w)) := by
  unfold decode
  split
  case h_1 h =>
    exact eq_decodeByRows_rowsOfOp 0x0 h (opcodeRowsLow.take 2) rfl
      fun _ => decodeByRows_cons_FFFF <| decodeByRows_cons_FFFF rfl
  case h_2 h => exact eq_decodeByRows_rowsOfOp 0x1 h [opcodeRowsLow[2]] rfl fun hop => decodeByRows_cons_F000 hop rfl
  case h_3 h => exact eq_decodeByRows_rowsOfOp 0x2 h [opcodeRowsLow[3]] rfl fun hop => decodeByRows_cons_F000 hop rfl
  case h_4 h => exact eq_decodeByRows_rowsOfOp 0x3 h [opcodeRowsLow[4]] rfl fun hop => decodeByRows_cons_F000 hop rfl
  case h_5 h => exact eq_decodeByRows_rowsOfOp 0x4 h [opcodeRowsLow[5]] rfl fun hop => decodeByRows_cons_F000 hop rfl
  case h_6 h =>
    exact eq_decodeByRows_rowsOfOp 0x5 h [opcodeRowsLow[6]] rfl
      fun hop => decodeByRows_cons_F00F (by decide) hop rfl rfl
  case h_7 h => exact eq_decodeByRows_rowsOfOp 0x6 h [opcodeRowsLow[7]] rfl fun hop => decodeByRows_cons_F000 hop rfl
  case h_8 h => exact eq_decodeByRows_rowsOfOp 0x7 h [opcodeRowsLow[8]] rfl fun hop => decodeByRows_cons_F000 hop rfl
  case h_9 h => exact eq_decodeByRows_rowsOfOp 0x8 h opcodeRowsAlu rfl decodeByRows_alu
  case h_10 h =>
    exact eq_decodeByRows_rowsOfOp 0x9 h [opcodeRowsMid[0]] rfl
      fun hop => decodeByRows_cons_F00F (by decide) hop rfl rfl
  case h_11 h => exact eq_decodeByRows_rowsOfOp 0xA h [opcodeRowsMid[1]] rfl fun hop => decodeByRows_cons_F000 hop rfl
  case h_12 h => exact eq_decodeByRows_rowsOfOp 0xB h [opcodeRowsMid[2]] rfl fun hop => decodeByRows_cons_F000 hop rfl
  case h_13 h => exact eq_decodeByRows_rowsOfOp 0xC h [opcodeRowsMid[3]] rfl fun hop => decodeByRows_cons_F000 hop rfl
  case h_14 h => exact eq_decodeByRows_rowsOfOp 0xD h [opcodeRowsMid[4]] rfl fun hop => decodeByRows_cons_F000 hop rfl
  case h_15 h => exact eq_decodeByRows_rowsOfOp 0xE h (opcodeRowsMid.drop 5) rfl decodeByRows_key
  case h_16 =>
    have hlt : (fieldOp w).toNat < 16 := (fieldOp w).isLt
    have h : (fieldOp w).toNat = 15 := by grind
    exact eq_decodeByRows_rowsOfOp 0xF h opcodeRowsMisc rfl decodeByRows_misc

theorem decode_eq_decodeByRows (w : Word) : decode w = decodeByRows w opcodeTable := by
  have masks : ∀ r ∈ opcodeTable, fieldOp r.mask = BitVec.allOnes 4 := by decide
  exact (decode_eq_decodeByRows_rowsOfOp w).trans (decodeByRows_filter masks)

/-! ### Each row's words, read and written back (R64, R69) -/

/-- What the row reads from a word of its own is an instruction, and its encoding is that word again. -/
def OpcodeRow.ReadsBack (r : OpcodeRow) : Prop :=
  ∀ w, r.hits w = true → (r.make w).wellFormed = true ∧ encode (r.make w) = w

section Formats
variable {f : Word} {op : BitVec 4}

/-- Format A of R62. -/
theorem readsBack_A {i : Addr → Instr} (hf : f = packA op 0)
    (hi : ∀ nnn, (i nnn).wellFormed = true ∧ encode (i nnn) = packA op nnn) :
    OpcodeRow.ReadsBack ⟨0xF000, f, fun w => i (fieldNnn w)⟩ := by
  intro w hit
  have hop : fieldOp w = op := (hits_F000_iff hf).mp hit
  obtain ⟨hwf, henc⟩ := hi (fieldNnn w)
  exact ⟨hwf, by rw [henc, ← hop, packA_fields]⟩

/-- Format XK of R62. -/
theorem readsBack_XK {i : Reg → Byte → Instr} (hf : f = packA op 0)
    (hi : ∀ x kk, (i x kk).wellFormed = true ∧ encode (i x kk) = packXK op x kk) :
    OpcodeRow.ReadsBack ⟨0xF000, f, fun w => i (fieldX w) (fieldKk w)⟩ := by
  intro w hit
  have hop : fieldOp w = op := (hits_F000_iff hf).mp hit
  obtain ⟨hwf, henc⟩ := hi (fieldX w) (fieldKk w)
  exact ⟨hwf, by rw [henc, ← hop, packXK_fields]⟩

/-- Format XY of R62. -/
theorem readsBack_XY {i : Reg → Reg → Instr} {n : BitVec 4} (hf : f = packXYN op 0 0 n)
    (hi : ∀ x y, (i x y).wellFormed = true ∧ encode (i x y) = packXYN op x y n) :
    OpcodeRow.ReadsBack ⟨0xF00F, f, fun w => i (fieldX w) (fieldY w)⟩ := by
  intro w hit
  obtain ⟨hop, hn⟩ := (hits_F00F_iff hf).mp hit
  have hn : BitVec.ofNat 4 (fieldN w) = n := by rw [hn, BitVec.ofNat_toNat, BitVec.setWidth_eq]
  obtain ⟨hwf, henc⟩ := hi (fieldX w) (fieldY w)
  exact ⟨hwf, by rw [henc, ← hop, ← hn, packXYN_fields]⟩

/-- Format XYN of R62: Dxyn alone, whose height fits its field. -/
theorem readsBack_drw : OpcodeRow.ReadsBack ⟨0xF000, 0xD000, fun w => .drw (fieldX w) (fieldY w) (fieldN w)⟩ := by
  intro w hit
  have hop : fieldOp w = 0xD := (hits_F000_iff rfl).mp hit
  have henc : encode (.drw (fieldX w) (fieldY w) (fieldN w)) = w := by
    rw [encode, ← hop, packXYN_fields]
  exact ⟨decide_eq_true (fieldN_lt w), henc⟩

/-- Format X of R62. -/
theorem readsBack_X {i : Reg → Instr} {kk : Byte} (hf : f = packXK op 0 kk)
    (hi : ∀ x, (i x).wellFormed = true ∧ encode (i x) = packXK op x kk) :
    OpcodeRow.ReadsBack ⟨0xF0FF, f, fun w => i (fieldX w)⟩ := by
  intro w hit
  obtain ⟨hop, hkk⟩ := (hits_F0FF_iff hf).mp hit
  obtain ⟨hwf, henc⟩ := hi (fieldX w)
  exact ⟨hwf, by rw [henc, ← hop, ← hkk, packXK_fields]⟩

/-- A word with no operand. -/
theorem readsBack_fixed {i : Instr} (hwf : i.wellFormed = true) (henc : encode i = f) :
    OpcodeRow.ReadsBack ⟨0xFFFF, f, fun _ => i⟩ := by
  intro w hit
  exact ⟨hwf, by rw [henc, hits_FFFF_iff.mp hit]⟩

end Formats

theorem readsBack_low : ∀ r ∈ opcodeRowsLow, r.ReadsBack := by
  simp only [opcodeRowsLow, List.forall_mem_cons]
  exact ⟨readsBack_fixed rfl rfl, readsBack_fixed rfl rfl, readsBack_A rfl fun _ => ⟨rfl, rfl⟩,
    readsBack_A rfl fun _ => ⟨rfl, rfl⟩, readsBack_XK rfl fun _ _ => ⟨rfl, rfl⟩,
    readsBack_XK rfl fun _ _ => ⟨rfl, rfl⟩, readsBack_XY rfl fun _ _ => ⟨rfl, rfl⟩,
    readsBack_XK rfl fun _ _ => ⟨rfl, rfl⟩, readsBack_XK rfl fun _ _ => ⟨rfl, rfl⟩, List.forall_mem_nil _⟩

theorem readsBack_alu : ∀ r ∈ opcodeRowsAlu, r.ReadsBack := by
  simp only [opcodeRowsAlu, List.forall_mem_cons]
  exact ⟨readsBack_XY rfl fun _ _ => ⟨rfl, rfl⟩, readsBack_XY rfl fun _ _ => ⟨rfl, rfl⟩,
    readsBack_XY rfl fun _ _ => ⟨rfl, rfl⟩, readsBack_XY rfl fun _ _ => ⟨rfl, rfl⟩,
    readsBack_XY rfl fun _ _ => ⟨rfl, rfl⟩, readsBack_XY rfl fun _ _ => ⟨rfl, rfl⟩,
    readsBack_XY rfl fun _ _ => ⟨rfl, rfl⟩, readsBack_XY rfl fun _ _ => ⟨rfl, rfl⟩,
    readsBack_XY rfl fun _ _ => ⟨rfl, rfl⟩, List.forall_mem_nil _⟩

theorem readsBack_mid : ∀ r ∈ opcodeRowsMid, r.ReadsBack := by
  simp only [opcodeRowsMid, List.forall_mem_cons]
  exact ⟨readsBack_XY rfl fun _ _ => ⟨rfl, rfl⟩, readsBack_A rfl fun _ => ⟨rfl, rfl⟩,
    readsBack_A rfl fun _ => ⟨rfl, rfl⟩, readsBack_XK rfl fun _ _ => ⟨rfl, rfl⟩, readsBack_drw,
    readsBack_X rfl fun _ => ⟨rfl, rfl⟩, readsBack_X rfl fun _ => ⟨rfl, rfl⟩, List.forall_mem_nil _⟩

theorem readsBack_misc : ∀ r ∈ opcodeRowsMisc, r.ReadsBack := by
  simp only [opcodeRowsMisc, List.forall_mem_cons]
  exact ⟨readsBack_X rfl fun _ => ⟨rfl, rfl⟩, readsBack_X rfl fun _ => ⟨rfl, rfl⟩,
    readsBack_X rfl fun _ => ⟨rfl, rfl⟩, readsBack_X rfl fun _ => ⟨rfl, rfl⟩,
    readsBack_X rfl fun _ => ⟨rfl, rfl⟩, readsBack_X rfl fun _ => ⟨rfl, rfl⟩,
    readsBack_X rfl fun _ => ⟨rfl, rfl⟩, readsBack_X rfl fun _ => ⟨rfl, rfl⟩,
    readsBack_X rfl fun _ => ⟨rfl, rfl⟩, List.forall_mem_nil _⟩

theorem readsBack_of_mem : ∀ r ∈ opcodeTable, r.ReadsBack := by
  simp only [opcodeTable, List.forall_mem_append]
  exact ⟨⟨⟨readsBack_low, readsBack_alu⟩, readsBack_mid⟩, readsBack_misc⟩

/-! ### No word matches two rows (R64) -/

/-- Two rows that fix a common bit differently. -/
def OpcodeRow.Conflicts (r r' : OpcodeRow) : Prop := r.fixed &&& r'.mask ≠ r'.fixed &&& r.mask

theorem not_hits_of_conflicts {r r' : OpcodeRow} (hc : r.Conflicts r') (w : Word) :
    ¬(r.hits w = true ∧ r'.hits w = true) := by
  rintro ⟨h, h'⟩
  apply hc
  rw [← hits_iff.mp h, ← hits_iff.mp h', BitVec.and_assoc, BitVec.and_assoc, BitVec.and_comm r.mask]

theorem pairwise_conflicts : opcodeTable.Pairwise OpcodeRow.Conflicts := by
  unfold OpcodeRow.Conflicts
  decide

theorem eq_of_hits {w : Word} {r r' : OpcodeRow} (hr : r ∈ opcodeTable) (hr' : r' ∈ opcodeTable)
    (h : r.hits w = true) (h' : r'.hits w = true) : r = r' := by
  have symm : Std.Symm OpcodeRow.Conflicts := ⟨fun _ _ => Ne.symm⟩
  by_contra hne
  exact not_hits_of_conflicts (pairwise_conflicts.forall hr hr' hne) w ⟨h, h'⟩

/-! ### The decoder by the table (R64, R65) -/

theorem decode_of_find_some {w : Word} {r : OpcodeRow} (h : opcodeTable.find? (fun r => r.hits w) = some r) :
    decode w = .ok (r.make w) := by
  rw [decode_eq_decodeByRows, decodeByRows_of_find_some h]

theorem hits_of_find_some {w : Word} {r : OpcodeRow} (h : opcodeTable.find? (fun r => r.hits w) = some r) :
    r.hits w = true :=
  List.find?_some (p := fun r : OpcodeRow => r.hits w) h

theorem decode_of_find_none {w : Word} (h : opcodeTable.find? (fun r => r.hits w) = none) :
    decode w = .error (.invalidOpcode w) := by
  rw [decode_eq_decodeByRows, decodeByRows_of_find_none h]

/-- Any row the word matches gives what it decodes to. -/
theorem decode_of_hits {w : Word} {r : OpcodeRow} (hr : r ∈ opcodeTable) (h : r.hits w = true) :
    decode w = .ok (r.make w) := by
  cases hf : opcodeTable.find? (fun r => r.hits w) with
  | none => exact absurd h (List.find?_eq_none.mp hf r hr)
  | some r' =>
    have heq : r' = r := eq_of_hits (List.mem_of_find?_eq_some hf) hr (hits_of_find_some hf) h
    rw [decode_of_find_some hf, heq]

/-- A word decodes by a row it matches, or to `InvalidOpcode`. -/
theorem decode_cases (w : Word) :
    (∃ r ∈ opcodeTable, r.hits w = true ∧ decode w = .ok (r.make w)) ∨ decode w = .error (.invalidOpcode w) := by
  cases hf : opcodeTable.find? (fun r => r.hits w) with
  | none => exact .inr (decode_of_find_none hf)
  | some r => exact .inl ⟨r, List.mem_of_find?_eq_some hf, hits_of_find_some hf, decode_of_find_some hf⟩

theorem eq_invalidOpcode_of_decode_error {w : Word} {e : Reject} (h : decode w = .error e) :
    e = .invalidOpcode w := by
  rcases decode_cases w with ⟨r, _, _, hok⟩ | herr
  · rw [hok] at h
    cases h
  · exact Except.error.inj (h.symm.trans herr)

/-- What a word decodes to is an instruction, and the word is its encoding (R69). -/
theorem wellFormed_and_encode_of_decode {w : Word} {i : Instr} (h : decode w = .ok i) :
    i.wellFormed = true ∧ encode i = w := by
  rcases decode_cases w with ⟨r, hr, hit, hok⟩ | herr
  · rw [← Except.ok.inj (hok.symm.trans h)]
    exact readsBack_of_mem r hr w hit
  · rw [herr] at h
    cases h

open Laws.FixedBits in
/-- The encoding of a well-formed instruction matches a row that reads the instruction from it (R64, R69). -/
theorem row_of_encode : ∀ i : Instr, Statement i
  | .cls => cls
  | .ret => ret
  | .jp nnn => jp nnn
  | .call nnn => call nnn
  | .seKk x kk => seKk x kk
  | .sneKk x kk => sneKk x kk
  | .seVy x y => seVy x y
  | .ldKk x kk => ldKk x kk
  | .addKk x kk => addKk x kk
  | .ldVy x y => ldVy x y
  | .orVy x y => orVy x y
  | .andVy x y => andVy x y
  | .xorVy x y => xorVy x y
  | .addVy x y => addVy x y
  | .subVy x y => subVy x y
  | .shrVy x y => shrVy x y
  | .subnVy x y => subnVy x y
  | .shlVy x y => shlVy x y
  | .sneVy x y => sneVy x y
  | .ldI nnn => ldI nnn
  | .jpV0 nnn => jpV0 nnn
  | .rnd x kk => rnd x kk
  | .drw x y n => drw x y n
  | .skp x => skp x
  | .sknp x => sknp x
  | .ldVxDt x => ldVxDt x
  | .ldVxK x => ldVxK x
  | .ldDtVx x => ldDtVx x
  | .ldStVx x => ldStVx x
  | .addIVx x => addIVx x
  | .ldFVx x => ldFVx x
  | .ldBVx x => ldBVx x
  | .ldMemVx x => ldMemVx x
  | .ldVxMem x => ldVxMem x

theorem decode_encode {i : Instr} (hwf : i.wellFormed = true) : decode (encode i) = .ok i := by
  obtain ⟨r, hr, hit, hmake⟩ := row_of_encode i hwf
  rw [decode_of_hits hr hit, hmake]

/-- Settles O1: an instruction's encoding matches its row of R64, that row alone decodes it, and each row's instruction
encodes to the word it was read from. -/
theorem decodeEncodeRoundTrip : Obligations.DecodeEncodeRoundTrip := by
  refine ⟨fun i => decode_encode, fun w i => wellFormed_and_encode_of_decode, fun w w' i h h' => ?_,
    fun i hwf => ?_⟩
  · obtain ⟨_, henc⟩ := wellFormed_and_encode_of_decode h
    obtain ⟨_, henc'⟩ := wellFormed_and_encode_of_decode h'
    exact henc.symm.trans henc'
  · obtain ⟨r, hr, hit, hmake⟩ := row_of_encode i hwf
    exact ⟨r, hr, hits_iff.mp hit, hmake⟩

/-- Settles O2: the tree branches on op as the table's rows group by it, and any two rows fix a common bit
differently. -/
theorem decodeIsTheOpcodeTable : Obligations.DecodeIsTheOpcodeTable := by
  refine ⟨rfl, fun w => ?_, fun w => pairwise_conflicts.imp fun hc => not_hits_of_conflicts hc w⟩
  split
  · next r hf => exact decode_of_find_some hf
  · next hf => exact decode_of_find_none hf

/-! ### The invalid words (R66) -/

theorem exists_error_ite_iff {ε α : Type} {c : Prop} [Decidable c] {a : α} {d : Except ε α} :
    (∃ e, (if c then .ok a else d) = .error e) ↔ ¬c ∧ ∃ e, d = .error e := by
  by_cases hc : c <;> simp [hc]

theorem decodeAlu_error_iff {w : Word} :
    (∃ e, decodeAlu w = .error e) ↔ w.toNat % 16 ∈ [0x8, 0x9, 0xA, 0xB, 0xC, 0xD, 0xF] := by
  simp only [decodeAlu_eq_ite, exists_error_ite_iff, fieldN_eq_mod, Except.error.injEq, exists_eq', and_true,
    List.mem_cons, List.not_mem_nil, or_false]
  omega

theorem decodeKey_error_iff {w : Word} : (∃ e, decodeKey w = .error e) ↔ w.toNat % 256 ∉ [0x9E, 0xA1] := by
  simp [decodeKey, exists_error_ite_iff, fieldKk_eq_iff]

theorem decodeMisc_error_iff {w : Word} : (∃ e, decodeMisc w = .error e) ↔
    w.toNat % 256 ∉ [0x07, 0x0A, 0x15, 0x18, 0x1E, 0x29, 0x33, 0x55, 0x65] := by
  simp [decodeMisc, exists_error_ite_iff, fieldKk_eq_iff]

/-- The words R66 lists, branch by branch of R65. -/
theorem decode_error_iff (w : Word) : (∃ e, decode w = .error e) ↔
    (w.toNat ≤ 0x0FFF ∧ w.toNat ≠ 0x00E0 ∧ w.toNat ≠ 0x00EE) ∨
    ((w.toNat / 4096 = 5 ∨ w.toNat / 4096 = 9) ∧ w.toNat % 16 ≠ 0) ∨
    (w.toNat / 4096 = 8 ∧ w.toNat % 16 ∈ [0x8, 0x9, 0xA, 0xB, 0xC, 0xD, 0xF]) ∨
    (w.toNat / 4096 = 0xE ∧ w.toNat % 256 ∉ [0x9E, 0xA1]) ∨
    (w.toNat / 4096 = 0xF ∧ w.toNat % 256 ∉ [0x07, 0x0A, 0x15, 0x18, 0x1E, 0x29, 0x33, 0x55, 0x65]) := by
  have hlt : w.toNat < 65536 := w.isLt
  have hlow : w.toNat ≤ 0x0FFF ↔ w.toNat / 4096 = 0 := by omega
  rw [hlow]
  unfold decode
  rw [toNat_fieldOp]
  split
  case h_1 h => simp [h, exists_error_ite_iff, ← BitVec.toNat_inj]
  case h_6 h => simp [h, exists_error_ite_iff, fieldN_eq_mod]
  case h_9 h => simp [h, decodeAlu_error_iff]
  case h_10 h => simp [h, exists_error_ite_iff, fieldN_eq_mod]
  case h_15 h => simp [h, decodeKey_error_iff]
  case h_16 =>
    have h : w.toNat / 4096 = 15 := by grind
    simp [h, decodeMisc_error_iff]
  all_goals simp [*]

end Sys2Proof

/-! PROOFS. A step as the fetch, decoding and execution of one word, and its error on an invalid one (R55, R60, R66,
R149). -/

namespace Sys2Proof.Machine

/-! ### The word at pc (R55, R60) -/

theorem fetchWord_eq_of_toNat {s : State} {w : Word}
    (h : w.toNat = 256 * (s.readByte s.pc).toNat + (s.readByte (s.pc + 1)).toNat) : s.fetchWord = w := by
  apply BitVec.eq_of_toNat_eq
  rw [h, ← toNat_wordOfBytes, State.fetchWord, State.wordAt]

/-- Settles O3: the decoder's branches leave out the listed words, and the core's step takes an invalid one to
`raise`. -/
theorem invalidWordsAreThoseListed : Obligations.InvalidWordsAreThoseListed := by
  refine ⟨decode_error_iff, fun w e => eq_invalidOpcode_of_decode_error, fun s hf ha hrun hdec => ?_⟩
  obtain ⟨e, he⟩ := hdec
  exact ⟨s.raise .invalidOpcode s.fetchWord, (step_of_idle hf ha).trans (cpuStep_of_invalid hrun he),
    State.raise_halted s _ _, State.raise_fault s _ _⟩

/-- Settles O4, by running the decoder on the fourteen words. -/
theorem sampleWordsDecode : Obligations.SampleWordsDecode := by
  unfold Obligations.SampleWordsDecode
  decide

/-- Settles O5: the word of the two bytes is the one the core fetches. -/
theorem stepRunsTheDecodedInstruction : Obligations.StepRunsTheDecodedInstruction := by
  intro s hf ha
  rw [step_of_idle hf ha]
  refine ⟨cpuStep_of_halted, fun hrun w i hw hi => cpuStep_of_decode hrun ?_⟩
  rw [fetchWord_eq_of_toNat hw, hi]

end Sys2Proof.Machine

/-! PROOFS. The display instructions: 00E0 clears the screen, Dxyn flips a sprite's pixels (R80 to R84). -/

namespace Sys2Proof.Machine

/-- A row of R64's table, given by its place in it, is what its words decode by. -/
theorem rowIs_of_place (k : Nat) {mask fixed : Word} {make : Word → Instr}
    (hk : opcodeTable[k]? = some ⟨mask, fixed, make⟩) : RowIs mask fixed make :=
  fun _ hw => decode_of_hits (List.mem_of_getElem? hk) (hits_iff.mpr hw)

theorem exec_cls (s : State) :
    exec .cls s = .next { s with fb := Vector.replicate 32 0, fbChanged := true }.advance := rfl

/-- Settles O8: the cleared screen is the one of reset, and the rest is the frame of 00E0. -/
theorem clearScreen : Obligations.ClearScreen :=
  ⟨rowIs_of_place 0 rfl, fun s => ⟨_, exec_cls s, fun c r _ _ => pixel_clear c r, rfl, toNat_advance_pc _,
    exec_keepsAllBut (exec_cls s)⟩⟩

/-- The state Dxyn leaves once the sprite is drawn: the new screen, the collision in VF, and pc at next (R82, R84). -/
def State.withDrawn (s : State) (drawn : FrameBuffer × Bool) : State :=
  ({ s with fb := drawn.1, fbChanged := true }.setV regVF (flagByte drawn.2)).advance

theorem exec_drw (x y : Reg) (n : Nat) (s : State) :
    exec (.drw x y n) s = .next (s.withDrawn (s.drawSprite (s.v[x].toNat % 64) (s.v[y].toNat % 32) n)) := rfl

theorem withDrawn_VF (s : State) (drawn : FrameBuffer × Bool) : (s.withDrawn drawn).v[15] = flagByte drawn.2 :=
  Vector.getElem_set_self _

theorem keepsRegsBut_withDrawn (s : State) (drawn : FrameBuffer × Bool) :
    KeepsRegsBut [15] s (s.withDrawn drawn) := fun j hj =>
  (getElem_setV { s with fb := drawn.1, fbChanged := true } regVF (flagByte drawn.2) j).trans
    (if_neg (List.ne_of_not_mem_cons hj).symm)

/-- Settles O9: the loops of R82 flip the covered pixels and note a collision (`drawSprite_spec`), VF is that note, and
the rest is the frame of Dxyn. -/
theorem drawFlipsTheSpritesPixels : Obligations.DrawFlipsTheSpritesPixels := by
  refine ⟨rowIs_of_place 22 rfl, fun x y n s => ⟨_, exec_drw x y n s, ?_⟩⟩
  obtain ⟨hpixels, hcollision⟩ := drawSprite_spec s (s.v[x].toNat % 64) (s.v[y].toNat % 32) n
  refine ⟨hpixels, fun hset => ?_, fun hclear => ?_, keepsRegsBut_withDrawn s _, rfl, toNat_advance_pc _,
    exec_keepsAllBut (exec_drw x y n s)⟩
  · rw [withDrawn_VF, hcollision.mpr hset]
    rfl
  · have hnone : (s.drawSprite (s.v[x].toNat % 64) (s.v[y].toNat % 32) n).2 = false := by
      rw [Bool.eq_false_iff, Ne, hcollision]
      rintro ⟨c, r, hc, hr, hcov, hpix⟩
      exact Bool.false_ne_true ((hclear c r hc hr hcov).symm.trans hpix)
    rw [withDrawn_VF, hnone]
    rfl

end Sys2Proof.Machine

/-! PROOFS. Jumps, calls and returns: 1nnn, Bnnn, 2nnn, 00EE, and the return that undoes a call (R85 to R91, R134, R135). -/

namespace Sys2Proof.Machine

/-- A listed part that is the same all the same need not be listed. -/
theorem KeepsAllBut.of_same {p : Part} {ps : List Part} {s t : State} (h : KeepsAllBut (p :: ps) s t)
    (hp : p.same s t) : KeepsAllBut ps s t := by
  intro q hq
  by_cases hqp : q = p
  · exact hqp ▸ hp
  · exact h q (List.not_mem_cons_of_ne_of_not_mem hqp hq)

/-- Raising an error leaves what R131 lists. -/
theorem faultedWith_raise (s : State) (kind : FaultKind) (w : Word) : FaultedWith kind w s (s.raise kind w) :=
  ⟨toNat_advance_pc s, rfl, rfl, keepsAllBut_raise s kind w⟩

/-! ### Jumps (R87, R89, R91) -/

theorem exec_jp (nnn : Addr) (s : State) : exec (.jp nnn) s = .next (s.setPc (immAddr nnn)) := rfl

theorem exec_jpV0 (nnn : Addr) (s : State) : exec (.jpV0 nnn) s = .next (s.setPc (immAddr nnn + s.wideV 0)) := rfl

/-- A target of twelve bits is where pc goes, unmasked (R87, R88). -/
theorem toNat_setPc_immAddr (s : State) (nnn : Addr) : (s.setPc (immAddr nnn)).pc.toNat = nnn.toNat := by
  rw [State.setPc_pc, mask12_immAddr, toNat_immAddr]

theorem toNat_wideV (s : State) (x : Reg) : (s.wideV x).toNat = s.v[x].toNat :=
  BitVec.toNat_setWidth_of_le (by decide)

/-- The sum is masked: it wraps past 0xFFF (R89). -/
theorem toNat_setPc_immAddr_add (s : State) (nnn : Addr) :
    (s.setPc (immAddr nnn + s.wideV 0)).pc.toNat = (nnn.toNat + s.v[0].toNat) % 4096 := by
  rw [State.setPc_pc, toNat_mask12, BitVec.toNat_add, toNat_immAddr, toNat_wideV]
  exact Nat.mod_mod_of_dvd _ (by decide)

/-- Settles O10: a jump is a write to pc, which masks the target and keeps the rest. -/
theorem jumpsGoToTheirTargets : Obligations.JumpsGoToTheirTargets :=
  ⟨rowIs_of_place 2 rfl, rowIs_of_place 20 rfl,
    fun nnn s => ⟨_, exec_jp nnn s, toNat_setPc_immAddr s nnn, keepsAllBut_setPc s _⟩,
    fun nnn s => ⟨_, exec_jpV0 nnn s, toNat_setPc_immAddr_add s nnn, keepsAllBut_setPc s _⟩⟩

/-- A jump to where pc stands writes back what pc holds (R91). -/
theorem setPc_immAddr_of_eq_pc {s : State} {nnn : Addr} (h : nnn.toNat = s.pc.toNat) :
    s.setPc (immAddr nnn) = s := by
  have hpc : immAddr nnn = s.pc := BitVec.eq_of_toNat_eq ((toNat_immAddr nnn).trans h)
  rw [State.setPc, mask12_immAddr, hpc]

/-- Settles O14: the step is the jump, and it writes back what pc holds. -/
theorem jumpToSelfStays : Obligations.JumpToSelfStays := by
  intro s nnn hf ha hrun hdec htarget
  rw [step_of_idle hf ha, cpuStep_of_decode hrun hdec, exec_jp, setPc_immAddr_of_eq_pc htarget]

/-! ### Calls (R88, R134) -/

/-- The state 2nnn leaves where there is an entry for next (R88). -/
def State.called (s : State) (nnn : Addr) (h : s.sp.toNat < 16) : State :=
  { s with stack := s.stack.set s.sp.toNat s.nextPc, sp := s.sp + 1 }.setPc (immAddr nnn)

theorem exec_call_of_lt (nnn : Addr) {s : State} (h : s.sp.toNat < 16) :
    exec (.call nnn) s = .next (s.called nnn h) := by
  refine execCall_of_entry (fun hsp => ?_) h nnn
  rw [hsp] at h
  exact Nat.lt_irrefl 16 h

theorem toNat_called_sp {s : State} (nnn : Addr) (h : s.sp.toNat < 16) :
    (s.called nnn h).sp.toNat = s.sp.toNat + 1 :=
  BitVec.toNat_add_of_lt (show s.sp.toNat + 1 < 256 by omega)

/-- The entry at the old SP holds next, the others are as they were (R23, R88). -/
theorem getElem_called_stack {s : State} (nnn : Addr) (h : s.sp.toNat < 16) {j : Nat} (hj : j < 16) :
    (s.called nnn h).stack[j] = if s.sp.toNat = j then s.nextPc else s.stack[j] :=
  Vector.getElem_set h hj

theorem getElem_called_stack_of_ne {s : State} (nnn : Addr) (h : s.sp.toNat < 16) {j : Fin 16}
    (hj : j.val ≠ s.sp.toNat) : (s.called nnn h).stack[j] = s.stack[j] :=
  (getElem_called_stack nnn h j.isLt).trans (if_neg hj.symm)

theorem keepsAllBut_called {s : State} (nnn : Addr) (h : s.sp.toNat < 16) :
    KeepsAllBut [.sp, .pc, .stack] s (s.called nnn h) :=
  ((keepsAllBut_setStack s _ _).trans (keepsAllBut_setPc _ _)).mono (by simp)

/-- Settles O11: below 16 a call is a push of next and a jump, and at 16 it raises. -/
theorem callPushesNextAndJumps : Obligations.CallPushesNextAndJumps := by
  refine ⟨rowIs_of_place 3 rfl, fun nnn s h => ?_, fun nnn s h => ?_⟩
  · refine ⟨_, exec_call_of_lt nnn h, toNat_called_sp nnn h, fun j hj => ?_,
      fun j => getElem_called_stack_of_ne nnn h, toNat_setPc_immAddr _ nnn, (keepsAllBut_called nnn h).mono (by simp)⟩
    have hentry : (s.called nnn h).stack[j] = s.nextPc := (getElem_called_stack nnn h j.isLt).trans (if_pos hj.symm)
    rw [hentry, toNat_nextPc]
  · exact ⟨_, execCall_of_full h nnn, faultedWith_raise s _ _⟩

/-! ### Returns (R86, R135) -/

/-- The state 00EE leaves where there is an entry to pop (R86). -/
def State.returned (s : State) (h : s.sp.toNat - 1 < 16) : State :=
  { s with sp := s.sp - 1 }.setPc s.stack[s.sp.toNat - 1]

theorem exec_ret_of_pos {s : State} (hpos : 0 < s.sp.toNat) (h : s.sp.toNat - 1 < 16) :
    exec .ret s = .next (s.returned h) := by
  refine execRet_of_entry (fun hsp => ?_) h
  rw [hsp] at hpos
  exact Nat.lt_irrefl 0 hpos

theorem toNat_returned_sp {s : State} (hpos : 0 < s.sp.toNat) (h : s.sp.toNat - 1 < 16) :
    (s.returned h).sp.toNat = s.sp.toNat - 1 :=
  BitVec.toNat_sub_of_le (show 1 ≤ s.sp.toNat from hpos)

theorem toNat_returned_pc {s : State} (h : s.sp.toNat - 1 < 16) :
    (s.returned h).pc.toNat = s.stack[s.sp.toNat - 1].toNat % 4096 :=
  toNat_mask12 _

theorem keepsAllBut_returned {s : State} (h : s.sp.toNat - 1 < 16) : KeepsAllBut [.sp, .pc] s (s.returned h) :=
  (keepsAllBut_setSp s _).trans (keepsAllBut_setPc _ _)

/-- Settles O12: from 1 to 16 a return is a pop into pc, and at 0 it raises. -/
theorem returnPopsOrUnderflows : Obligations.ReturnPopsOrUnderflows := by
  refine ⟨rowIs_of_place 1 rfl, fun s hpos hle => ?_, fun s h => ⟨_, execRet_of_empty h, faultedWith_raise s _ _⟩⟩
  have h : s.sp.toNat - 1 < 16 := by omega
  refine ⟨_, exec_ret_of_pos hpos h, toNat_returned_sp hpos h, fun j hj => ?_,
    (keepsAllBut_returned h).mono (by simp)⟩
  have hidx : s.sp.toNat - 1 = j.val := by omega
  simp [toNat_returned_pc, hidx]

/-! ### A return after a call (R86, R88) -/

/-- The entry a return pops after a call is the one the call pushed. -/
theorem toNat_returned_pc_of_called {s : State} (nnn : Addr) (h : s.sp.toNat < 16)
    (h' : (s.called nnn h).sp.toNat - 1 < 16) :
    ((s.called nnn h).returned h').pc.toNat = (s.pc.toNat + 2) % 4096 := by
  have htop : s.sp.toNat = (s.called nnn h).sp.toNat - 1 := by rw [toNat_called_sp, Nat.add_sub_cancel]
  rw [toNat_returned_pc, getElem_called_stack, if_pos htop, toNat_nextPc, Nat.mod_mod]

theorem returned_called_sp {s : State} (nnn : Addr) (h : s.sp.toNat < 16)
    (h' : (s.called nnn h).sp.toNat - 1 < 16) : ((s.called nnn h).returned h').sp = s.sp :=
  BitVec.add_sub_cancel s.sp 1

/-- Settles O13: the return pops the entry the call pushed and brings SP back; that entry alone keeps its new value. -/
theorem returnUndoesCall : Obligations.ReturnUndoesCall := by
  intro nnn s h
  have hsp := toNat_called_sp nnn h
  have h' : (s.called nnn h).sp.toNat - 1 < 16 := by omega
  have hframe : KeepsAllBut [.sp, .pc, .stack] s ((s.called nnn h).returned h') :=
    ((keepsAllBut_called nnn h).trans (keepsAllBut_returned h')).mono (by simp)
  exact ⟨_, _, exec_call_of_lt nnn h, exec_ret_of_pos (by omega) h', toNat_returned_pc_of_called nnn h h',
    fun j => getElem_called_stack_of_ne nnn h, hframe.of_same (returned_called_sp nnn h h')⟩

end Sys2Proof.Machine

/-! PROOFS. The conditional skips: 3xkk, 4xkk, 5xy0, 9xy0, Ex9E, ExA1, and the error of a key index that names no key
(R95 to R102, R136). -/

namespace Sys2Proof.Machine

/-! ### What a skip does, by the condition it stands for (R95) -/

theorem skipIf_of_iff {c : Bool} {P : Prop} [Decidable P] (h : c = true ↔ P) (s : State) :
    AdvancesBy (if P then 4 else 2) s (s.skipIf c) ∧ KeepsAllBut [.pc] s (s.skipIf c) := by
  refine ⟨(toNat_skipIf_pc s c).trans ?_, keepsAllBut_skipIf s c⟩
  rw [if_congr h rfl rfl]

theorem skipIf_of_iff_not {c : Bool} {P : Prop} [Decidable P] (h : c = true ↔ ¬P) (s : State) :
    AdvancesBy (if P then 2 else 4) s (s.skipIf c) ∧ KeepsAllBut [.pc] s (s.skipIf c) := by
  rw [← ite_not]
  exact skipIf_of_iff h s

theorem byte_beq_iff_toNat_eq {a b : Byte} : (a == b) = true ↔ a.toNat = b.toNat :=
  beq_iff_eq.trans BitVec.toNat_inj.symm

theorem byte_bne_iff_toNat_ne {a b : Byte} : (a != b) = true ↔ ¬a.toNat = b.toNat :=
  bne_iff_ne.trans (not_congr BitVec.toNat_inj.symm)

/-! ### Skips on a comparison (R96 to R99) -/

theorem exec_seKk (x : Reg) (kk : Byte) (s : State) :
    exec (.seKk x kk) s = .next (s.skipIf (s.v[x] == kk)) := rfl

theorem exec_sneKk (x : Reg) (kk : Byte) (s : State) :
    exec (.sneKk x kk) s = .next (s.skipIf (s.v[x] != kk)) := rfl

theorem exec_seVy (x y : Reg) (s : State) :
    exec (.seVy x y) s = .next (s.skipIf (s.v[x] == s.v[y])) := rfl

theorem exec_sneVy (x y : Reg) (s : State) :
    exec (.sneVy x y) s = .next (s.skipIf (s.v[x] != s.v[y])) := rfl

/-- Settles O15: each form is a skip on a comparison of bytes, and bytes are equal exactly when their values are. -/
theorem skipsComparingAByte : Obligations.SkipsComparingAByte :=
  ⟨rowIs_of_place 4 rfl, rowIs_of_place 5 rfl,
    fun x kk s => ⟨_, exec_seKk x kk s, skipIf_of_iff byte_beq_iff_toNat_eq s⟩,
    fun x kk s => ⟨_, exec_sneKk x kk s, skipIf_of_iff_not byte_bne_iff_toNat_ne s⟩⟩

/-- A word 5xyN or 9xyN with N not 0 is invalid (R66). -/
theorem decode_registerSkip_of_n_ne_zero {w : Word} (hop : w.toNat / 4096 = 5 ∨ w.toNat / 4096 = 9)
    (hn : w.toNat % 16 ≠ 0) : decode w = .error (.invalidOpcode w) := by
  obtain ⟨e, he⟩ := (decode_error_iff w).mpr (.inr (.inl ⟨hop, hn⟩))
  rw [he, eq_invalidOpcode_of_decode_error he]

/-- Settles O16: the same skips with Vy for kk, and the words with N not 0 are among those R66 lists. -/
theorem skipsComparingRegisters : Obligations.SkipsComparingRegisters :=
  ⟨rowIs_of_place 6 rfl, rowIs_of_place 18 rfl, fun _ => decode_registerSkip_of_n_ne_zero,
    fun x y s => ⟨_, exec_seVy x y s, skipIf_of_iff byte_beq_iff_toNat_eq s⟩,
    fun x y s => ⟨_, exec_sneVy x y s, skipIf_of_iff_not byte_bne_iff_toNat_ne s⟩⟩

/-! ### Skips on a key (R100 to R102, R136) -/

theorem exec_skp (x : Reg) (s : State) :
    exec (.skp x) s = .next (s.skipOnKey (encode (.skp x)) x true) := rfl

theorem exec_sknp (x : Reg) (s : State) :
    exec (.sknp x) s = .next (s.skipOnKey (encode (.sknp x)) x false) := rfl

/-- Where Vx names key k, the skip is on that key's state. -/
theorem skipOnKey_of_key {s : State} {x : Reg} {k : Fin 16} (h : s.v[x].toNat = k.val) (w : Word) (p : Bool) :
    s.skipOnKey w x p = s.skipIf (s.keys[k] == p) := by
  have hlt : (s.getV x).toNat < 16 := h.trans_lt k.isLt
  obtain rfl : k = ⟨_, hlt⟩ := Fin.ext h.symm
  exact skipOnKey_of_lt hlt w p

/-- Settles O17: with Vx a key's index each form is a skip on that key's state. -/
theorem skipsOnAKey : Obligations.SkipsOnAKey := by
  refine ⟨rowIs_of_place 23 rfl, rowIs_of_place 24 rfl, fun x s k hk => ⟨_, exec_skp x s, ?_⟩,
    fun x s k hk => ⟨_, exec_sknp x s, ?_⟩⟩
  · rw [skipOnKey_of_key hk]
    exact skipIf_of_iff beq_iff_eq s
  · rw [skipOnKey_of_key hk]
    exact skipIf_of_iff_not (beq_iff_eq.trans Bool.eq_false_iff) s

/-- Where Vx names no key, the skip raises (R102, R131, R136). -/
theorem faultedWith_skipOnKey {s : State} {x : Reg} (h : 16 ≤ s.v[x].toNat) (w : Word) (p : Bool) :
    FaultedWith .undefinedKeyIndex w s (s.skipOnKey w x p) := by
  rw [skipOnKey_of_not_lt (Nat.not_lt.mpr h)]
  exact faultedWith_raise s _ w

/-- Settles O18: with Vx past the last key both forms raise. -/
theorem keyIndexAboveFifteenFaults : Obligations.KeyIndexAboveFifteenFaults :=
  fun x s h => ⟨⟨_, exec_skp x s, faultedWith_skipOnKey h _ _⟩, ⟨_, exec_sknp x s, faultedWith_skipOnKey h _ _⟩⟩

end Sys2Proof.Machine

/-! PROOFS. Register and arithmetic instructions: 6xkk, 7xkk, 8xy0 to 8xyE and Cxkk (R103 to R115). -/

namespace Sys2Proof.Machine

/-! ### A result in Vx with no flag (R104 to R106, R115) -/

theorem getElem_advance_setV (s : State) (x : Reg) (b : Byte) : (s.setV x b).advance.v[x] = b :=
  (getElem_setV s x b x).trans (if_pos rfl)

/-- The other registers, VF too, are kept. -/
theorem keepsRegsBut_advance_setV (s : State) (x : Reg) (b : Byte) : KeepsRegsBut [x] s (s.setV x b).advance :=
  fun j hj => (getElem_setV s x b j).trans (if_neg (List.ne_of_not_mem_cons hj).symm)

theorem frame_advance_setV (s : State) (x : Reg) (b : Byte) :
    KeepsRegsBut [x] s (s.setV x b).advance ∧ AdvancesBy 2 s (s.setV x b).advance ∧
      KeepsAllBut [.pc, .v] s (s.setV x b).advance :=
  ⟨keepsRegsBut_advance_setV s x b, toNat_advance_pc _, (keepsAllBut_setV s x b).advance⟩

theorem exec_ldKk (x : Reg) (kk : Byte) (s : State) : exec (.ldKk x kk) s = .next (s.setV x kk).advance := rfl

theorem exec_addKk (x : Reg) (kk : Byte) (s : State) :
    exec (.addKk x kk) s = .next (s.setV x (s.v[x] + kk)).advance := rfl

theorem exec_ldVy (x y : Reg) (s : State) : exec (.ldVy x y) s = .next (s.setV x s.v[y]).advance := rfl

/-- Settles O19: each is a write to Vx and the advance, and a byte's sum is the sum modulo 256. -/
theorem loadAndAddAByte : Obligations.LoadAndAddAByte := by
  refine ⟨rowIs_of_place 7 rfl, rowIs_of_place 8 rfl,
    fun x kk s => ⟨_, exec_ldKk x kk s, getElem_advance_setV s x kk, frame_advance_setV s x kk⟩,
    fun x kk s => ⟨_, exec_addKk x kk s, ?_, frame_advance_setV s x _⟩⟩
  rw [getElem_advance_setV, BitVec.toNat_add]

/-- Settles O20: a write of Vy to Vx and the advance. -/
theorem loadRegister : Obligations.LoadRegister :=
  ⟨rowIs_of_place 9 rfl,
    fun x y s => ⟨_, exec_ldVy x y s, getElem_advance_setV s x _, frame_advance_setV s x _⟩⟩

/-- The state Cxkk leaves: one draw more is counted, and Vx holds the draw masked (R30, R115). -/
theorem exec_rnd (x : Reg) (kk : Byte) (s : State) : exec (.rnd x kk) s =
    .next ({ s with rngDraws := s.rngDraws + 1 }.setV x (Config.randByte s.rngDraws &&& kk)).advance := rfl

/-- Settles O25: the count of draws is no register, so the registers are as after a load of the masked draw. -/
theorem randomIsOneMaskedDraw : Obligations.RandomIsOneMaskedDraw := by
  refine ⟨rowIs_of_place 21 rfl, fun x kk s => ⟨_, exec_rnd x kk s, fun b _ => ?_, rfl,
    keepsRegsBut_advance_setV { s with rngDraws := s.rngDraws + 1 } x _, toNat_advance_pc _,
    exec_keepsAllBut (exec_rnd x kk s)⟩⟩
  rw [getElem_advance_setV, BitVec.getLsbD_and, Bool.and_comm]

/-! ### A result in Vx and then a flag in VF (R17, R103) -/

theorem resultAndFlag_result {x : Reg} (hx : x ≠ 15) (s : State) (r f : Byte) :
    (s.setResultAndFlag x r f).advance.v[x] = r :=
  (getElem_setResultAndFlag s x r f x).trans ((if_neg hx).trans (if_pos rfl))

/-- VF holds the flag whatever x is: for x = F the result is lost. -/
theorem resultAndFlag_VF (s : State) (x : Reg) (r f : Byte) : (s.setResultAndFlag x r f).advance.v[15] = f :=
  (getElem_setResultAndFlag s x r f 15).trans (if_pos rfl)

/-- The registers but Vx and VF are kept, pc is at next, and nothing else changes. -/
theorem frame_resultAndFlag (s : State) (x : Reg) (r f : Byte) :
    KeepsRegsBut [x, 15] s (s.setResultAndFlag x r f).advance ∧
      AdvancesBy 2 s (s.setResultAndFlag x r f).advance ∧
      KeepsAllBut [.pc, .v] s (s.setResultAndFlag x r f).advance := by
  refine ⟨fun j hj => ?_, toNat_advance_pc _, (keepsAllBut_setResultAndFlag s x r f).advance⟩
  have hjx : x ≠ j := (List.ne_of_not_mem_cons hj).symm
  have hjF : j ≠ 15 := List.ne_of_not_mem_cons (List.not_mem_of_not_mem_cons hj)
  exact (getElem_setResultAndFlag s x r f j).trans ((if_neg hjF).trans (if_neg hjx))

/-! ### OR, AND and XOR (R107 to R109) -/

theorem exec_orVy (x y : Reg) (s : State) :
    exec (.orVy x y) s = .next (s.setResultAndFlag x (s.v[x] ||| s.v[y]) 0).advance := rfl

theorem exec_andVy (x y : Reg) (s : State) :
    exec (.andVy x y) s = .next (s.setResultAndFlag x (s.v[x] &&& s.v[y]) 0).advance := rfl

theorem exec_xorVy (x y : Reg) (s : State) :
    exec (.xorVy x y) s = .next (s.setResultAndFlag x (s.v[x] ^^^ s.v[y]) 0).advance := rfl

/-- Settles O21: each writes its bitwise result and then 0 as the flag. -/
theorem logicClearsVF : Obligations.LogicClearsVF := by
  refine ⟨rowIs_of_place 10 rfl, rowIs_of_place 11 rfl, rowIs_of_place 12 rfl,
    fun x y s => ⟨_, exec_orVy x y s, fun hx b _ => ?_, resultAndFlag_VF s x _ 0, frame_resultAndFlag s x _ 0⟩,
    fun x y s => ⟨_, exec_andVy x y s, fun hx b _ => ?_, resultAndFlag_VF s x _ 0, frame_resultAndFlag s x _ 0⟩,
    fun x y s => ⟨_, exec_xorVy x y s, fun hx b _ => ?_, resultAndFlag_VF s x _ 0, frame_resultAndFlag s x _ 0⟩⟩
  · rw [resultAndFlag_result hx, BitVec.getLsbD_or]
  · rw [resultAndFlag_result hx, BitVec.getLsbD_and]
  · rw [resultAndFlag_result hx, BitVec.getLsbD_xor]

/-! ### The flags as numbers (R110 to R114) -/

theorem toNat_flagByte (c : Bool) : (flagByte c).toNat = c.toNat := by
  cases c <;> rfl

theorem toNat_flagByte_decide (p : Prop) [Decidable p] : (flagByte (decide p)).toNat = if p then 1 else 0 := by
  by_cases hp : p <;> simp [toNat_flagByte, hp]

theorem toNat_carryFlag (a b : Byte) : (carryFlag a b).toNat = if a.toNat + b.toNat > 255 then 1 else 0 :=
  toNat_flagByte_decide _

theorem toNat_notBorrowFlag (a b : Byte) : (notBorrowFlag a b).toNat = if a.toNat ≥ b.toNat then 1 else 0 :=
  toNat_flagByte_decide _

theorem toNat_shiftedOutRight (b : Byte) : (shiftedOutRight b).toNat = b.toNat % 2 := by
  rw [shiftedOutRight, toNat_flagByte, BitVec.getLsbD, Nat.toNat_testBit, pow_zero, Nat.div_one]

/-- Bit 7 is the quotient by 128, which is below 2 (R114). -/
theorem toNat_shiftedOutLeft (b : Byte) : (shiftedOutLeft b).toNat = b.toNat / 128 := by
  rw [shiftedOutLeft, toNat_flagByte, BitVec.getLsbD, Nat.toNat_testBit]
  omega

/-! ### Sum, differences and shifts (R110 to R114) -/

/-- A byte's difference is the exact difference modulo 256 (R10, R116). -/
theorem toNat_byte_sub (a b : Byte) : ((a - b).toNat : Int) = ((a.toNat : Int) - b.toNat) % 256 := by
  rw [BitVec.toNat_sub]
  omega

theorem toNat_byte_shiftRight_one (b : Byte) : (b >>> 1).toNat = b.toNat / 2 := by
  rw [BitVec.toNat_ushiftRight, Nat.shiftRight_one]

theorem toNat_byte_shiftLeft_one (b : Byte) : (b <<< 1).toNat = 2 * b.toNat % 256 := by
  rw [BitVec.toNat_shiftLeft, Nat.shiftLeft_eq, pow_one, Nat.mul_comm]

theorem exec_addVy (x y : Reg) (s : State) : exec (.addVy x y) s =
    .next (s.setResultAndFlag x (s.v[x] + s.v[y]) (carryFlag s.v[x] s.v[y])).advance := rfl

theorem exec_subVy (x y : Reg) (s : State) : exec (.subVy x y) s =
    .next (s.setResultAndFlag x (s.v[x] - s.v[y]) (notBorrowFlag s.v[x] s.v[y])).advance := rfl

theorem exec_subnVy (x y : Reg) (s : State) : exec (.subnVy x y) s =
    .next (s.setResultAndFlag x (s.v[y] - s.v[x]) (notBorrowFlag s.v[y] s.v[x])).advance := rfl

theorem exec_shrVy (x y : Reg) (s : State) : exec (.shrVy x y) s =
    .next (s.setResultAndFlag x (s.v[y] >>> 1) (shiftedOutRight s.v[y])).advance := rfl

theorem exec_shlVy (x y : Reg) (s : State) : exec (.shlVy x y) s =
    .next (s.setResultAndFlag x (s.v[y] <<< 1) (shiftedOutLeft s.v[y])).advance := rfl

/-- Settles O22: the sum, then the carry of the old values. -/
theorem addSetsCarry : Obligations.AddSetsCarry := by
  refine ⟨rowIs_of_place 13 rfl,
    fun x y s => ⟨_, exec_addVy x y s, fun hx => ?_, ?_, frame_resultAndFlag s x _ _⟩⟩
  · rw [resultAndFlag_result hx, BitVec.toNat_add]
  · rw [resultAndFlag_VF, toNat_carryFlag]

/-- Settles O23: the difference, then NOT borrow of the old values; 8xy7 is 8xy5 with the operands exchanged. -/
theorem subtractSetsNotBorrow : Obligations.SubtractSetsNotBorrow := by
  refine ⟨rowIs_of_place 14 rfl, rowIs_of_place 16 rfl,
    fun x y s => ⟨_, exec_subVy x y s, fun hx => ?_, ?_, frame_resultAndFlag s x _ _⟩,
    fun x y s => ⟨_, exec_subnVy x y s, fun hx => ?_, ?_, frame_resultAndFlag s x _ _⟩⟩
  · rw [resultAndFlag_result hx, toNat_byte_sub]
  · rw [resultAndFlag_VF, toNat_notBorrowFlag]
  · rw [resultAndFlag_result hx, toNat_byte_sub]
  · rw [resultAndFlag_VF, toNat_notBorrowFlag]

/-- Settles O24: Vy shifted, then the bit of the old Vy that the shift drops. -/
theorem shiftsTakeVy : Obligations.ShiftsTakeVy := by
  refine ⟨rowIs_of_place 15 rfl, rowIs_of_place 17 rfl,
    fun x y s => ⟨_, exec_shrVy x y s, fun hx => ?_, ?_, frame_resultAndFlag s x _ _⟩,
    fun x y s => ⟨_, exec_shlVy x y s, fun hx => ?_, ?_, frame_resultAndFlag s x _ _⟩⟩
  · rw [resultAndFlag_result hx, toNat_byte_shiftRight_one]
  · rw [resultAndFlag_VF, toNat_shiftedOutRight]
  · rw [resultAndFlag_result hx, toNat_byte_shiftLeft_one]
  · rw [resultAndFlag_VF, toNat_shiftedOutLeft]

end Sys2Proof.Machine

/-! PROOFS. The index register and memory: Annn, Fx1E, Fx29, Fx33, Fx55 and Fx65, and the load that undoes a store
(R117 to R123). -/

namespace Sys2Proof.Machine

/-! ### What is written to I (R118 to R120, R122, R123) -/

/-- What Annn, Fx1E and Fx29 leave but for I's value: each is a write to I and the advance. -/
theorem frame_advance_setI (s : State) (a : Word) :
    AdvancesBy 2 s (s.setI a).advance ∧ KeepsAllBut [.pc, .i] s (s.setI a).advance :=
  ⟨toNat_advance_pc _, (keepsAllBut_setI s a).advance⟩

/-- I keeps 16 bits: its upper four are not masked (R19, R119). -/
theorem toNat_index_add_wideV (s : State) (x : Reg) :
    (s.i + s.wideV x).toNat = (s.i.toNat + s.v[x].toNat) % 65536 := by
  rw [BitVec.toNat_add, toNat_wideV]

/-- The low nibble is the remainder modulo 16, and the glyphs are five bytes each (R51, R120). -/
theorem toNat_glyphAddr (s : State) (x : Reg) : (s.glyphAddr x).toNat = 0x050 + 5 * (s.v[x].toNat % 16) := by
  have hnibble : (s.getV x &&& 0x0F).toNat = s.v[x].toNat % 16 := by
    rw [BitVec.toNat_and]
    exact Nat.and_two_pow_sub_one_eq_mod _ 4
  rw [State.glyphAddr, hnibble, BitVec.toNat_ofNat, Config.fontBase]
  omega

theorem toNat_indexAfter (s : State) (x : Reg) : (s.indexAfter x).toNat = (s.i.toNat + x.val + 1) % 65536 := by
  rw [State.indexAfter, BitVec.toNat_add, BitVec.toNat_ofNat]
  omega

theorem exec_ldI (nnn : Addr) (s : State) : exec (.ldI nnn) s = .next (s.setI (immAddr nnn)).advance := rfl

theorem exec_addIVx (x : Reg) (s : State) : exec (.addIVx x) s = .next (s.setI (s.i + s.wideV x)).advance := rfl

theorem exec_ldFVx (x : Reg) (s : State) : exec (.ldFVx x) s = .next (s.setI (s.glyphAddr x)).advance := rfl

/-- Settles O26: a write of nnn to I and the advance. -/
theorem loadIndex : Obligations.LoadIndex :=
  ⟨rowIs_of_place 19 rfl, fun nnn s => ⟨_, exec_ldI nnn s, toNat_immAddr nnn, frame_advance_setI s _⟩⟩

/-- Settles O27: a write to I and the advance, of the sum and of the glyph's address. -/
theorem indexArithmetic : Obligations.IndexArithmetic :=
  ⟨rowIs_of_place 29 rfl, rowIs_of_place 30 rfl,
    fun x s => ⟨_, exec_addIVx x s, toNat_index_add_wideV s x, frame_advance_setI s _⟩,
    fun x s => ⟨_, exec_ldFVx x s, toNat_glyphAddr s x, frame_advance_setI s _⟩⟩

/-! ### Bytes at an address formed from I (R50, R117) -/

/-- A read sees only the low twelve bits of its address (R50). -/
theorem readByte_eq_of_mod_eq (s : State) {a b : Word} (h : a.toNat % 4096 = b.toNat % 4096) :
    s.readByte a = s.readByte b := by
  unfold State.readByte
  rw [toNat_mask12, toNat_mask12, h]

/-- A read after a write through the I of a state `s`. -/
theorem readByte_writeByte_indexed {t : State} (ht : t.memWf = true) (s : State) (k : Nat) (b : Byte) (a : Word) :
    (t.writeByte (s.indexed k) b).readByte a =
      if a.toNat % 4096 = (s.i.toNat + k) % 4096 then b else t.readByte a := by
  rw [readByte_writeByte ht, toNat_indexed]
  simp only [eq_comm]

/-! ### The decimal digits (R121) -/

theorem toNat_hundredsDigit (b : Byte) : (hundredsDigit b).toNat = b.toNat / 100 := by
  rw [hundredsDigit, BitVec.toNat_ofNat]
  omega

theorem toNat_tensDigit (b : Byte) : (tensDigit b).toNat = b.toNat / 10 % 10 := by
  rw [tensDigit, BitVec.toNat_ofNat]
  omega

theorem toNat_onesDigit (b : Byte) : (onesDigit b).toNat = b.toNat % 10 := by
  rw [onesDigit, BitVec.toNat_ofNat]
  omega

/-- RAM once Fx33 has written the digits of a byte at I, I + 1 and I + 2 (R121). -/
def State.storeDigits (s : State) (b : Byte) : State :=
  ((s.writeByte (s.indexed 0) (hundredsDigit b)).writeByte (s.indexed 1) (tensDigit b)).writeByte
    (s.indexed 2) (onesDigit b)

theorem exec_ldBVx (x : Reg) (s : State) : exec (.ldBVx x) s = .next (s.storeDigits s.v[x]).advance := rfl

/-- Every byte after the digits are stored: the digit whose turn came there last, or the old byte. -/
theorem readByte_storeDigits {s : State} (h : s.memWf = true) (b : Byte) (a : Word) :
    (s.storeDigits b).readByte a =
      if a.toNat % 4096 = (s.i.toNat + 2) % 4096 then onesDigit b
      else if a.toNat % 4096 = (s.i.toNat + 1) % 4096 then tensDigit b
      else if a.toNat % 4096 = s.i.toNat % 4096 then hundredsDigit b
      else s.readByte a := by
  have h₁ := wf_writeByte h (s.indexed 0) (hundredsDigit b)
  have h₂ := wf_writeByte h₁ (s.indexed 1) (tensDigit b)
  rw [State.storeDigits, readByte_writeByte_indexed h₂, readByte_writeByte_indexed h₁, readByte_writeByte_indexed h]
  rfl

/-- Settles O28: the three addresses are distinct modulo 4096, so no digit is written over by a later one. -/
theorem storeDecimalDigits : Obligations.StoreDecimalDigits := by
  refine ⟨rowIs_of_place 31 rfl, fun x s h => ⟨_, exec_ldBVx x s, fun a ha => ?_, fun a ha => ?_, fun a ha => ?_,
    fun a ha => ?_, toNat_advance_pc _, exec_keepsAllBut (exec_ldBVx x s)⟩⟩
  all_goals rw [readByte_congr (State.advance_mem _) (State.advance_font _), readByte_storeDigits h]
  · rw [if_neg (by omega), if_neg (by omega), if_pos ha, toNat_hundredsDigit]
  · rw [if_neg (by omega), if_pos ha, toNat_tensDigit]
  · rw [if_pos ha, toNat_onesDigit]
  · rw [if_neg (ha 2 (by decide)), if_neg (ha 1 (by decide))]
    exact if_neg (ha 0 (by decide))

/-! ### Fx55 (R122) -/

/-- The advance of the instruction cycle after operations that leave pc where the instruction is (R21). -/
theorem advancesBy_advance {s t : State} (h : t.pc = s.pc) : AdvancesBy 2 s t.advance := by
  rw [AdvancesBy, toNat_advance_pc, h]

/-- The state Fx55 leaves: V0 to Vx stored at I, and I past them (R122). -/
def State.registersStored (s : State) (x : Reg) : State :=
  ((s.storeRegs (x.val + 1)).setI (s.indexAfter x)).advance

theorem exec_ldMemVx (x : Reg) (s : State) : exec (.ldMemVx x) s = .next (s.registersStored x) := rfl

theorem registersStored_v (s : State) (x : Reg) : (s.registersStored x).v = s.v := State.storeRegs_v s _

theorem readByte_registersStored {s : State} {x k : Reg} {a : Word} (h : s.memWf = true) (hk : k.val ≤ x.val)
    (ha : a.toNat % 4096 = (s.i.toNat + k.val) % 4096) : (s.registersStored x).readByte a = s.v[k] :=
  (readByte_storeRegs h (x.val + 1) x.isLt a).1 k.val (Nat.lt_succ_of_le hk) ha

theorem readByte_registersStored_of_ne {s : State} {x : Reg} {a : Word} (h : s.memWf = true)
    (ha : ∀ k : Reg, k.val ≤ x.val → a.toNat % 4096 ≠ (s.i.toNat + k.val) % 4096) :
    (s.registersStored x).readByte a = s.readByte a :=
  (readByte_storeRegs h (x.val + 1) x.isLt a).2 fun j hj => ha ⟨j, by omega⟩ (Nat.le_of_lt_succ hj)

/-- Settles O29: the bytes are those the stores leave in their order (`readByte_storeRegs`), and the rest is the frame
of Fx55. -/
theorem storeRegistersAtIndex : Obligations.StoreRegistersAtIndex :=
  ⟨rowIs_of_place 32 rfl, fun x s h => ⟨_, exec_ldMemVx x s, fun _ _ => readByte_registersStored h,
    fun _ => readByte_registersStored_of_ne h, rfl, toNat_indexAfter s x,
    advancesBy_advance (State.storeRegs_pc s _), exec_keepsAllBut (exec_ldMemVx x s)⟩⟩

/-! ### Fx65, and its return trip from Fx55 (R123) -/

/-- The state Fx65 leaves: V0 to Vx loaded from I on, and I past them (R123). -/
def State.registersLoaded (s : State) (x : Reg) : State :=
  ((s.loadRegs (x.val + 1)).setI (s.indexAfter x)).advance

theorem exec_ldVxMem (x : Reg) (s : State) : exec (.ldVxMem x) s = .next (s.registersLoaded x) := rfl

theorem getElem_registersLoaded {s : State} {x k : Reg} {a : Word} (hk : k.val ≤ x.val)
    (ha : a.toNat % 4096 = (s.i.toNat + k.val) % 4096) : (s.registersLoaded x).v[k] = s.readByte a :=
  calc (s.registersLoaded x).v[k]
    _ = s.readByte (s.indexed k.val) :=
      (getElem_loadRegs s (x.val + 1) x.isLt k).trans (if_pos (Nat.lt_succ_of_le hk))
    _ = s.readByte a := readByte_eq_of_mod_eq s ((toNat_indexed s k.val).trans ha.symm)

theorem getElem_registersLoaded_of_lt {s : State} {x k : Reg} (hk : x.val < k.val) :
    (s.registersLoaded x).v[k] = s.v[k] :=
  (getElem_loadRegs s (x.val + 1) x.isLt k).trans (if_neg (by omega))

/-- Loading from where V0 to Vx were stored gives each of them its old byte; the others were never written. -/
theorem registersLoaded_v_of_stored {s : State} {x : Reg} {nnn : Addr} (h : s.memWf = true)
    (hi : s.i.toNat % 4096 = nnn.toNat) :
    (((s.registersStored x).setI (immAddr nnn)).advance.registersLoaded x).v = s.v := by
  ext1 k hk16
  change _ = s.v[(⟨k, hk16⟩ : Reg)]
  by_cases hk : k ≤ x.val
  · have hback : (s.indexed k).toNat % 4096 = ((immAddr nnn).toNat + k) % 4096 := by
      rw [toNat_indexed, toNat_immAddr]
      omega
    exact (getElem_registersLoaded (k := ⟨k, hk16⟩) hk hback).trans
      (readByte_registersStored (k := ⟨k, hk16⟩) h hk (toNat_indexed s k))
  · refine (getElem_registersLoaded_of_lt (k := ⟨k, hk16⟩) (Nat.lt_of_not_le hk)).trans ?_
    exact congrArg (fun v : Vector Byte 16 => v[k]) (registersStored_v s x)

/-- Settles O30: the registers are those the loads leave (`getElem_loadRegs`), the rest is the frame of Fx65, and the
return trip reads back what was stored. -/
theorem loadRegistersFromIndex : Obligations.LoadRegistersFromIndex :=
  ⟨rowIs_of_place 33 rfl,
    fun x s => ⟨_, exec_ldVxMem x s, fun _ _ => getElem_registersLoaded, fun _ => getElem_registersLoaded_of_lt,
      toNat_indexAfter s x, advancesBy_advance (State.loadRegs_pc s _), exec_keepsAllBut (exec_ldVxMem x s)⟩,
    fun x nnn s h hi => ⟨_, _, _, exec_ldMemVx x s, exec_ldI nnn _, exec_ldVxMem x _,
      registersLoaded_v_of_stored h hi⟩⟩

end Sys2Proof.Machine

/-! PROOFS. The timer and key-wait instructions Fx07, Fx0A, Fx15 and Fx18, and what changes DT over a step of the machine
(R124 to R128, R152). -/

namespace Sys2Proof.Machine

/-! ### Fx07 and the writers of DT (R124) -/

theorem exec_ldVxDt (x : Reg) (s : State) : exec (.ldVxDt x) s = .next (s.setV x s.dt).advance := rfl

/-- The core is about to run an Fx15: one is at pc and the core has not halted (R126). -/
def AtDelayWrite (s : State) : Prop := s.halted = false ∧ ∃ x, decode s.fetchWord = .ok (.ldDtVx x)

theorem eq_ldDtVx_of_dt_mem {i : Instr} (h : Part.dt ∈ mayWrite i) : ∃ x, i = .ldDtVx x := by
  cases i with
  | ldDtVx x => exact ⟨x, rfl⟩
  | _ => simp [mayWrite] at h

theorem exec_dt_ne {i : Instr} {s t : State} (h : exec i s = .next t) (hne : t.dt ≠ s.dt) : ∃ x, i = .ldDtVx x := by
  refine eq_ldDtVx_of_dt_mem ?_
  by_contra hdt
  exact hne (exec_keepsAllBut h .dt hdt)

theorem cpuStep_dt_ne {s t : State} (h : cpuStep s = .next t) (hne : t.dt ≠ s.dt) : AtDelayWrite s := by
  rcases cpuStep_next h with ⟨_, rfl⟩ | ⟨hrun, i, hi, he⟩ | ⟨_, _, rfl⟩
  · exact absurd rfl hne
  · obtain ⟨x, rfl⟩ := exec_dt_ne he hne
    exact ⟨hrun, x, hi⟩
  · exact absurd (State.raise_dt s _ _) hne

/-- A round of a frame that changes DT runs an Fx15, or else it ended the frame, with the tick (R150). -/
theorem frameMove_dt_ne {k : Nat} {s t : State} (h : frameMove k s = .next t) (hne : t.dt ≠ s.dt) :
    AtDelayWrite s ∨ t.frame = .idle := by
  rcases frameMove_next h with ⟨_, _, rfl⟩ | ⟨_, _, u, hu, rfl⟩ | ⟨_, rfl⟩
  · exact .inr (State.endFrame_frame _)
  · exact .inl (cpuStep_dt_ne (s := s.countDeadline) hu hne)
  · exact .inr (State.endFrame_frame s)

theorem hostMove_dt_ne {op : HostOp} {s t : State} (h : hostMove op s = .next t) (hne : t.dt ≠ s.dt) :
    AtDelayWrite s ∨ ∃ bytes, op = .loadRom bytes := by
  rcases hostMove_next h with ⟨bytes, hop, _, _⟩ | ⟨bytes, hop, _, _⟩ | ⟨_, _, _, _, rfl⟩ | ⟨_, _, rfl⟩ |
    ⟨_, _, rfl⟩ | ⟨_, hstep⟩ | ⟨_, rfl⟩
  · exact .inr ⟨bytes, hop⟩
  · exact .inr ⟨bytes, hop⟩
  · exact absurd (State.setKeys_dt s _) hne
  · exact absurd (State.setKeys_dt s _) hne
  · exact absurd (State.setFrame_dt s _) hne
  · exact .inl (cpuStep_dt_ne hstep hne)
  · exact absurd rfl hne

/-- One agent's move at a time: the core writes DT at an Fx15 only, a frame through the core or at its end, and the host
through the core or by `load_rom`. -/
theorem step_dt_ne {s t : State} (h : step s = .next t) (hne : t.dt ≠ s.dt) :
    AtDelayWrite s ∨ (s.frame ≠ .idle ∧ t.frame = .idle) ∨
      (s.frame = .idle ∧ ∃ bytes rest, s.agenda = .loadRom bytes :: rest) := by
  rcases step_next h with ⟨k, hk, he⟩ | ⟨hend, rfl⟩ | ⟨hidle, op, rest, ha, he⟩ | ⟨_, _, he⟩
  · exact (frameMove_dt_ne he hne).imp_right fun hidle => .inl ⟨by simp [hk], hidle⟩
  · exact .inr (.inl ⟨by simp [hend], State.endFrame_frame s⟩)
  · rcases hostMove_dt_ne (s := s.setAgenda rest) he hne with hwrite | ⟨bytes, rfl⟩
    · exact .inl hwrite
    · exact .inr (.inr ⟨hidle, bytes, rest, ha⟩)
  · exact .inl (cpuStep_dt_ne he hne)

/-- Settles O32: Fx07 is a write of DT to Vx and the advance, and DT's writers are those of `step_dt_ne`. -/
theorem readDelayTimer : Obligations.ReadDelayTimer :=
  ⟨rowIs_of_place 25 rfl,
    fun x s => ⟨_, exec_ldVxDt x s, getElem_advance_setV s x s.dt, frame_advance_setV s x s.dt⟩,
    fun _ _ => step_dt_ne⟩

/-! ### Fx15 and Fx18 (R126, R127, R152) -/

theorem exec_ldDtVx (x : Reg) (s : State) : exec (.ldDtVx x) s = .next { s with dt := s.v[x] }.advance := rfl

theorem exec_ldStVx (x : Reg) (s : State) : exec (.ldStVx x) s = .next (s.setSt s.v[x]).advance := rfl

/-- A value leaves the sound level as it is when it is zero just where ST is (R25). -/
theorem soundOn_eq_iff {s : State} {b : Byte} : s.soundOn = (b != 0) ↔ (s.st = 0 ↔ b = 0) := by
  rw [State.soundOn, Bool.eq_iff_iff, bne_iff_ne, bne_iff_ne, not_iff_not]

theorem outputs_setSt_of_level_kept {s : State} {b : Byte} (h : s.st = 0 ↔ b = 0) :
    (s.setSt b).outputs = s.outputs :=
  (State.setSt_outputs s b).trans (if_pos (soundOn_eq_iff.mpr h))

theorem outputs_setSt_of_level_changed {s : State} {b : Byte} (h : ¬(s.st = 0 ↔ b = 0)) :
    (s.setSt b).outputs = .beep (b != 0) :: s.outputs :=
  (State.setSt_outputs s b).trans (if_neg (mt soundOn_eq_iff.mp h))

/-- Settles O33: each is a write to its timer and the advance; the four cases of Fx18 are the old level against the new. -/
theorem writeTimers : Obligations.WriteTimers := by
  refine ⟨rowIs_of_place 27 rfl, rowIs_of_place 28 rfl,
    fun x s => ⟨_, exec_ldDtVx x s, rfl, toNat_advance_pc _, exec_keepsAllBut (exec_ldDtVx x s)⟩,
    fun x s => ⟨_, exec_ldStVx x s, State.setSt_st s _, fun hst hv => ?_, fun hst hv => ?_, fun hst hv => ?_,
      fun hst hv => ?_, advancesBy_advance (State.setSt_pc s _), exec_keepsAllBut (exec_ldStVx x s)⟩⟩
  all_goals rw [State.advance_outputs]
  · exact outputs_setSt_of_level_kept (iff_of_true hst hv)
  · exact outputs_setSt_of_level_kept (iff_of_false hst hv)
  · rw [outputs_setSt_of_level_changed (fun h => hv (h.mp hst)), bne_iff_ne.mpr hv]
  · rw [outputs_setSt_of_level_changed (fun h => hst (h.mpr hv)), hv]
    rfl

/-! ### Fx0A (R125, R128) -/

/-- The state Fx0A leaves when it ends its wait with key k (R125). -/
def State.waitEnded (s : State) (x k : Reg) : State :=
  ({ s with waitingForKey := false }.setV x (BitVec.ofNat 8 k.val)).advance

/-- The first evaluation, and one that sees no release, wait on. -/
theorem exec_ldVxK_of_no_release {s : State} (x : Reg)
    (h : s.waitingForKey = false ∨ ∀ k : Reg, ¬(s.keyPrev[k] = true ∧ s.keys[k] = false)) :
    exec (.ldVxK x) s = .next s.awaitKey := by
  rcases execLdVxK_cases x s with ⟨_, he⟩ | ⟨k, hw, hk, _⟩
  · exact he
  · obtain ⟨hprev, hup, _⟩ := lowestReleased_eq_some hk
    rcases h with hfirst | hnone
    · exact absurd (hfirst.symm.trans hw) Bool.false_ne_true
    · exact absurd ⟨hprev, hup⟩ (hnone k)

/-- A key that was released, with no lower one released, is the lowest: of two such keys neither is below the other. -/
theorem lowestReleased_of_least {s : State} {k : Reg} (hprev : s.keyPrev[k] = true) (hup : s.keys[k] = false)
    (hleast : ∀ j : Reg, j.val < k.val → ¬(s.keyPrev[j] = true ∧ s.keys[j] = false)) :
    s.lowestReleased = some k := by
  cases hl : s.lowestReleased with
  | none => exact absurd ⟨hprev, hup⟩ (lowestReleased_eq_none.mp hl k)
  | some j =>
    obtain ⟨hjprev, hjup, hjleast⟩ := lowestReleased_eq_some hl
    have hkj : k.val ≤ j.val := Nat.le_of_not_lt fun hlt => hleast j hlt ⟨hjprev, hjup⟩
    have hjk : j.val ≤ k.val := Nat.le_of_not_lt fun hlt => hjleast k hlt ⟨hprev, hup⟩
    rw [Fin.ext (Nat.le_antisymm hjk hkj)]

theorem exec_ldVxK_of_release {s : State} {k : Reg} (x : Reg) (hw : s.waitingForKey = true)
    (hk : s.lowestReleased = some k) : exec (.ldVxK x) s = .next (s.waitEnded x k) := by
  change execLdVxK x s = _
  rw [execLdVxK, if_pos hw, hk]
  rfl

/-- A key's index, 0 to 15, fits in a byte (R28). -/
theorem toNat_waitEnded_v (s : State) (x k : Reg) : (s.waitEnded x k).v[x].toNat = k.val := by
  rw [State.waitEnded, getElem_advance_setV, BitVec.toNat_ofNat]
  omega

theorem keepsAllBut_waitEnded (s : State) (x k : Reg) :
    KeepsAllBut [.pc, .v, .waitingForKey] s (s.waitEnded x k) :=
  ((keepsAllBut_setWaitingForKey s false).trans (keepsAllBut_setV _ x _)).advance.mono (by simp)

/-- Settles O34: without a release the evaluation is `awaitKey`; with one, the key in the statement is the one the model
finds (`lowestReleased_of_least`). -/
theorem keyWaitEndsOnTheLowestRelease : Obligations.KeyWaitEndsOnTheLowestRelease :=
  ⟨rowIs_of_place 26 rfl,
    fun x s h => ⟨_, exec_ldVxK_of_no_release x h, rfl, rfl, toNat_mask12 s.pc, keepsAllBut_awaitKey s⟩,
    fun x k s hw hprev hup hleast =>
      ⟨_, exec_ldVxK_of_release x hw (lowestReleased_of_least hprev hup hleast), toNat_waitEnded_v s x k,
        keepsRegsBut_advance_setV { s with waitingForKey := false } x _, rfl, toNat_advance_pc _,
        keepsAllBut_waitEnded s x k⟩⟩

end Sys2Proof.Machine

/-! PROOFS. Which instructions answer a next state, which ones raise an error, and which steps stop (R132, R138, R144,
R147). -/

namespace Sys2Proof.Machine

/-! ### Every instruction runs (R144) -/

theorem execRet_runs {s : State} (hsp : s.sp.toNat ≤ 16) : ∃ t, execRet s = .next t := by
  by_cases h : s.sp = 0
  · exact ⟨_, execRet_of_empty h⟩
  · exact ⟨_, execRet_of_entry h (by omega)⟩

theorem execCall_runs {s : State} (hsp : s.sp.toNat ≤ 16) (nnn : Addr) : ∃ t, execCall nnn s = .next t := by
  by_cases h : s.sp = 16
  · exact ⟨_, execCall_of_full h nnn⟩
  · exact ⟨_, execCall_of_entry h (by bv_omega) nnn⟩

theorem execLdVxK_runs (x : Reg) (s : State) : ∃ t, execLdVxK x s = .next t := by
  rcases execLdVxK_cases x s with ⟨_, h⟩ | ⟨_, _, _, h⟩
  · exact ⟨_, h⟩
  · exact ⟨_, h⟩

/-- Only 2nnn and 00EE can stop, and only where SP names no entry; every other instruction answers outright. -/
theorem exec_runs {s : State} (hsp : s.sp.toNat ≤ 16) (i : Instr) : ∃ t, exec i s = .next t := by
  cases i with
  | ret => exact execRet_runs hsp
  | call nnn => exact execCall_runs hsp nnn
  | ldVxK x => exact execLdVxK_runs x s
  | _ => exact ⟨_, rfl⟩

/-- Settles O45, by the bound on SP where a stack entry is named. -/
theorem everyInstructionRuns : Obligations.EveryInstructionRuns :=
  fun i _ hsp => exec_runs hsp i

/-! ### Which steps stop (R131, R147) -/

theorem cpuStep_runs {s : State} (hsp : s.sp.toNat ≤ 16) : ∃ t, cpuStep s = .next t := by
  cases hh : s.halted with
  | true => exact ⟨s, cpuStep_of_halted hh⟩
  | false =>
    cases hd : decode s.fetchWord with
    | ok i =>
      rw [cpuStep_of_decode hh hd]
      exact exec_runs hsp i
    | error e => exact ⟨_, cpuStep_of_invalid hh hd⟩

theorem frameMove_runs {s : State} (hsp : s.sp.toNat ≤ 16) (k : Nat) : ∃ t, frameMove k s = .next t := by
  by_cases hk : k < Config.cyclesPerFrame
  · cases hd : Config.deadline s.deadlineDraws with
    | true => exact ⟨_, frameMove_of_deadline hk hd⟩
    | false =>
      obtain ⟨t, ht⟩ := cpuStep_runs (s := s.countDeadline) hsp
      rw [frameMove_of_round hk hd, ht]
      exact ⟨_, rfl⟩
  · exact ⟨_, frameMove_of_over hk⟩

theorem hostMove_keyEvent {idx : Nat} (h : idx < 16) (p : Bool) (s : State) :
    hostMove (.keyEvent idx p) s = .next (s.setKeys (s.keys.set idx p)) :=
  dif_pos h

theorem hostMove_keyEvent_of_no_key {idx : Nat} (h : 16 ≤ idx) (p : Bool) (s : State) :
    hostMove (.keyEvent idx p) s = .refused .keyIndexInvalid :=
  dif_neg (Nat.not_lt.mpr h)

/-- The one host move that is refused is a key event with no key (R147). -/
theorem hostMove_runs_or_no_key {s : State} (hsp : s.sp.toNat ≤ 16) (op : HostOp) :
    (∃ t, hostMove op s = .next t) ∨ (∃ idx p, op = .keyEvent idx p ∧ 16 ≤ idx) := by
  cases op with
  | loadRom bytes => simp only [hostMove]; split <;> exact .inl ⟨_, rfl⟩
  | keyEvent idx p =>
    by_cases h : idx < 16
    · exact .inl ⟨_, hostMove_keyEvent h p s⟩
    · exact .inr ⟨idx, p, rfl, Nat.le_of_not_lt h⟩
  | runFrame => simp only [hostMove]; split <;> exact .inl ⟨_, rfl⟩
  | singleStep => exact .inl (cpuStep_runs hsp)
  | pollKeys | pause | selectBackend => exact .inl ⟨_, rfl⟩

/-- A step answers a next state, or its move is a key event with no key. -/
theorem step_runs_or_no_key {s : State} (hsp : s.sp.toNat ≤ 16) :
    (∃ t, step s = .next t) ∨
      (s.frame = .idle ∧ ∃ idx p rest, s.agenda = .keyEvent idx p :: rest ∧ 16 ≤ idx) := by
  cases hf : s.frame with
  | running k => rw [step_of_running hf]; exact .inl (frameMove_runs hsp k)
  | ending => exact .inl ⟨_, step_of_ending hf⟩
  | idle =>
    cases ha : s.agenda with
    | nil => rw [step_of_idle hf ha]; exact .inl (cpuStep_runs hsp)
    | cons op rest =>
      rw [step_of_agenda hf ha]
      rcases hostMove_runs_or_no_key (s := s.setAgenda rest) hsp op with h | ⟨idx, p, rfl, h⟩
      · exact .inl h
      · exact .inr ⟨rfl, idx, p, rest, rfl, h⟩

theorem step_of_no_key {s : State} {idx : Nat} {p : Bool} {rest : List HostOp} (hf : s.frame = .idle)
    (ha : s.agenda = .keyEvent idx p :: rest) (h : 16 ≤ idx) : step s = .refused .keyIndexInvalid :=
  (step_of_agenda hf ha).trans (hostMove_keyEvent_of_no_key h p _)

/-- Settles O44: of the invariant only the bound on SP is needed, and the move left over is the refused key event. -/
theorem invariantRulesOutStops : Obligations.InvariantRulesOutStops := by
  intro s hinv
  rcases step_runs_or_no_key hinv.spBound with ⟨t, ht⟩ | ⟨hf, idx, p, rest, ha, hidx⟩
  · exact ⟨by simp [ht], by simp [ht]⟩
  · have hrefused := step_of_no_key hf ha hidx
    refine ⟨by simp [hrefused], fun r hr => ⟨?_, hf, idx, p, rest, ha, hidx⟩⟩
    exact (Host.Outcome.refused.inj (hrefused.symm.trans hr)).symm

/-! ### Which instructions raise an error (R132, R138) -/

theorem fault_mem_mayWrite_of_ne {i : Instr} {s t : State} (h : exec i s = .next t) (hne : t.fault ≠ s.fault) :
    Part.fault ∈ mayWrite i := by
  by_contra hf
  exact hne (exec_keepsAllBut h .fault hf)

theorem execRet_fault_ne {s t : State} (h : execRet s = .next t) (hne : t.fault ≠ s.fault) :
    s.sp = 0 ∧ t.fault = some ⟨.stackUnderflow, encode .ret, s.pc⟩ := by
  rcases execRet_next h with ⟨hsp, rfl⟩ | ⟨_, _, rfl⟩
  · exact ⟨hsp, State.raise_fault s _ _⟩
  · exact absurd rfl hne

theorem execCall_fault_ne {nnn : Addr} {s t : State} (h : execCall nnn s = .next t) (hne : t.fault ≠ s.fault) :
    s.sp = 16 ∧ t.fault = some ⟨.stackOverflow, encode (.call nnn), s.pc⟩ := by
  rcases execCall_next h with ⟨hsp, rfl⟩ | ⟨_, _, rfl⟩
  · exact ⟨hsp, State.raise_fault s _ _⟩
  · exact absurd rfl hne

theorem skipOnKey_fault_ne {s : State} {w : Word} {x : Reg} {p : Bool} (hne : (s.skipOnKey w x p).fault ≠ s.fault) :
    16 ≤ s.v[x].toNat ∧ (s.skipOnKey w x p).fault = some ⟨.undefinedKeyIndex, w, s.pc⟩ := by
  rcases skipOnKey_cases s w x p with ⟨hx, h⟩ | ⟨k, _, h⟩ <;> rw [h] at hne ⊢
  · exact ⟨hx, State.raise_fault s _ _⟩
  · exact absurd (State.skipIf_fault s _) hne

/-- Settles O49: four forms may write the record, each only where it raises. -/
theorem faultsNameTheirInstruction : Obligations.FaultsNameTheirInstruction := by
  refine ⟨rfl, fun i s t h hne => ?_⟩
  have hf := fault_mem_mayWrite_of_ne h hne
  cases i with
  | call nnn => exact .inl ⟨nnn, rfl, execCall_fault_ne h hne⟩
  | ret => exact .inr (.inl ⟨rfl, execRet_fault_ne h hne⟩)
  | skp x =>
    obtain rfl := Host.Outcome.next.inj h
    exact .inr (.inr ⟨x, .inl rfl, skipOnKey_fault_ne hne⟩)
  | sknp x =>
    obtain rfl := Host.Outcome.next.inj h
    exact .inr (.inr ⟨x, .inr rfl, skipOnKey_fault_ne hne⟩)
  | _ => simp [mayWrite] at hf

end Sys2Proof.Machine

/-! PROOFS. The key matrix and the frame under way stand outside the core: an instruction that observes no key does the
same whatever they are (R143, R150). -/

namespace Sys2Proof.Machine

/-- Other keys, and another phase of the frame, on the same core. -/
def State.mapOutside (s : State) (g : Vector Bool 16 → Vector Bool 16) (f : FramePhase → FramePhase) : State :=
  { s with keys := g s.keys, frame := f s.frame }

theorem setKeys_eq_mapOutside (s : State) (m : Vector Bool 16) : s.setKeys m = s.mapOutside (fun _ => m) id := rfl

theorem setFrame_eq_mapOutside (s : State) (p : FramePhase) : s.setFrame p = s.mapOutside id (fun _ => p) := rfl

section Outside

variable (s : State) (g : Vector Bool 16 → Vector Bool 16) (f : FramePhase → FramePhase)

/-! ### Operations that observe neither -/

theorem skipIf_mapOutside (c : Bool) : (s.mapOutside g f).skipIf c = (s.skipIf c).mapOutside g f := by
  cases c <;> rfl

theorem setSt_mapOutside (b : Byte) : (s.mapOutside g f).setSt b = (s.setSt b).mapOutside g f := by
  have hon : (s.mapOutside g f).soundOn = s.soundOn := rfl
  unfold State.setSt
  rw [hon]
  split <;> rfl

theorem storeRegs_mapOutside (k : Nat) : (s.mapOutside g f).storeRegs k = (s.storeRegs k).mapOutside g f := by
  induction k with
  | zero => rfl
  | succ k ih =>
    unfold State.storeRegs
    rw [ih]
    rfl

theorem loadRegs_mapOutside (k : Nat) : (s.mapOutside g f).loadRegs k = (s.loadRegs k).mapOutside g f := by
  induction k with
  | zero => rfl
  | succ k ih =>
    unfold State.loadRegs
    rw [ih]
    rfl

theorem execRet_mapOutside : execRet (s.mapOutside g f) = mapNext (fun t => t.mapOutside g f) (execRet s) := by
  by_cases h : s.sp = 0
  · rw [execRet_of_empty h, execRet_of_empty (s := s.mapOutside g f) h]
    rfl
  · by_cases hb : s.sp.toNat - 1 < 16
    · rw [execRet_of_entry h hb, execRet_of_entry (s := s.mapOutside g f) h hb]
      rfl
    · rw [execRet_of_no_entry h hb, execRet_of_no_entry (s := s.mapOutside g f) h hb]
      rfl

theorem execCall_mapOutside (nnn : Addr) :
    execCall nnn (s.mapOutside g f) = mapNext (fun t => t.mapOutside g f) (execCall nnn s) := by
  by_cases h : s.sp = 16
  · rw [execCall_of_full h, execCall_of_full (s := s.mapOutside g f) h]
    rfl
  · by_cases hb : s.sp.toNat < 16
    · rw [execCall_of_entry h hb, execCall_of_entry (s := s.mapOutside g f) h hb]
      rfl
    · rw [execCall_of_no_entry h hb, execCall_of_no_entry (s := s.mapOutside g f) h hb]
      rfl

/-- An instruction other than Ex9E, ExA1 and Fx0A runs alike, and leaves both as it was given them. -/
theorem exec_mapOutside {i : Instr} (hi : ∀ x, i ≠ .skp x ∧ i ≠ .sknp x ∧ i ≠ .ldVxK x) :
    exec i (s.mapOutside g f) = mapNext (fun t => t.mapOutside g f) (exec i s) := by
  cases i with
  | skp x => exact absurd rfl (hi x).1
  | sknp x => exact absurd rfl (hi x).2.1
  | ldVxK x => exact absurd rfl (hi x).2.2
  | ret => exact execRet_mapOutside s g f
  | call nnn => exact execCall_mapOutside s g f nnn
  | seKk | sneKk | seVy | sneVy => exact congrArg Host.Outcome.next (skipIf_mapOutside s g f _)
  | ldStVx => exact congrArg (fun u : State => Host.Outcome.next u.advance) (setSt_mapOutside s g f _)
  | ldMemVx x =>
    exact congrArg (fun u : State => Host.Outcome.next (u.setI (s.indexAfter x)).advance)
      (storeRegs_mapOutside s g f (x.val + 1))
  | ldVxMem x =>
    exact congrArg (fun u : State => Host.Outcome.next (u.setI (s.indexAfter x)).advance)
      (loadRegs_mapOutside s g f (x.val + 1))
  | _ => rfl

theorem drawIfChanged_mapOutside : (s.mapOutside g f).drawIfChanged = s.drawIfChanged.mapOutside g f := by
  have hfb : (s.mapOutside g f).fbChanged = s.fbChanged := rfl
  unfold State.drawIfChanged
  rw [hfb]
  split <;> rfl

end Outside

/-- Settles O52, for other keys with the frame under way as it is. -/
theorem keysReachOnlyKeyInstructions : Obligations.KeysReachOnlyKeyInstructions := by
  intro i s m hi
  simp only [setKeys_eq_mapOutside]
  exact exec_mapOutside s (fun _ => m) id hi

/-! ### The frame under way alone (R150) -/

theorem skipOnKey_setFrame (s : State) (p : FramePhase) (w : Word) (x : Reg) (pressed : Bool) :
    (s.setFrame p).skipOnKey w x pressed = (s.skipOnKey w x pressed).setFrame p := by
  by_cases h : (s.getV x).toNat < 16
  · rw [skipOnKey_of_lt h, skipOnKey_of_lt (s := s.setFrame p) h]
    exact skipIf_mapOutside s id (fun _ => p) _
  · rw [skipOnKey_of_not_lt h, skipOnKey_of_not_lt (s := s.setFrame p) h]
    rfl

theorem execLdVxK_setFrame (s : State) (p : FramePhase) (x : Reg) :
    execLdVxK x (s.setFrame p) = mapNext (fun t => t.setFrame p) (execLdVxK x s) := by
  have hrel : (s.setFrame p).lowestReleased = s.lowestReleased := rfl
  unfold execLdVxK
  rw [hrel, State.setFrame_waitingForKey]
  cases s.waitingForKey with
  | false => rfl
  | true => cases s.lowestReleased <;> rfl

/-- No instruction observes the frame it runs in. -/
theorem exec_setFrame (i : Instr) (s : State) (p : FramePhase) :
    exec i (s.setFrame p) = mapNext (fun t => t.setFrame p) (exec i s) := by
  cases i with
  | skp | sknp => exact congrArg Host.Outcome.next (skipOnKey_setFrame s p _ _ _)
  | ldVxK x => exact execLdVxK_setFrame s p x
  | _ =>
    simp only [setFrame_eq_mapOutside]
    exact exec_mapOutside s id (fun _ => p) (by simp)

theorem cpuStep_setFrame (s : State) (p : FramePhase) :
    cpuStep (s.setFrame p) = mapNext (fun t => t.setFrame p) (cpuStep s) := by
  cases hh : s.halted with
  | true =>
    rw [cpuStep_of_halted hh, cpuStep_of_halted (s := s.setFrame p) hh]
    rfl
  | false =>
    cases hd : decode s.fetchWord with
    | ok i =>
      rw [cpuStep_of_decode hh hd, cpuStep_of_decode (s := s.setFrame p) hh hd]
      exact exec_setFrame i s p
    | error e =>
      rw [cpuStep_of_invalid hh hd, cpuStep_of_invalid (s := s.setFrame p) hh hd]
      rfl

/-- The end of a frame forgets where the frame stood. -/
theorem endFrame_setFrame (s : State) (p : FramePhase) : (s.setFrame p).endFrame = s.endFrame := by
  have htick : (s.setFrame p).tick = s.tick.setFrame p := setSt_mapOutside { s with dt := _ } id (fun _ => p) _
  have hdraw (u : State) : (u.setFrame p).drawIfChanged = u.drawIfChanged.setFrame p :=
    drawIfChanged_mapOutside u id (fun _ => p)
  unfold State.endFrame
  rw [State.setFrame_halted, htick]
  split <;> rw [hdraw] <;> rfl

end Sys2Proof.Machine

/-! PROOFS. The host's moves between frames: `key_event`, `poll_keys`, `pause`, `select_backend` and `step()`, and what
each agent leaves of a halted core (R131, R146 to R154). -/

namespace Sys2Proof.Machine

/-! ### What the host's operations leave unchanged -/

theorem keepsAllBut_setKeys (s : State) (m : Vector Bool 16) : KeepsAllBut [.keys] s (s.setKeys m) := by
  intro p hp
  cases p with
  | keys => simp at hp
  | mem => exact fun _ => rfl
  | _ => rfl

theorem keepsAllBut_setAgenda (s : State) (ops : List HostOp) : KeepsAllBut [.agenda] s (s.setAgenda ops) := by
  intro p hp
  cases p with
  | agenda => simp at hp
  | mem => exact fun _ => rfl
  | _ => rfl

theorem keepsAllBut_setFrame (s : State) (f : FramePhase) : KeepsAllBut [.frame] s (s.setFrame f) := by
  intro p hp
  cases p with
  | frame => simp at hp
  | mem => exact fun _ => rfl
  | _ => rfl

theorem keepsAllBut_countDeadline (s : State) : KeepsAllBut [.deadlineDraws] s s.countDeadline := by
  intro p hp
  cases p with
  | deadlineDraws => simp at hp
  | mem => exact fun _ => rfl
  | _ => rfl

theorem keepsAllBut_drawIfChanged (s : State) : KeepsAllBut [.outputs, .fbChanged] s s.drawIfChanged := by
  intro p hp
  cases p with
  | outputs | fbChanged => simp at hp
  | mem => exact readByte_congr (State.drawIfChanged_mem s) (State.drawIfChanged_font s)
  | _ => unfold State.drawIfChanged; split <;> rfl

theorem keepsAllBut_tick (s : State) : KeepsAllBut [.dt, .st, .outputs] s s.tick :=
  ((keepsAllBut_setDt s _).trans (keepsAllBut_setSt _ _)).mono (by simp)

/-- The end of a frame on a halted core does not tick (R142). -/
theorem keepsAllBut_endFrame_of_halted {s : State} (hh : s.halted = true) :
    KeepsAllBut [.outputs, .fbChanged, .frame] s s.endFrame := by
  rw [State.endFrame, if_pos hh]
  exact (keepsAllBut_drawIfChanged s).trans (keepsAllBut_setFrame _ _)

theorem keepsAllBut_endFrame (s : State) : KeepsAllBut [.dt, .st, .outputs, .fbChanged, .frame] s s.endFrame := by
  by_cases hh : s.halted = true
  · exact (keepsAllBut_endFrame_of_halted hh).mono (by simp)
  · rw [State.endFrame, if_neg hh]
    exact ((keepsAllBut_tick s).trans
      ((keepsAllBut_drawIfChanged _).trans (keepsAllBut_setFrame _ _))).mono (by simp)

/-! ### Moves between frames (R147, R149, R151, R154) -/

/-- Settles O38: each move is a write of the key matrix, after the move is taken off the agenda. -/
theorem hostSetsKeys : Obligations.HostSetsKeys := by
  have hkept (s : State) (rest : List HostOp) (m : Vector Bool 16) :
      KeepsAllBut [.keys, .agenda] s ((s.setAgenda rest).setKeys m) :=
    ((keepsAllBut_setAgenda s rest).trans (keepsAllBut_setKeys _ m)).mono (by simp)
  refine ⟨fun s rest k p hf ha => ?_, fun s rest idx p hf ha h => step_of_no_key hf ha h, fun s rest m hf ha => ?_⟩
  · refine ⟨_, (step_of_agenda hf ha).trans (hostMove_keyEvent k.isLt p _), Vector.getElem_set_self _, fun j hj => ?_,
      rfl, hkept s rest _⟩
    exact Vector.getElem_set_ne k.isLt j.isLt fun h => hj (Fin.ext h.symm)
  · exact ⟨_, step_of_agenda hf ha, rfl, rfl, hkept s rest m⟩

/-- Settles O39, move by move. -/
theorem idleHostMovesChangeNothing : Obligations.IdleHostMovesChangeNothing := by
  intro s op rest hf ha hop
  rw [step_of_agenda hf ha]
  rcases hop with rfl | rfl | ⟨hh, rfl | rfl⟩
  · rfl
  · rfl
  · exact hostMove_runFrame_of_halted (s := s.setAgenda rest) hh
  · exact cpuStep_of_halted (s := s.setAgenda rest) hh

/-! ### A halted core (R33, R131) -/

theorem eq_of_cpuStep_of_halted {s t : State} (hh : s.halted = true) (h : cpuStep s = .next t) : t = s :=
  Host.Outcome.next.inj (h.symm.trans (cpuStep_of_halted hh))

theorem frameMove_keeps_halted {k : Nat} {s t : State} (hh : s.halted = true) (h : frameMove k s = .next t) :
    KeepsAllBut [.deadlineDraws, .outputs, .fbChanged, .frame] s t := by
  rcases frameMove_next h with ⟨_, _, rfl⟩ | ⟨_, _, u, hu, rfl⟩ | ⟨_, rfl⟩
  · exact (keepsAllBut_countDeadline s).trans (keepsAllBut_endFrame_of_halted (s := s.countDeadline) hh)
  · obtain rfl := eq_of_cpuStep_of_halted (s := s.countDeadline) hh hu
    exact ((keepsAllBut_countDeadline s).trans (keepsAllBut_setFrame _ _)).mono (by simp)
  · exact (keepsAllBut_endFrame_of_halted hh).mono (by simp)

theorem hostMove_keeps_halted {op : HostOp} {s t : State} (hh : s.halted = true)
    (hop : ∀ bytes, op ≠ .loadRom bytes) (h : hostMove op s = .next t) : KeepsAllBut [.keys] s t := by
  rcases hostMove_next h with ⟨bytes, he, _⟩ | ⟨bytes, he, _⟩ | ⟨_, _, _, _, rfl⟩ | ⟨_, _, rfl⟩ |
    ⟨_, hrun, _⟩ | ⟨_, hstep⟩ | ⟨_, rfl⟩
  · exact absurd he (hop bytes)
  · exact absurd he (hop bytes)
  · exact keepsAllBut_setKeys s _
  · exact keepsAllBut_setKeys s _
  · exact absurd (hh.symm.trans hrun) (by decide)
  · rw [eq_of_cpuStep_of_halted hh hstep]
    exact (keepsAllBut_refl s).mono (by simp)
  · exact (keepsAllBut_refl t).mono (by simp)

/-- Settles O50, one agent's move at a time: the core does nothing, a frame ends without a tick, and the host
sets keys at most. -/
theorem haltedStateIsPreserved : Obligations.HaltedStateIsPreserved := by
  intro s t hh hstep hload
  rcases step_next hstep with ⟨k, _, he⟩ | ⟨_, rfl⟩ | ⟨hidle, op, rest, ha, he⟩ | ⟨_, _, he⟩
  · exact (frameMove_keeps_halted hh he).mono (by simp)
  · exact (keepsAllBut_endFrame_of_halted hh).mono (by simp)
  · have hop : ∀ bytes, op ≠ .loadRom bytes := by
      rintro bytes rfl
      exact hload hidle bytes rest ha
    exact ((keepsAllBut_setAgenda s rest).trans
      (hostMove_keeps_halted (s := s.setAgenda rest) hh hop he)).mono (by simp)
  · rw [eq_of_cpuStep_of_halted hh he]
    exact (keepsAllBut_refl s).mono (by simp)

end Sys2Proof.Machine

/-! PROOFS. A frame: the instruction of a round, the end of a frame, and `run_frame()` step by step as one loop (R141,
R142, R149 to R153). -/

namespace Sys2Proof.Machine

/-! ### A round of a frame (R149, R150) -/

theorem keyWaitSignalled_iff {s : State} {i : Instr} (hi : decode s.fetchWord = .ok i) (t : State) :
    keyWaitSignalled s t = true ↔ (∃ x, i = .ldVxK x) ∧ t.waitingForKey = true := by
  unfold keyWaitSignalled
  rw [hi]
  cases i <;> simp

/-- The decoded instruction ends the frame where the core has halted or an Fx0A is waiting. -/
theorem stops_iff {s : State} {i : Instr} (hi : decode s.fetchWord = .ok i) (t : State) :
    (t.halted || keyWaitSignalled s t) = true ↔
      t.halted = true ∨ ((∃ x, i = .ldVxK x) ∧ t.waitingForKey = true) := by
  rw [Bool.or_eq_true, keyWaitSignalled_iff hi]

theorem frameAfter_of_stop {k : Nat} {s t : State} (h : (t.halted || keyWaitSignalled s t) = true) :
    frameAfter k s t = .ending :=
  if_pos h

theorem frameAfter_of_go_on {k : Nat} {s t : State} (h : ¬(t.halted || keyWaitSignalled s t) = true) :
    frameAfter k s t = .running (k + 1) :=
  if_neg h

theorem frameAfter_of_halted (k : Nat) (s : State) {t : State} (hh : t.halted = true) :
    frameAfter k s t = .ending :=
  frameAfter_of_stop (Bool.or_eq_true_iff.mpr (.inl hh))

/-- Settles O6: the host's `step()` is the core's step, and so is a round that the deadline does not end. -/
theorem hostStepAndFrameRunTheInstruction : Obligations.HostStepAndFrameRunTheInstruction := by
  refine ⟨fun s rest i hf ha hrun hi => ?_, fun s k i hf hk hrun hi => ?_⟩
  · exact (step_of_agenda hf ha).trans (cpuStep_of_decode (s := s.setAgenda rest) hrun hi)
  · rw [step_of_running hf]
    split
    · next hd => exact frameMove_of_deadline hk hd
    · next hd =>
      rw [frameMove_of_round hk (Bool.eq_false_of_not_eq_true hd), cpuStep_of_decode (s := s.countDeadline) hrun hi]
      refine congrArg (mapNext · _) (funext fun t => ?_)
      have hstops := stops_iff (s := s.countDeadline) hi t
      split
      · next hstop => rw [frameAfter_of_stop (hstops.mpr hstop)]
      · next hgoes => rw [frameAfter_of_go_on (mt hstops.mp hgoes)]

/-- Settles O7: on each path the core raises, and in a frame the halted core ends it. -/
theorem invalidWordHaltsTheCore : Obligations.InvalidWordHaltsTheCore := by
  refine ⟨?_, ?_, ?_⟩
  · rintro s hf ha hrun ⟨e, he⟩
    exact ⟨_, (step_of_idle hf ha).trans (cpuStep_of_invalid hrun he), faultedWith_raise s _ _⟩
  · rintro s rest hf ha hrun ⟨e, he⟩
    exact ⟨_, (step_of_agenda hf ha).trans (cpuStep_of_invalid (s := s.setAgenda rest) hrun he),
      faultedWith_raise (s.setAgenda rest) _ _⟩
  · rintro s k hf hk hrun ⟨e, he⟩
    refine ⟨_, faultedWith_raise s.countDeadline _ _, ?_⟩
    rw [step_of_running hf]
    split
    · next hd => exact frameMove_of_deadline hk hd
    · next hd =>
      rw [frameMove_of_round hk (Bool.eq_false_of_not_eq_true hd), cpuStep_of_invalid (s := s.countDeadline) hrun he]
      exact congrArg (fun f => Host.Outcome.next (State.setFrame _ f)) (frameAfter_of_halted k _ rfl)

/-! ### The end of a frame (R141, R142, R152, R153) -/

/-- Only the tick from 1 to 0 changes the level of the sound (R25, R141). -/
theorem tick_keeps_level_iff (s : State) : (s.st = 0 ↔ tickTimer s.st = 0) ↔ s.st.toNat ≠ 1 := by
  rw [← BitVec.toNat_inj, ← BitVec.toNat_inj, toNat_tickTimer, show (0 : Byte).toNat = 0 from rfl]
  omega

theorem outputs_tick (s : State) :
    s.tick.outputs = (if s.st.toNat = 1 then [.beep false] else []) ++ s.outputs := by
  rw [State.tick_outputs]
  by_cases h : s.st.toNat = 1
  · have hlevel : ¬s.soundOn = (tickTimer s.st != 0) :=
      mt soundOn_eq_iff.mp fun hkept => (tick_keeps_level_iff s).mp hkept h
    have hoff : tickTimer s.st = 0 := BitVec.eq_of_toNat_eq (by rw [toNat_tickTimer, h]; rfl)
    rw [if_neg hlevel, if_pos h, hoff]
    rfl
  · rw [if_pos (soundOn_eq_iff.mpr ((tick_keeps_level_iff s).mpr h)), if_neg h]
    rfl

theorem outputs_drawIfChanged (s : State) :
    s.drawIfChanged.outputs = (if s.fbChanged = true then [.draw s.fb] else []) ++ s.outputs := by
  rw [State.drawIfChanged_outputs]
  split <;> rfl

/-- What is handed over at the end of a frame: the sound's end, and then the framebuffer. -/
theorem outputs_endFrame (s : State) :
    s.endFrame.outputs = (if s.fbChanged = true then [.draw s.fb] else []) ++
      (if s.halted = false ∧ s.st.toNat = 1 then [.beep false] else []) ++ s.outputs := by
  rw [List.append_assoc]
  unfold State.endFrame
  rw [State.setFrame_outputs, outputs_drawIfChanged]
  cases hh : s.halted with
  | true => simp
  | false => simp [outputs_tick, -State.tick_outputs]

theorem frameEnded_endFrame (s : State) : FrameEnded s s.endFrame := by
  refine ⟨?_, ?_, outputs_endFrame s, State.endFrame_fbChanged s, State.endFrame_frame s,
    (keepsAllBut_endFrame s).mono (by simp)⟩
  · rw [State.endFrame_dt]
    split <;> simp [toNat_tickTimer]
  · rw [State.endFrame_st]
    split <;> simp [toNat_tickTimer]

/-- The count of deadline draws is no part of what the end of a frame is measured against. -/
theorem frameEnded_of_countDeadline {s t : State} (h : FrameEnded s.countDeadline t) : FrameEnded s t := by
  obtain ⟨hdt, hst, hout, hfb, hframe, hkept⟩ := h
  exact ⟨hdt, hst, hout, hfb, hframe, ((keepsAllBut_countDeadline s).trans hkept).mono (by simp)⟩

/-- Settles O35: each of the three ends is `endFrame`, the last after the draw is counted. -/
theorem frameEndTicksAndDraws : Obligations.FrameEndTicksAndDraws := by
  refine ⟨fun s hf => ?_, fun s k hf hk => ?_, fun s k hf hk => ?_⟩
  · exact ⟨_, step_of_ending hf, frameEnded_endFrame s, State.endFrame_deadlineDraws s⟩
  · exact ⟨_, (step_of_running hf).trans (frameMove_of_over (Nat.not_lt.mpr hk)), frameEnded_endFrame s,
      State.endFrame_deadlineDraws s⟩
  · exact ⟨_, frameEnded_of_countDeadline (frameEnded_endFrame s.countDeadline),
      State.endFrame_deadlineDraws s.countDeadline,
      fun hd => (step_of_running hf).trans (frameMove_of_deadline hk hd)⟩

/-! ### A frame ends within its quantum (R150, R166) -/

theorem run_one_of_next {s t : State} (h : step s = .next t) : Host.Core.run Sys2Proof.core 1 s = .next t :=
  run_succ_of_next h 0

theorem run_two_of_next {s t u : State} (h : step s = .next t) (h' : step t = .next u) :
    Host.Core.run Sys2Proof.core 2 s = .next u :=
  (run_succ_of_next h 1).trans (run_one_of_next h')

/-- A round ends the frame, or had quantum left and leaves the frame to end or to go on with one instruction more. -/
theorem frameMove_progress {k : Nat} {s t : State} (h : frameMove k s = .next t) :
    t.frame = .idle ∨ (k < Config.cyclesPerFrame ∧ (t.frame = .ending ∨ t.frame = .running (k + 1))) := by
  rcases frameMove_next h with ⟨_, _, rfl⟩ | ⟨hk, _, u, _, rfl⟩ | ⟨_, rfl⟩
  · exact .inl (State.endFrame_frame _)
  · refine .inr ⟨hk, ?_⟩
    by_cases hstop : (u.halted || keyWaitSignalled s.countDeadline u) = true
    · exact .inl (frameAfter_of_stop hstop)
    · exact .inr (frameAfter_of_go_on hstop)
  · exact .inl (State.endFrame_frame s)

/-- With at most d instructions of the quantum left, d + 1 steps are enough. -/
theorem frame_ends_within (d : Nat) {k : Nat} {s : State} (hinv : StateInv s) (hf : s.frame = .running k)
    (hd : Config.cyclesPerFrame ≤ k + d) :
    ∃ n t, n ≤ d + 1 ∧ Host.Core.run Sys2Proof.core n s = .next t ∧ t.frame = .idle := by
  induction d generalizing k s with
  | zero =>
    have hstep : step s = .next s.endFrame :=
      (step_of_running hf).trans (frameMove_of_over (Nat.not_lt.mpr hd))
    exact ⟨1, _, Nat.le_refl _, run_one_of_next hstep, State.endFrame_frame s⟩
  | succ d ih =>
    obtain ⟨t, ht⟩ := frameMove_runs hinv.spBound k
    have hstep : step s = .next t := (step_of_running hf).trans ht
    rcases frameMove_progress ht with hidle | ⟨_, hend | hrun⟩
    · exact ⟨1, t, by omega, run_one_of_next hstep, hidle⟩
    · exact ⟨2, _, by omega, run_two_of_next hstep (step_of_ending hend), State.endFrame_frame t⟩
    · obtain ⟨n, u, hn, hu, hidle⟩ := ih (hinv.frameMove ht) hrun (by omega)
      exact ⟨n + 1, u, by omega, (run_succ_of_next hstep n).trans hu, hidle⟩

/-- Settles O37, by induction on what is left of the quantum. -/
theorem frameEndsInTime : Obligations.FrameEndsInTime :=
  fun _ k hinv hf => frame_ends_within (Config.cyclesPerFrame - k) hinv hf (by omega)

/-! ### `run_frame()` by steps and as one loop (R150) -/

theorem frameLoop_of_deadline {s : State} (hd : Config.deadline s.deadlineDraws = true) (n : Nat) :
    frameLoop (n + 1) s = .next s.countDeadline :=
  if_pos hd

/-- A round that runs its instruction is the loop's last where the core halts or waits for a key. -/
theorem frameLoop_of_next {s t : State} (hd : Config.deadline s.deadlineDraws = false)
    (hc : cpuStep s.countDeadline = .next t) (n : Nat) :
    frameLoop (n + 1) s = if t.halted || keyWaitSignalled s.countDeadline t then .next t else frameLoop n t := by
  simp [frameLoop, hd, hc]

theorem frameLoop_of_fault {s : State} {r : Fault} (hd : Config.deadline s.deadlineDraws = false)
    (hc : cpuStep s.countDeadline = .fault r) (n : Nat) : frameLoop (n + 1) s = .fault r := by
  simp [frameLoop, hd, hc]

theorem frameLoop_of_refused {s : State} {r : Refusal} (hd : Config.deadline s.deadlineDraws = false)
    (hc : cpuStep s.countDeadline = .refused r) (n : Nat) : frameLoop (n + 1) s = .refused r := by
  simp [frameLoop, hd, hc]

theorem runFrameWhole_of_halted {s : State} (hh : s.halted = true) : runFrameWhole s = .next s :=
  if_pos hh

theorem runFrameWhole_of_not_halted {s : State} (hh : ¬ s.halted = true) :
    runFrameWhole s = mapNext State.endFrame (frameLoop Config.cyclesPerFrame s) := by
  rw [runFrameWhole, if_neg hh]
  cases frameLoop Config.cyclesPerFrame s <;> rfl

theorem countDeadline_setFrame (s : State) (p : FramePhase) :
    (s.setFrame p).countDeadline = s.countDeadline.setFrame p := rfl

/-- A round of the frame under way that the deadline does not end is the core's step with the frame moved on. -/
theorem step_running_of_round {k : Nat} {s : State} (hk : k < Config.cyclesPerFrame)
    (hd : Config.deadline s.deadlineDraws = false) :
    step (s.setFrame (.running k)) =
      mapNext (fun t => t.setFrame (frameAfter k s.countDeadline t)) (cpuStep s.countDeadline) := by
  rw [step_of_running (k := k) rfl, frameMove_of_round (s := s.setFrame (.running k)) hk hd, countDeadline_setFrame,
    cpuStep_setFrame]
  cases cpuStep s.countDeadline <;> rfl

/-- The rounds of a frame, one a step, and its end come to what the loop with as many rounds left gives. -/
theorem run_running_eq_frameLoop (d : Nat) {k : Nat} (s : State) (hkd : k + d = Config.cyclesPerFrame) :
    ∃ n, n ≤ d + 1 ∧
      Host.Core.run Sys2Proof.core n (s.setFrame (.running k)) = mapNext State.endFrame (frameLoop d s) := by
  induction d generalizing k s with
  | zero =>
    have hstep : step (s.setFrame (.running k)) = .next s.endFrame := by
      rw [step_of_running (k := k) rfl, frameMove_of_over (by omega), endFrame_setFrame]
    exact ⟨1, Nat.le_refl _, run_one_of_next hstep⟩
  | succ d ih =>
    have hk : k < Config.cyclesPerFrame := by omega
    cases hd : Config.deadline s.deadlineDraws with
    | true =>
      have hstep : step (s.setFrame (.running k)) = .next s.countDeadline.endFrame := by
        rw [step_of_running (k := k) rfl, frameMove_of_deadline (s := s.setFrame (.running k)) hk hd,
          countDeadline_setFrame, endFrame_setFrame]
      rw [frameLoop_of_deadline hd]
      exact ⟨1, by omega, run_one_of_next hstep⟩
    | false =>
      have hstep := step_running_of_round hk hd
      cases hc : cpuStep s.countDeadline with
      | fault r =>
        rw [hc] at hstep
        rw [frameLoop_of_fault hd hc]
        exact ⟨1, by omega, run_succ_of_fault hstep 0⟩
      | refused r =>
        rw [hc] at hstep
        rw [frameLoop_of_refused hd hc]
        exact ⟨1, by omega, run_succ_of_refused hstep 0⟩
      | next t =>
        rw [hc, mapNext] at hstep
        rw [frameLoop_of_next hd hc]
        by_cases hstop : (t.halted || keyWaitSignalled s.countDeadline t) = true
        · rw [frameAfter_of_stop hstop] at hstep
          rw [if_pos hstop]
          have hend : step (t.setFrame .ending) = .next t.endFrame := by rw [step_of_ending rfl, endFrame_setFrame]
          exact ⟨2, by omega, run_two_of_next hstep hend⟩
        · rw [frameAfter_of_go_on hstop] at hstep
          rw [if_neg hstop]
          obtain ⟨n, hn, hrun⟩ := ih (k := k + 1) t (by omega)
          exact ⟨n + 1, by omega, (run_succ_of_next hstep n).trans hrun⟩

/-- Settles O36: `run_frame()` starts the frame in one step, and its rounds and end are the loop. -/
theorem frameStepsAreTheFrameLoop : Obligations.FrameStepsAreTheFrameLoop := by
  intro s rest hf ha
  have hstep := step_of_agenda hf ha
  by_cases hh : s.halted = true
  · rw [hostMove_runFrame_of_halted (s := s.setAgenda rest) hh] at hstep
    exact ⟨1, by omega, (run_one_of_next hstep).trans (runFrameWhole_of_halted (s := s.setAgenda rest) hh).symm⟩
  · rw [hostMove_runFrame (s := s.setAgenda rest) hh] at hstep
    obtain ⟨n, hn, hrun⟩ := run_running_eq_frameLoop Config.cyclesPerFrame (s.setAgenda rest) (k := 0) (by omega)
    refine ⟨n + 1, by omega, ?_⟩
    rw [run_succ_of_next hstep, hrun, runFrameWhole_of_not_halted (s := s.setAgenda rest) hh]

end Sys2Proof.Machine

/-! PROOFS. The reset by `load_rom` and the fetch of bytes just stored (R161, R162, R165). -/

namespace Sys2Proof.Machine

/-! ### A store under a later fetch (R165) -/

/-- The halves of the word fetched are the bytes at pc and pc + 1, so what holds of the byte at an address holds of the
half that is read there (R55, R60). -/
theorem fetchWord_halves_of_readByte {u : State} {n : Nat} {P : Byte → Prop}
    (h : ∀ a : Word, a.toNat % 4096 = n % 4096 → P (u.readByte a)) :
    (u.pc.toNat % 4096 = n % 4096 → P (hiByte u.fetchWord)) ∧
    ((u.pc.toNat + 1) % 4096 = n % 4096 → P (loByte u.fetchWord)) := by
  rw [State.fetchWord, State.wordAt, hiByte_wordOfBytes, loByte_wordOfBytes]
  refine ⟨h u.pc, fun hlo => h (u.pc + 1) ?_⟩
  rw [BitVec.toNat_add, show (1 : Word).toNat = 1 from rfl]
  omega

/-- Settles O31: the bytes stored are those of `storeRegistersAtIndex` and `storeDecimalDigits`, and a fetch reads the
bytes under pc and pc + 1. -/
theorem storeIsSeenByTheNextFetch : Obligations.StoreIsSeenByTheNextFetch := by
  intro x s t u hwf hread
  constructor
  · intro hexec k hk
    obtain ⟨t', hexec', hstored, -⟩ := storeRegistersAtIndex.2 x s hwf
    obtain rfl : t = t' := Host.Outcome.next.inj (hexec.symm.trans hexec')
    exact fetchWord_halves_of_readByte (P := (· = s.v[k])) fun a ha => (hread a).trans (hstored k a hk ha)
  · intro hexec k d hdigit
    obtain ⟨t', hexec', hhundreds, htens, hones, -⟩ := storeDecimalDigits.2 x s hwf
    obtain rfl : t = t' := Host.Outcome.next.inj (hexec.symm.trans hexec')
    refine fetchWord_halves_of_readByte (P := (·.toNat = d)) fun a ha => ?_
    rw [hread a]
    simp only [List.mem_cons, Prod.mk.injEq, List.not_mem_nil, or_false] at hdigit
    obtain ⟨rfl, rfl⟩ | ⟨rfl, rfl⟩ | ⟨rfl, rfl⟩ := hdigit
    · exact hhundreds a ha
    · exact htens a ha
    · exact hones a ha

/-! ### `load_rom` (R161, R162) -/

theorem hostMove_loadRom_of_fits {bytes : List Byte} (h : bytes.length ≤ 3584) (s : State) :
    hostMove (.loadRom bytes) s = .next (s.loadImage bytes) :=
  if_pos h

theorem hostMove_loadRom_of_too_long {bytes : List Byte} (h : 3584 < bytes.length) (s : State) :
    hostMove (.loadRom bytes) s = .next (s.emit (.romTooLarge bytes.length)) :=
  if_neg (Nat.not_le_of_lt h)

/-- The reset contents of RAM: the font at FONT_BASE, zero elsewhere (R51, R161). -/
theorem resetByte_eq_ite (font : Font) (a : Nat) :
    Memory.resetByte font a = if 0x050 ≤ a ∧ a < 0x0A0 then (font[a - 0x050]?).getD 0 else 0 := by
  split
  · next h =>
    obtain ⟨k, rfl⟩ := Nat.exists_eq_add_of_le h.1
    have hk : k < 80 := by omega
    rw [resetByte_of_font hk, Nat.add_sub_cancel_left, Vector.getElem?_eq_getElem hk, Option.getD_some]
  · exact resetByte_of_not_font (by omega)

/-- RAM after a reset: the image from ROM_BASE with zeros after it, the reset contents before it (R161). -/
theorem readByte_loadImage (s : State) {bytes : List Byte} (h : bytes.length ≤ 3584) {a : Word} (ha : a.toNat < 4096) :
    (s.loadImage bytes).readByte a =
      if 0x200 ≤ a.toNat then bytes.getD (a.toNat - 0x200) 0 else Memory.resetByte s.font a.toNat := by
  have hend : Config.romBase + bytes.length ≤ 4096 := by
    rw [Config.romBase]
    omega
  rw [State.readByte, mask12_of_lt ha, State.loadImage_mem, State.loadImage_font, Memory.read_ofImage _ _ hend,
    Config.romBase]
  split
  · rw [resetByte_of_not_font (by omega), List.getD_eq_getElem?_getD]
  · rfl

/-- Settles O40: an image that fits is loaded over the reset state, RAM included, and a longer one only adds to the
outputs. -/
theorem loadRomIsTheReset : Obligations.LoadRomIsTheReset := by
  constructor
  · intro s bytes rest hf ha hfit
    obtain ⟨-, -, -, -, -, -, -, -, harrays, hclear, -⟩ := resetValues
    refine ⟨_, (step_of_agenda hf ha).trans (hostMove_loadRom_of_fits hfit _), fun a ha => ?_, rfl, rfl, rfl, rfl, rfl,
      rfl, rfl, rfl, rfl, harrays, hclear, rfl, rfl⟩
    rw [readByte_loadImage _ hfit ha, resetByte_eq_ite, State.setAgenda_font]
  · intro s bytes rest hf ha hlong
    exact (step_of_agenda hf ha).trans (hostMove_loadRom_of_too_long hlong _)

end Sys2Proof.Machine
